-- ==== Sys2Proof/Word.lean ====
section
/-! DEFINITION. The word types of the core (spec 00_scope.md R8, R9): `u<N>` and `i<N>` are both
`BitVec N`; a rule that needs the signed value takes `toInt`, one that needs the unsigned value takes
`toNat`. Arithmetic on them reduces modulo 2^N, as R9 says of every write to an N-bit register. -/

namespace Sys2Proof

/-- A command word (spec 30_encoding.md R70). -/
abbrev Word := BitVec 16

/-- One byte: an element of `buffer` or `states` (spec 20_memory.md R53). -/
abbrev Byte := BitVec 8

/-- A 32-bit pattern, u32 or i32 by use (spec 00_scope.md R9). -/
abbrev W32 := BitVec 32

/-- One input bit (spec 30_encoding.md R73: u1). -/
abbrev Bit := BitVec 1

end Sys2Proof
end

