-- ==== Sys2Proof/Syntax.lean ====
section
/-! DEFINITION. The commands of spec/opcode_table.json, one constructor per row, and the assembler's
lines of spec 30_encoding.md R81, R82, R83. -/

namespace Sys2Proof

/-- One command (spec 30_encoding.md R72). Each operand is exactly its field: the bit of R73, the
12-bit pattern `x` of R74 (read as two's complement), the 12-bit `p` of R75. -/
inductive Instr where
  /-- GET, 0x0000 (R91). -/
  | get
  /-- UPDATE `bit`, 0x1000 | bit (R93). -/
  | update (bit : Bit)
  /-- SQUASH `x`, 0x2000 | x (R96). -/
  | squash (x : BitVec 12)
  /-- STRETCH `p`, 0x3000 | p (R97). -/
  | stretch (p : BitVec 12)
  /-- RESET, 0x4000 (R92). -/
  | reset
  deriving DecidableEq, Repr

/-- One line of assembly (R81, R82, R83), with its operand as written, in range or not. -/
inductive AsmLine where
  /-- A line with no command: nothing, or a comment alone. -/
  | blank
  /-- `GET`. -/
  | get
  /-- `RESET`. -/
  | reset
  /-- `UPDATE <bit>`. -/
  | update (bit : Int)
  /-- `SQUASH <x>`. -/
  | squash (x : Int)
  /-- `STRETCH <p>`. -/
  | stretch (p : Int)
  /-- The pseudo-instruction `BYTE <v>` (R82). -/
  | byte (v : Int)
  /-- The pseudo-instruction `BYTES "<text>"` (R83). -/
  | bytes (text : List Char)
  deriving DecidableEq, Repr

end Sys2Proof
end

