-- ==== Sys2Proof/WellFormed.lean ====
section
/-! DEFINITION. Well-formedness. A command's operands are exactly its fields, so every `Instr` is
well formed: UPDATE's operand has one bit and cannot spell another value (spec 30_encoding.md R73), and
every 12-bit operand of SQUASH and STRETCH is legal (R74, R75). The range checks stand where the spec
has them, in the assembler: "an operand out of range is an assembly error, never a truncation" (R81). -/

namespace Sys2Proof

/-- A command is well formed: its operand lies in the range R72 gives it. -/
def Instr.wf : Instr → Bool
  | .get => true
  | .update bit => decide (bit.toNat ≤ 1)
  | .squash x => decide (-2048 ≤ x.toInt) && decide (x.toInt ≤ 2047)
  | .stretch p => decide (p.toNat ≤ 4095)
  | .reset => true

/-- The range checks of R81, R82 and R83 on one line of assembly. -/
def AsmLine.wf : AsmLine → Bool
  | .blank => true
  | .get => true
  | .reset => true
  | .update bit => decide (bit = 0) || decide (bit = 1)
  | .squash x => decide (-2048 ≤ x) && decide (x ≤ 2047)
  | .stretch p => decide (0 ≤ p) && decide (p ≤ 4095)
  | .byte v => decide (0 ≤ v) && decide (v ≤ 255)
  | .bytes text => text.all fun c => decide (c.toNat < 128)

end Sys2Proof
end

