-- ==== Sys2Proof/Decode.lean ====
section
/-! DEFINITION. The decoder and the encoder of command words (spec 30_encoding.md R70..R80). The
decoder is total: each of the 65536 words is one legal command or is illegal for a named reason (R79).
Every illegal word raises ILLEGAL_COMMAND, whatever the reason (R204). -/

namespace Sys2Proof

/-- `OP` = bits 15:12 of a command word (R71). -/
def opField (w : Word) : BitVec 4 := w.extractLsb' 12 4

/-- `ARG` = bits 11:0 of a command word (R71). -/
def argField (w : Word) : BitVec 12 := w.extractLsb' 0 12

/-- Why a word is illegal. -/
inductive IllegalWord where
  /-- `OP` ∈ 0x5..0xF (R77). -/
  | reservedOpcode (op : BitVec 4)
  /-- A must-be-zero bit of `ARG` is set: GET or RESET with `ARG` ≠ 0, UPDATE with `ARG[11:1]` ≠ 0
  (R78). -/
  | nonzeroArg (op : BitVec 4) (arg : BitVec 12)
  deriving DecidableEq, Repr

/-- The command a word stands for (R72), or why it is illegal (R77, R78). -/
def decode (w : Word) : Except IllegalWord Instr :=
  match (opField w).toNat with
  | 0 => if argField w = 0 then .ok .get else .error (.nonzeroArg (opField w) (argField w))
  | 1 =>
    if (argField w).extractLsb' 1 11 = 0 then .ok (.update ((argField w).extractLsb' 0 1))
    else .error (.nonzeroArg (opField w) (argField w))
  | 2 => .ok (.squash (argField w))
  | 3 => .ok (.stretch (argField w))
  | 4 => if argField w = 0 then .ok .reset else .error (.nonzeroArg (opField w) (argField w))
  | _ => .error (.reservedOpcode (opField w))

/-- The word of a command: `OP` above `ARG` (R71, R72). -/
def encode : Instr → Word
  | .get => (0x0 : BitVec 4) ++ (0 : BitVec 12)
  | .update bit => (0x1 : BitVec 4) ++ ((0 : BitVec 11) ++ bit)
  | .squash x => (0x2 : BitVec 4) ++ x
  | .stretch p => (0x3 : BitVec 4) ++ p
  | .reset => (0x4 : BitVec 4) ++ (0 : BitVec 12)

/-- The word of a table row of `nbits` bits whose bits are `w`, every bit above `nbits` being 0. -/
def tableWord (nbits w : Nat) : Word := BitVec.ofNat 16 (w % 2 ^ nbits)

/-- The command the decoder reads from an instruction whose bits are `w`, numbered as
spec/opcode_table.json numbers them; a command is one 16-bit word (R70), so the table's bit order is
the word's own. -/
def decodeTableWord (nbits w : Nat) : Option Instr :=
  match decode (tableWord nbits w) with
  | .ok i => some i
  | .error _ => none

end Sys2Proof
end

