-- ==== Sys2Proof/Config.lean ====
section
/-! DEFINITION. The parameters of spec 00_scope.md R6: the fixed constants as definitions, and what
the source leaves open as ONE opaque constant `Config.params`, which nothing evaluates. Every
definition of the machine takes the parameters as an argument (R6, R44: "a model takes the open
parameters as arguments of the whole run"); only the meanings called by `exec` name `Config.params`.
DESIGN CHOICE, safe: log entry 1. -/

namespace Sys2Proof

/-! ## Fixed constants (R6, first table) -/

/-- `H` = 2^23, entries of `hashes`. -/
def Config.hashEntries : Nat := 8 * 1024 * 1024

/-- `MAX_MATCH` = 160, the ceiling of `matchLen`. -/
def Config.maxMatch : Nat := 160

/-- `M` = 4096, mixer contexts. -/
def Config.mixerRows : Nat := 4096

/-- `MIXER` has `M` × 16 elements (10_state.md R34). -/
def Config.mixerSize : Nat := Config.mixerRows * 16

/-- `NIN` = 8, mixer inputs per context. -/
def Config.mixerInputs : Nat := 8

/-- `PAD` = 64, the neutral value for unfilled mixer slots. -/
def Config.pad : W32 := 64

/-- `MIX_ERR_SCALE` = 7. -/
def Config.mixErrScale : W32 := 7

/-- `MIX_DOT_SHIFT` = 15. -/
def Config.mixDotShift : Nat := 15

/-- `MIX_W_SHIFT` = 16. -/
def Config.mixWeightShift : Nat := 16

/-- `APM_ROWS` = 65536. -/
def Config.apmRows : Nat := 65536

/-- `APM_KNOTS` = 33. -/
def Config.apmKnots : Nat := 33

/-- `APM` has `APM_ROWS` × `APM_KNOTS` = 2,162,688 elements (10_state.md R38). -/
def Config.apmSize : Nat := Config.apmRows * Config.apmKnots

/-- `APM_RATE` = 7. -/
def Config.apmRate : Nat := 7

/-- `HASH_MUL` = 43707. -/
def Config.hashMul : W32 := 43707

/-- `HASH_SHL` = 4. -/
def Config.hashShl : Nat := 4

/-- `AC_MUL1` = 987654323. -/
def Config.acMul1 : W32 := 987654323

/-- `AC_MUL2` = 123456791. -/
def Config.acMul2 : W32 := 123456791

/-- `PR_INIT` = 2048. -/
def Config.prInit : BitVec 12 := 2048

/-! ## Open parameters (R6, second table) -/

/-- `HASH_SHR`: the kind of `>>` in hashTPAQ and context 6 (92_eei_decisions.md D13). -/
inductive HashShr where
  | arithmetic
  | logical
  deriving DecidableEq, Repr, Inhabited

/-- `CTX6_BIN_SHIFT`: 4 or 16 (92_eei_decisions.md D12). -/
inductive BinShiftAmount where
  | four
  | sixteen
  deriving DecidableEq, Repr, Inhabited

/-- The shift count a `BinShiftAmount` stands for. -/
def BinShiftAmount.amount : BinShiftAmount → Nat
  | .four => 4
  | .sixteen => 16

/-- `BUF_BITS`: 25 or 28, with `B = 2^BUF_BITS` (92_eei_decisions.md D27, 00_scope.md R7). -/
inductive BufBits where
  | b25
  | b28
  deriving DecidableEq, Repr, Inhabited

/-- The exponent a `BufBits` stands for. -/
def BufBits.bits : BufBits → Nat
  | .b25 => 25
  | .b28 => 28

/-- The open parameters of one run, in the form that cannot express what R114 and R127 say a model
must refuse: a squash entry is a u12 (R114 (a)), a stretch entry a signed 12-bit value (R114 (b)), and
the state table's free rows are 0..252 (R127 fixes rows 253..255 at 0). Rows 7 and above of STATE_MAP
are never read (R130). The defaults are those of R6. -/
structure Params where
  /-- `SQUASH_TABLE`, entry `n` standing for index `x = n - 2047`. -/
  squashTable : Fin 4095 → BitVec 12
  /-- `STRETCH_TABLE`, a two's-complement value for each `p`. -/
  stretchTable : BitVec 12 → BitVec 12
  /-- `STATE_TABLE`, rows 0..252. -/
  stateTable : Fin 253 → Bit → Byte
  /-- `STATE_MAP`, rows 0..6. -/
  stateMap : Fin 7 → Byte → W32
  /-- `C1`. -/
  c1 : W32
  /-- `C2`. -/
  c2 : W32
  /-- `C3`. -/
  c3 : W32
  /-- `C4`. -/
  c4 : W32
  /-- `C5`. -/
  c5 : W32
  /-- `HASH1`. -/
  hash1 : W32
  /-- `HASH2`. -/
  hash2 : W32
  /-- `HASH3`. -/
  hash3 : W32
  /-- `CTX6_BIN_SHIFT`, default 16. -/
  binShift : BinShiftAmount := .sixteen
  /-- `HASH_SHR`, default arithmetic. -/
  hashShr : HashShr := .arithmetic
  /-- `BUF_BITS`, default 28. -/
  bufBits : BufBits := .b28
  deriving Inhabited

/-- The parameters of THIS machine. Opaque: the source lists none of the tables and salts
(91_not_in_source.md G1..G4), so a claim about the machine holds for every choice. -/
opaque Config.params : Params

/-- `B = 2^BUF_BITS`, entries of `buffer` and of `states` (R6, R7). -/
def Params.ringSize (P : Params) : Nat := 2 ^ P.bufBits.bits

/-- The parameters as a person writes them down: plain lists and numbers, any of which may break a
constraint (R6, second table). `Sys2Proof.Machine.loadParams` checks them. `ROUNDTRIP_TOL` has no
default; no rule relies on it (R115). -/
structure ParamInstance where
  /-- `SQUASH_TABLE` at x = -2047, -2046, …, 2047. -/
  squashTable : List Int
  /-- `STRETCH_TABLE` at p = 0, …, 4095. -/
  stretchTable : List Int
  /-- `STATE_TABLE`: the pairs (next on 0, next on 1) of rows 0..255. -/
  stateTable : List (Nat × Nat)
  /-- `STATE_MAP`: `stateMapRows` rows of 256 entries. -/
  stateMap : List (List Int)
  /-- `STATE_MAP_ROWS`, an integer ≥ 8. -/
  stateMapRows : Nat := 8
  /-- `C1`..`C5`, in order. -/
  salts : List W32
  /-- `HASH1`..`HASH3`, in order. -/
  hashSalts : List W32
  /-- `CTX6_BIN_SHIFT`, 4 or 16. -/
  ctx6BinShift : Nat := 16
  /-- `HASH_SHR`. -/
  hashShr : HashShr := .arithmetic
  /-- `BUF_BITS`, 25 or 28. -/
  bufBits : Nat := 28
  /-- `ROUNDTRIP_TOL`, the tolerance of the test gate of R115. -/
  roundtripTol : Nat
  deriving DecidableEq, Repr

end Sys2Proof
end

