-- ==== Sys2Proof/Machine/Lut.lean ====
section
/-! DEFINITION. squash/stretch_lut (spec 41_squash_stretch.md): the two read ports of the LUT and the
SSE template made from them (46_apm.md R186). Pure functions of the argument and the parameters
(R110). -/

namespace Sys2Proof.Machine

/-- `Squash(x)` for every integer `x`: the table in its domain (R111), saturating outside it (R112). -/
def squash (P : Params) (x : Int) : BitVec 12 :=
  if hlo : x < -2047 then 0
  else if hhi : x > 2047 then 4095
  else P.squashTable ⟨(x + 2047).toNat, by omega⟩

/-- `Stretch(p)`, a signed 12-bit value (R113). -/
def stretch (P : Params) (p : BitVec 12) : BitVec 12 := P.stretchTable p

/-- The template value of knot `j`: `Squash((j - 16) << 7) << 4` (46_apm.md R186). -/
def knotTemplate (P : Params) (j : Nat) : W32 :=
  (squash P (((j : Int) - 16) * 2 ^ 7)).setWidth 32 <<< 4

/-- What RESET writes to the element of index `a` of `APM`, all rows being copies of one (R186). -/
def apmTemplate (P : Params) (a : Nat) : W32 := knotTemplate P (a % Config.apmKnots)

/-- The knot of a stretched value `s`: `(s + 2048) >>a 7`, in [0, 31] (46_apm.md R188). -/
def knotOf (s : BitVec 12) : Fin 32 :=
  ⟨((s.toInt + 2048) >>> (7 : Nat)).toNat, by
    have h1 := BitVec.toInt_lt (x := s)
    have h2 := BitVec.le_toInt (x := s)
    rw [Int.shiftRight_eq_div_pow]
    omega⟩

/-- The range of `aidx`: [0, 65535·33 + 31] (10_state.md R39). -/
abbrev ApmIndex := Fin (65535 * 33 + 32)

/-- The index of knot `k` of row `cx`: `k + cx * 33` (46_apm.md R188). -/
def cellIndex (k : Fin 32) (cx : BitVec 16) : ApmIndex :=
  ⟨k.val + cx.toNat * 33, by have := k.isLt; have := cx.isLt; omega⟩

/-- `aidx` after RESET: `((Stretch(2048) + 2048) >> 7) + 1*33` (40_commands.md R92). -/
def resetIndex (P : Params) : ApmIndex := cellIndex (knotOf (stretch P 2048)) 1

/-- The round-trip law of R115 with tolerance `tol`, a test gate only: for every `p`,
|Squash(Stretch(p)) - p| ≤ `tol`. No definition uses it. -/
def roundTripGate (P : Params) (tol : Nat) : Bool :=
  (List.range 4096).all fun p =>
    decide (((squash P (stretch P (BitVec.ofNat 12 p)).toInt).toNat - (p : Int)).natAbs ≤ tol)

end Sys2Proof.Machine
end

