-- ==== Sys2Proof/Machine/State.lean ====
section
/-! DEFINITION. The state of one core (spec 10_state.md R20..R49), as plain data. The five arrays are
lists of (index, element) pairs in one canonical form (`Memory.wf` in Machine/Ops.lean): indices
strictly rising, and no entry equal to what an unlisted index reads as, which is the value RESET gives
(log entry 2). `cmds` and `resp` are the command port (log entries 3 and 4). -/

namespace Sys2Proof.Machine

/-- The FAULT field of STATUS (R45). -/
inductive FaultCode where
  /-- 0: no fault. -/
  | none
  /-- 1: an illegal word (60_exceptions.md R204). -/
  | illegalCommand
  /-- 2: GET or UPDATE before the first RESET since power-up (60_exceptions.md R202). -/
  | notInitialised
  /-- 3: the bit would complete byte number 2^32 (60_exceptions.md R203). -/
  | posOverflow
  deriving DecidableEq, Repr

/-- The STATUS register (R45): INIT is bit 0, FAULT is bits 2:1. -/
structure Status where
  /-- INIT: a RESET has run since power-up. -/
  init : Bool
  /-- FAULT: the recorded cause. -/
  fault : FaultCode
  deriving DecidableEq, Repr

/-- The response to one command (30_encoding.md R76). -/
structure Response where
  /-- `RSTAT`: 0 OK with no data, 1 OK with data, 2 FAULTED. -/
  rstat : BitVec 2
  /-- `RDATA`. -/
  rdata : BitVec 16
  deriving DecidableEq, Repr

/-- One element of a 32-bit array at an index. -/
abbrev WordCell := Nat × W32

/-- The whole state of one core. -/
structure State where
  /-- The last computed P(next bit = 1) (R24). -/
  pr : BitVec 12
  /-- The partial byte, a leading 1 followed by the bits seen so far (R25). -/
  c0 : BitVec 8
  /-- The count of bits already folded into `c0` (R26). -/
  bpos : BitVec 3
  /-- The last four completed bytes, the most recent lowest (R27). -/
  c4 : W32
  /-- The count of completed bytes (R28). -/
  pos : W32
  /-- The rolling context hash (R29). -/
  hash : BitVec 23
  /-- The current match length in bytes (R30). -/
  matchLen : BitVec 8
  /-- The byte index of the match, unmasked (R31). -/
  matchPos : W32
  /-- The base slots of the seven contexts (R32). -/
  ctx : Vector (BitVec 28) 7
  /-- The current pointers of the seven contexts (R33). -/
  cp : Vector (BitVec 28) 7
  /-- `MIXER`: inputs and weights (R34). -/
  mixer : List WordCell
  /-- The selected mixer row (R35). -/
  ctxm : BitVec 12
  /-- The mixer input cursor, in [0, 8] (R36). -/
  mcur : Fin 9
  /-- The mixer's memoized output (R37). -/
  mpr : BitVec 12
  /-- `APM`: the SSE cells (R38). -/
  apm : List WordCell
  /-- The lower knot of the last queried SSE cell (R39). -/
  aidx : ApmIndex
  /-- The byte ring (R40). -/
  buffer : List Host.Cell
  /-- The bit-history store (R41). -/
  states : List Host.Cell
  /-- The match index (R42). -/
  hashes : List WordCell
  /-- STATUS (R45). -/
  status : Status
  /-- The model's own: the words the host has issued and the core has not taken, oldest first (R3,
  R59; log entry 3). -/
  cmds : List Word
  /-- The model's own: the response to the last command (R76; log entry 4). -/
  resp : Response
  deriving DecidableEq, Repr

/-! ## The writes of one register or array -/

/-- `pr <- v`. -/
def State.withPr (s : State) (v : BitVec 12) : State := { s with pr := v }

/-- `c0` and `bpos` written. -/
def State.withPartial (s : State) (c0 : BitVec 8) (bpos : BitVec 3) : State := { s with c0 := c0, bpos := bpos }

/-- `pos`, `c4` and `hash` written. -/
def State.withCounted (s : State) (pos c4 : W32) (hash : BitVec 23) : State := { s with pos := pos, c4 := c4, hash := hash }

/-- `matchLen` and `matchPos` written. -/
def State.withMatch (s : State) (len : BitVec 8) (pos : W32) : State := { s with matchLen := len, matchPos := pos }

/-- `ctx[0..6]` written. -/
def State.withCtx (s : State) (v : Vector (BitVec 28) 7) : State := { s with ctx := v }

/-- `cp[0..6]` written. -/
def State.withCp (s : State) (v : Vector (BitVec 28) 7) : State := { s with cp := v }

/-- `MIXER` and its cursor written. -/
def State.withMixer (s : State) (m : List WordCell) (cur : Fin 9) : State := { s with mixer := m, mcur := cur }

/-- `ctxm <- v`. -/
def State.withCtxm (s : State) (v : BitVec 12) : State := { s with ctxm := v }

/-- `mpr <- v`. -/
def State.withMpr (s : State) (v : BitVec 12) : State := { s with mpr := v }

/-- `APM` written. -/
def State.withApm (s : State) (m : List WordCell) : State := { s with apm := m }

/-- `aidx <- v`. -/
def State.withAidx (s : State) (v : ApmIndex) : State := { s with aidx := v }

/-- `buffer` written. -/
def State.withBuffer (s : State) (m : List Host.Cell) : State := { s with buffer := m }

/-- `states` written. -/
def State.withStates (s : State) (m : List Host.Cell) : State := { s with states := m }

/-- `hashes` written. -/
def State.withHashes (s : State) (m : List WordCell) : State := { s with hashes := m }

/-- STATUS written. -/
def State.withStatus (s : State) (v : Status) : State := { s with status := v }

/-- The waiting words replaced. -/
def State.withCmds (s : State) (l : List Word) : State := { s with cmds := l }

/-- The response given. -/
def State.withResp (s : State) (r : Response) : State := { s with resp := r }

/-- Why a step can stop with a fault of the MODEL. The core's own faults (R200) are no stop: they are
next states with STATUS.FAULT set. -/
inductive Fault where
  /-- Raised by `mixerAddInput` when the cursor is already 8: the assertion 93_implementation_defined.md
  I14 allows of a ninth Mixer_AddInput. The rules never add one (45_mixer.md R171), and no step of any
  state raises it. SAFE. -/
  | inputCursorOverrun
  deriving DecidableEq, Repr

/-- Why an instruction can have no meaning. No instruction of this model is refused. -/
inductive Refusal where
  /-- Raised by an arm of `exec` whose instruction has no meaning yet; no arm does. SAFE. -/
  | notModelled (mnemonic : String)
  deriving DecidableEq, Repr

/-- The outcome of a command or a step. -/
abbrev Result := Host.Outcome State Fault Refusal

/-- The state RESET constructs with the parameters `P`, beside the command port (40_commands.md R92;
70_reset_and_hazards.md R221). Nothing is listed in an array: an unlisted element reads as RESET's. -/
def State.constructed (P : Params) : State where
  pr := Config.prInit
  c0 := 1
  bpos := 0
  c4 := 0
  pos := 0
  hash := 0
  matchLen := 0
  matchPos := 0
  ctx := Vector.replicate 7 0
  cp := Vector.replicate 7 0
  mixer := []
  ctxm := 0
  mcur := 0
  mpr := 2048
  apm := []
  aidx := resetIndex P
  buffer := []
  states := []
  hashes := []
  status := { init := true, fault := .none }
  cmds := []
  resp := { rstat := 0, rdata := 0 }

/-- The machine right after a RESET command, no further word issued (R220, R221). -/
def State.reset : State := State.constructed Config.params

/-- Power-up (R49): STATUS is 0 and everything else is unspecified, so it is what an arbitrary state
`u` holds (log entry 5). The words the host will issue are part of `u` too. -/
def State.powerUp (u : State) : State := u.withStatus { init := false, fault := .none }

end Sys2Proof.Machine
end

