-- ==== Sys2Proof/Machine/Flags.lean ====
section
/-! DEFINITION. The status bits. The core has no condition flags (spec 10_state.md R23); its only
status bits are the fields of STATUS (R45), set by RESET and by `raise Fault` and by nothing else. -/

namespace Sys2Proof.Machine

/-- The FAULT code of R45 as a number. -/
def FaultCode.code : FaultCode → BitVec 2
  | .none => 0
  | .illegalCommand => 1
  | .notInitialised => 2
  | .posOverflow => 3

/-- STATUS as the 3-bit register of R45: FAULT in bits 2:1, INIT in bit 0. -/
def Status.bits (t : Status) : BitVec 3 := FaultCode.code t.fault ++ BitVec.ofBool t.init

/-- STATUS after `raise Fault(code)`: FAULT records the code, INIT is kept (R45, 00_scope.md R12). -/
def Status.withFault (t : Status) (code : FaultCode) : Status := { t with fault := code }

/-- The POS_OVERFLOW test of UPDATE: this bit completes a byte while `pos` = 2^32 - 1
(40_commands.md R93, 60_exceptions.md R203). -/
def posOverflows (s : State) : Bool := s.bpos == 7 && s.pos == 0xFFFFFFFF

end Sys2Proof.Machine
end

