-- ==== Sys2Proof/Machine/Operands.lean ====
section
/-! DEFINITION. Operand assembly (spec 30_encoding.md R73, R74, R75), the two extensions of a response
(R76), and the shifts and the rotation of 00_scope.md R10 that the hashing rules use. -/

namespace Sys2Proof.Machine

/-- `bit` = `ARG[0]` as a number, 0 or 1 (R73). -/
def bitOperand (b : Bit) : Nat := b.toNat

/-- `x` = sext_12(`ARG`), in [-2048, 2047] (R74). -/
def signedOperand (x : BitVec 12) : Int := x.toInt

/-- `p` = zext_12(`ARG`), in [0, 4095] (R75): the pattern itself, a u12. -/
def unsignedOperand (p : BitVec 12) : BitVec 12 := p

/-- `zext_16` of a response (R76). -/
def zext16 {n : Nat} (v : BitVec n) : BitVec 16 := v.setWidth 16

/-- `sext_16` of a response (R76). -/
def sext16 {n : Nat} (v : BitVec n) : BitVec 16 := v.signExtend 16

/-- The `SHR` of hashTPAQ and context 6: the shift `HASH_SHR` chooses (00_scope.md R10,
43_context_store.md R137). -/
def hashShift (P : Params) (v : W32) (k : Nat) : W32 :=
  match P.hashShr with
  | .arithmetic => v.sshiftRight k
  | .logical => v >>> k

/-- `rotl16(v)` = ((v << 16) | (v >>u 16)) mod 2^32 (00_scope.md R10). -/
def rotl16 (v : W32) : W32 := (v <<< 16) ||| (v >>> 16)

end Sys2Proof.Machine
end

