-- ==== Sys2Proof/Machine/Ops.lean ====
section
/-! DEFINITION. The named operations over the arrays, the command port, and taking a fault
(spec 20_memory.md, 30_encoding.md R76, 60_exceptions.md). The read and the write of one element of an
array are the only ways the rules reach it (00_scope.md R11, 20_memory.md R54). -/

namespace Sys2Proof.Machine

/-! ## One array: a sparse list of elements of `w` bits with a default for the unlisted indices -/

/-- The first entry at index `a`. -/
def lookupCell {w : Nat} : List (Nat × BitVec w) → Nat → Option (BitVec w)
  | [], _ => none
  | c :: m, a => if c.1 = a then some c.2 else lookupCell m a

/-- The element at index `a`: the listed one, else the default. -/
def readCell {w : Nat} (dflt : Nat → BitVec w) (m : List (Nat × BitVec w)) (a : Nat) : BitVec w :=
  (lookupCell m a).getD (dflt a)

/-- `m` without its entries at index `a`. -/
def eraseCell {w : Nat} (m : List (Nat × BitVec w)) (a : Nat) : List (Nat × BitVec w) :=
  m.filter fun c => c.1 != a

/-- `m` with an entry at index `a`, put before the first greater index. -/
def insertCell {w : Nat} : List (Nat × BitVec w) → Nat → BitVec w → List (Nat × BitVec w)
  | [], a, v => [(a, v)]
  | c :: m, a, v => if a < c.1 then (a, v) :: c :: m else c :: insertCell m a v

/-- `m` after a write of `v` to index `a`; writing the default unlists the index. -/
def writeCell {w : Nat} (dflt : Nat → BitVec w) (m : List (Nat × BitVec w)) (a : Nat)
    (v : BitVec w) : List (Nat × BitVec w) :=
  if v = dflt a then eraseCell m a else insertCell (eraseCell m a) a v

/-- Every index of `m` is above `a`, and the indices rise strictly. -/
def risingAbove {w : Nat} : Option Nat → List (Nat × BitVec w) → Bool
  | _, [] => true
  | lo, c :: m => (match lo with | none => true | some a => decide (a < c.1)) && risingAbove (some c.1) m

/-- The canonical form of one array of `size` elements: indices strictly rising and below `size`, and
no entry equal to the default of its index. -/
def canonical {w : Nat} (dflt : Nat → BitVec w) (size : Nat) (m : List (Nat × BitVec w)) : Bool :=
  risingAbove none m && m.all fun c => decide (c.1 < size) && decide (c.2 ≠ dflt c.1)

/-- What an unlisted element of `buffer`, `states`, `hashes` or `MIXER` reads as: its reset value 0. -/
def zeroCell {w : Nat} (_ : Nat) : BitVec w := 0

/-! ## The five arrays (20_memory.md R53) -/

/-- `BMASK = B - 1` on a u32 value (00_scope.md R6). -/
def ringMask (P : Params) : W32 := BitVec.ofNat 32 (P.ringSize - 1)

/-- `BMASK` on a u28 value. -/
def slotMask (P : Params) : BitVec 28 := BitVec.ofNat 28 (P.ringSize - 1)

/-- The ring index of a u32 byte count: `v & BMASK` (R55, R56). -/
def ringIndex (P : Params) (v : W32) : Nat := (v &&& ringMask P).toNat

/-- The store index of a slot pointer: `v & BMASK` (R55). -/
def slotIndex (P : Params) (v : BitVec 28) : Nat := (v &&& slotMask P).toNat

/-- `buffer[v & BMASK]`. -/
def bufferRead (P : Params) (s : State) (v : W32) : Byte :=
  readCell zeroCell s.buffer (ringIndex P v)

/-- `buffer[v & BMASK] <- x`. -/
def bufferWrite (P : Params) (s : State) (v : W32) (x : Byte) : State :=
  s.withBuffer (writeCell zeroCell s.buffer (ringIndex P v) x)

/-- `states[v]` for a slot pointer `v`. -/
def statesRead (P : Params) (s : State) (v : BitVec 28) : Byte :=
  readCell zeroCell s.states (slotIndex P v)

/-- `states[v] <- x` for a slot pointer `v`. -/
def statesWrite (P : Params) (s : State) (v : BitVec 28) (x : Byte) : State :=
  s.withStates (writeCell zeroCell s.states (slotIndex P v) x)

/-- `hashes[h]`. -/
def hashesRead (s : State) (h : BitVec 23) : W32 := readCell zeroCell s.hashes h.toNat

/-- `hashes[h] <- v`. -/
def hashesWrite (s : State) (h : BitVec 23) (v : W32) : State :=
  s.withHashes (writeCell zeroCell s.hashes h.toNat v)

/-- The index in `MIXER` of the stored input `X[c][k]` (10_state.md R34). -/
def inputIndex (c : BitVec 12) (k : Nat) : Nat := 16 * c.toNat + k

/-- The index in `MIXER` of the weight `W[c][k]` (10_state.md R34). -/
def weightIndex (c : BitVec 12) (k : Nat) : Nat := 16 * c.toNat + 8 + k

/-- `MIXER[a]` of the array `m`. -/
def mixerRead (m : List WordCell) (a : Nat) : W32 := readCell zeroCell m a

/-- `MIXER[a] <- v` in the array `m`. -/
def mixerWrite (m : List WordCell) (a : Nat) (v : W32) : List WordCell := writeCell zeroCell m a v

/-- The stored input `X[c][k]`. -/
def mixerInput (s : State) (c : BitVec 12) (k : Nat) : W32 := mixerRead s.mixer (inputIndex c k)

/-- The weight `W[c][k]`. -/
def mixerWeight (s : State) (c : BitVec 12) (k : Nat) : W32 := mixerRead s.mixer (weightIndex c k)

/-- `APM[a]`, an unlisted element reading as the template. -/
def apmRead (P : Params) (s : State) (a : Nat) : W32 := readCell (apmTemplate P) s.apm a

/-- `APM[a] <- v`. -/
def apmWrite (P : Params) (s : State) (a : Nat) (v : W32) : State :=
  s.withApm (writeCell (apmTemplate P) s.apm a v)

/-- All five arrays have their canonical form. -/
def Memory.wf (P : Params) (s : State) : Bool :=
  canonical zeroCell P.ringSize s.buffer
    && canonical zeroCell P.ringSize s.states
    && canonical zeroCell Config.hashEntries s.hashes
    && canonical zeroCell Config.mixerSize s.mixer
    && canonical (apmTemplate P) Config.apmSize s.apm

/-! ## The command port -/

/-- The word the core takes next and the state that has taken it, if the host has issued one (R70:
one word per step, consumed whole). -/
def takeCommand (s : State) : Option (Word × State) :=
  match s.cmds with
  | [] => none
  | w :: rest => some (w, s.withCmds rest)

/-- `s` with the word `w` issued so that the next step takes it. -/
def issueWord (w : Word) (s : State) : State := s.withCmds (w :: s.cmds)

/-- The response OK with no data (R76). -/
def respondOk (s : State) : State := s.withResp { rstat := 0, rdata := 0 }

/-- The response OK with data (R76). -/
def respondData (s : State) (d : BitVec 16) : State := s.withResp { rstat := 1, rdata := d }

/-- The FAULTED response: `RSTAT` 2 and the recorded code (R76, 60_exceptions.md R201). -/
def respondFaulted (s : State) : State :=
  s.withResp { rstat := 2, rdata := zext16 (FaultCode.code s.status.fault) }

/-! ## Taking a fault, and the way out of it -/

/-- `raise Fault(code)`: the one way a fault is taken (00_scope.md R12, 60_exceptions.md R200, R207).
STATUS.FAULT records the code, the response is FAULTED, nothing else is written. -/
def raiseFault (code : FaultCode) (s : State) : State :=
  respondFaulted (s.withStatus (Status.withFault s.status code))

/-- The way out (60_exceptions.md R208; 40_commands.md R92): the whole state is constructed anew; the
words the host has still to be answered for stay its own. -/
def resetCore (P : Params) (s : State) : State :=
  respondOk ((State.constructed P).withCmds s.cmds)

/-- The first test of R90: a faulted core refuses the command, with no state change (R201). -/
def unlessFaulted (s : State) (k : Result) : Result :=
  if s.status.fault = .none then k else .next (respondFaulted s)

/-- The third test of R90: GET and UPDATE need a RESET since power-up (R202). -/
def ifInitialised (s : State) (k : Result) : Result :=
  if s.status.init then k else .next (raiseFault .notInitialised s)

/-- An illegal word (R90, R204): refused by a faulted core, else ILLEGAL_COMMAND. -/
def illegalCommand (s : State) : Result :=
  unlessFaulted s (.next (raiseFault .illegalCommand s))

end Sys2Proof.Machine
end

