-- ==== Sys2Proof/Machine/Apm.lean ====
section
/-! DEFINITION. adaptive_probability_map_sse (spec 46_apm.md). The rules compute on integers and reduce
when a cell is written (00_scope.md R9), and so do these definitions. -/

namespace Sys2Proof.Machine

/-- `g = (b << 16) + (b << 7) - (b << 1)`: 65662 for 1, 0 for 0 (R187). -/
def apmTarget (b : Bit) : Int :=
  ((b.toNat <<< 16 + b.toNat <<< Config.apmRate : Nat) : Int) - (b.toNat <<< 1 : Nat)

/-- A cell after its update toward `g`: `d + ((g - d) >>a 7)` (R187). -/
def adaptedCell (g : Int) (d : W32) : W32 :=
  BitVec.ofInt 32 (d.toInt + (g - d.toInt) >>> Config.apmRate)

/-- APM_Get, part 1: update the two knots of the previously queried cell, the lower one first (R187). -/
def apmUpdate (P : Params) (b : Bit) (s : State) : State :=
  let g := apmTarget b
  let s := apmWrite P s s.aidx.val (adaptedCell g (apmRead P s s.aidx.val))
  apmWrite P s (s.aidx.val + 1) (adaptedCell g (apmRead P s (s.aidx.val + 1)))

/-- The position of `s` between its two knots: `s & 127` (R188). -/
def knotWeight (s : BitVec 12) : Nat := (s &&& 127).toNat

/-- The interpolation `(lo * (128 - w) + hi * w) >>a 11` (R189). -/
def interpolate (lo hi : W32) (w : Nat) : Int :=
  (lo.toInt * (128 - (w : Int)) + hi.toInt * (w : Int)) >>> (11 : Nat)

/-- The SSE context `c0 | (c4 & 0xFF00)` (R190). -/
def apmContext (c0 : BitVec 8) (c4 : W32) : BitVec 16 :=
  (c0.setWidth 32 ||| (c4 &&& 0xFF00)).setWidth 16

/-- APM_Get, part 2: select the cell that brackets the stretched `p` in row `cx` (R188). -/
def apmSelect (P : Params) (p : BitVec 12) (cx : BitVec 16) (s : State) : State :=
  s.withAidx (cellIndex (knotOf (stretch P p)) cx)

/-- APM_Get, part 3: what the selected cell gives for `p` (R189). -/
def apmResult (P : Params) (p : BitVec 12) (s : State) : Int :=
  interpolate (apmRead P s s.aidx.val) (apmRead P s (s.aidx.val + 1)) (knotWeight (stretch P p))

end Sys2Proof.Machine
end

