-- ==== Sys2Proof/Machine/BitHistory.lean ====
section
/-! DEFINITION. bit_history_state_machine (spec 42_bit_history.md): the state table and the state map,
read-only functions of the parameters (R132). -/

namespace Sys2Proof.Machine

/-- `Next(s, b)` = `STATE_TABLE[s][b]` (R125); the padding rows 253..255 hold 0 (R127). -/
def nextState (P : Params) (s : Byte) (b : Bit) : Byte :=
  if h : s.toNat < 253 then P.stateTable ⟨s.toNat, h⟩ b else 0

/-- `SMap(i, s)` = `STATE_MAP[i][s]` (R129). -/
def stateMap (P : Params) (i : Fin 7) (s : Byte) : W32 := P.stateMap i s

end Sys2Proof.Machine
end

