-- ==== Sys2Proof/Machine/Mixer.lean ====
section
/-! DEFINITION. neural_mixer_8input_4096ctx (spec 45_mixer.md). Every input, weight, product and sum is
an i32 that wraps (R174), so the arithmetic is that of `BitVec 32`. -/

namespace Sys2Proof.Machine

/-- Mixer_SetContext: `ctxm <- c & (M - 1)` (R170). -/
def mixerSetContext (c : W32) (s : State) : State :=
  s.withCtxm ((c &&& BitVec.ofNat 32 (Config.mixerRows - 1)).setWidth 12)

/-- Mixer_AddInput: `X[ctxm][mcur] <- x; mcur <- mcur + 1` (R171). With the cursor already 8 there is no
ninth slot: no answer, which the caller turns into the named fault (log entry 6). -/
def mixerAddInput (x : W32) (s : State) : Option State :=
  if h : s.mcur.val < 8 then
    some (s.withMixer (mixerWrite s.mixer (inputIndex s.ctxm s.mcur.val) x)
      ⟨s.mcur.val + 1, by omega⟩)
  else none

/-- `err * 7` of R172, as an i32: `err = (b << 12) - mpr`. -/
def scaledError (b : Bit) (mpr : BitVec 12) : W32 :=
  ((b.setWidth 32 <<< 12) - mpr.setWidth 32) * Config.mixErrScale

/-- A weight after training: `wrap32(w + (wrap32(x * e) >>a 16))` (R172). -/
def trainedWeight (w x e : W32) : W32 := w + (x * e).sshiftRight Config.mixWeightShift

/-- The training of weight `k` of row `c` in the array `m` (R172). -/
def trainSlot (c : BitVec 12) (e : W32) (m : List WordCell) (k : Nat) : List WordCell :=
  mixerWrite m (weightIndex c k)
    (trainedWeight (mixerRead m (weightIndex c k)) (mixerRead m (inputIndex c k)) e)

/-- The array after the training loop of Mixer_Update, `k` = 0 to 7 (R172). -/
def trainRow (c : BitVec 12) (e : W32) (m : List WordCell) : List WordCell :=
  (List.range Config.mixerInputs).foldl (trainSlot c e) m

/-- Mixer_Update: train row `ctxm` on bit `b` unless the error is 0, and reset the cursor (R172). -/
def mixerUpdate (b : Bit) (s : State) : State :=
  s.withMixer
    (if (b.setWidth 32 <<< 12) - s.mpr.setWidth 32 = (0 : W32) then s.mixer
      else trainRow s.ctxm (scaledError b s.mpr) s.mixer)
    0

/-- The array after the padding loop of Mixer_Get: `X[c][k] <- PAD` for `k` = `from` to 7 (R173). -/
def padRow (c : BitVec 12) (first : Nat) (m : List WordCell) : List WordCell :=
  (List.range' first (Config.mixerInputs - first)).foldl
    (fun m k => mixerWrite m (inputIndex c k) Config.pad) m

/-- The dot product of the inputs and weights of row `c` of the array `m` (R173). -/
def dotRow (c : BitVec 12) (m : List WordCell) : W32 :=
  (List.range Config.mixerInputs).foldl
    (fun dot k => dot + mixerRead m (inputIndex c k) * mixerRead m (weightIndex c k)) 0

/-- The mixer's output for a dot product: `Squash(dot >>a 15)`, saturating (R173). -/
def mixerOutput (P : Params) (dot : W32) : BitVec 12 :=
  squash P (dot.sshiftRight Config.mixDotShift).toInt

/-- Mixer_Get: pad the row, set the cursor to 8, and memoize the squashed dot product in `mpr`, which
is also what it returns (R173). -/
def mixerGet (P : Params) (s : State) : State :=
  let m := padRow s.ctxm s.mcur.val s.mixer
  (s.withMixer m 8).withMpr (mixerOutput P (dotRow s.ctxm m))

end Sys2Proof.Machine
end

