-- ==== Sys2Proof/Machine/MatchFinder.lean ====
section
/-! DEFINITION. match_finder_with_rolling_hash (spec 44_match_finder.md). -/

namespace Sys2Proof.Machine

/-- The backward scan of Match_Search from `r`, for at most `fuel` more bytes: the first `r` at which
the bytes before `pos` and before `cand` differ, or the one after the last allowed (R156). -/
def scanMatch (P : Params) (s : State) (cand : W32) : Nat → Nat → Nat
  | 0, r => r
  | fuel + 1, r =>
    if bufferRead P s (s.pos - BitVec.ofNat 32 r) = bufferRead P s (cand - BitVec.ofNat 32 r) then
      scanMatch P s cand fuel (r + 1)
    else r

/-- The length Match_Search measures for the candidate `cand`: `r - 1` after the scan from `r` = 1,
at most MAX_MATCH (R156). -/
def measuredLength (P : Params) (s : State) (cand : W32) : Nat :=
  scanMatch P s cand Config.maxMatch 1 - 1

/-- Match_Search starts a match only from a published position that the ring still holds: `cand` is not
the sentinel 0, and `u32(pos - cand)` ≤ B - 1 (R156). -/
def candidateUsable (P : Params) (s : State) (cand : W32) : Bool :=
  cand != 0 && decide ((s.pos - cand).toNat ≤ P.ringSize - 1)

/-- Match_Search: look up and measure a new match (R156). -/
def matchSearch (P : Params) (s : State) : State :=
  let cand := hashesRead s s.hash
  s.withMatch
    (if candidateUsable P s cand then BitVec.ofNat 8 (measuredLength P s cand) else s.matchLen)
    cand

/-- Match_Boundary: continue the current match or start a search (R155). -/
def matchBoundary (P : Params) (s : State) : State :=
  if s.matchLen.toNat > 0 then
    s.withMatch (BitVec.ofNat 8 (min (s.matchLen.toNat + 1) Config.maxMatch)) (s.matchPos + 1)
  else matchSearch P s

/-- MatchStrength: `n` below 32, then a quarter of the excess (R159). -/
def matchStrength (n : Nat) : Nat := if n < 32 then n else 32 + (n - 32) >>> 2

/-- The predicted byte `buffer[matchPos & BMASK]` (R157). -/
def predictedByte (P : Params) (s : State) : Byte := bufferRead P s s.matchPos

/-- The bits so far are a prefix of `e`: `((e | 0x100) >> (8 - bpos)) == c0` (R157). -/
def prefixHolds (e : Byte) (bpos : BitVec 3) (c0 : BitVec 8) : Bool :=
  (e.setWidth 9 ||| 0x100#9) >>> (8 - bpos.toNat) == c0.setWidth 9

/-- The predicted next bit: `(e >> (7 - bpos)) & 1` (R157). -/
def predictedBit (e : Byte) (bpos : BitVec 3) : Bool := e.getLsbD (7 - bpos.toNat)

/-- The match input: the strength, negative for a predicted 0, shifted left by 6 (R157). -/
def matchInput (len : BitVec 8) (pb : Bool) : W32 :=
  let v : Int := matchStrength len.toNat
  BitVec.ofInt 32 ((if pb then v else -v) * 2 ^ 6)

/-- Match_Bit: feed the mixer while the match agrees with the bits of the current byte, else drop the
match (R157). -/
def matchBit (P : Params) (s : State) : Option State :=
  if s.matchLen.toNat > 0 then
    if prefixHolds (predictedByte P s) s.bpos s.c0 then
      mixerAddInput (matchInput s.matchLen (predictedBit (predictedByte P s) s.bpos)) s
    else some (s.withMatch 0 s.matchPos)
  else some s

end Sys2Proof.Machine
end

