-- ==== Sys2Proof/Machine/ContextStore.lean ====
section
/-! DEFINITION. context_hash_and_state_store (spec 43_context_store.md): the byte commit, the rolling
hash, the seven context hashes and the per-bit step of a bit-history slot. -/

namespace Sys2Proof.Machine

/-- RollHash: `(((h * 43707) << 4) + c4) & HMASK` (R136). -/
def rollHash (h : BitVec 23) (c4 : W32) : BitVec 23 :=
  ((h.setWidth 32 * Config.hashMul) <<< Config.hashShl + c4).setWidth 23

/-- hashTPAQ: the two-argument context hash (R137). -/
def hashTPAQ (P : Params) (x y : W32) : W32 :=
  let h := (x * P.hash1) ^^^ (y * P.hash2)
  hashShift P h 1 ^^^ hashShift P h 9 ^^^ hashShift P x 2 ^^^ hashShift P y 3 ^^^ P.hash3

/-- The unmasked result of addContext for slot `i` and value `cx` (R138). -/
def whiten (i : Nat) (cx : W32) : W32 :=
  rotl16 (cx * Config.acMul1 + BitVec.ofNat 32 i) * Config.acMul2 + BitVec.ofNat 32 i

/-- What addContext stores in `ctx[i]` for slot `i` and value `cx`: the whitened value masked with BMASK
(R138). -/
def contextBase (P : Params) (i : Nat) (cx : W32) : BitVec 28 :=
  (whiten i cx &&& ringMask P).setWidth 28

/-- BinShift: `CTX6_BIN_SHIFT` if any byte of `c4` has its top bit set, else 0 (R140). -/
def binShift (P : Params) (c4 : W32) : Nat :=
  if c4 &&& 0x80808080 = 0 then 0 else P.binShift.amount

/-- The three older bytes of context 6, packed with the most recent lowest (R139; 20_memory.md R52). -/
def packedBytes (P : Params) (s : State) : W32 :=
  (bufferRead P s (s.pos - 6)).setWidth 32
    ||| ((bufferRead P s (s.pos - 7)).setWidth 32 <<< 8)
    ||| ((bufferRead P s (s.pos - 8)).setWidth 32 <<< 16)

/-- The value each context hashes at a byte boundary, by slot (R139). -/
def contextValue (P : Params) (s : State) (i : Fin 7) : W32 :=
  match i with
  | 0 => s.c4 ^^^ (s.c4 &&& 0xFFFF)
  | 1 => hashTPAQ P P.c1 (s.c4 <<< 24)
  | 2 => hashTPAQ P P.c2 (s.c4 <<< 16)
  | 3 => hashTPAQ P P.c3 (s.c4 <<< 8)
  | 4 => hashTPAQ P P.c4 s.c4
  | 5 => hashTPAQ P P.c5 (s.hash.setWidth 32)
  | 6 => hashTPAQ P (hashShift P s.c4 (binShift P s.c4)) (packedBytes P s)

/-- Contexts_Rebuild: addContext for each of the slots 0 to 6 (R139). No context value reads `ctx`, so
the order of the seven stores does not matter. -/
def contextsRebuild (P : Params) (s : State) : State :=
  s.withCtx (Vector.ofFn fun i => contextBase P i.val (contextValue P s i))

/-- The registers a byte commit sets before it rebuilds the contexts: `pos`, `c4`, `hash`, `c0`,
`bpos` (R135). -/
def countByte (byte : Byte) (s : State) : State :=
  let c4' := (s.c4 <<< 8) ||| byte.setWidth 32
  (s.withCounted (s.pos + 1) c4' (rollHash s.hash c4')).withPartial 1 0

/-- ByteCommit of the completed byte, in the order of R135: the ring, the registers, the contexts, the
mixer row, the match, and last the publication of `pos` in `hashes`. -/
def byteCommit (P : Params) (byte : Byte) (s : State) : State :=
  let s := bufferWrite P s s.pos byte
  let s := countByte byte s
  let s := contextsRebuild P s
  let s := mixerSetContext s.c4 s
  let s := matchBoundary P s
  hashesWrite s s.hash s.pos

/-- The pointer of a slot: `(ctx[i] + c0) & BMASK` (R141). -/
def slotPointer (P : Params) (base : BitVec 28) (c0 : BitVec 8) : BitVec 28 :=
  (base + c0.setWidth 28) &&& slotMask P

/-- Slot_Step: advance the state at the old pointer, move the pointer, and feed the state found there
to the mixer (R141). -/
def slotStep (P : Params) (b : Bit) (i : Fin 7) (s : State) : Option State :=
  let s := statesWrite P s s.cp[i] (nextState P (statesRead P s s.cp[i]) b)
  let s := s.withCp (s.cp.set i.val (slotPointer P s.ctx[i] s.c0) i.isLt)
  mixerAddInput (stateMap P i (statesRead P s s.cp[i])) s

/-- Slot_Step for each slot of a list, each call complete before the next (R142). -/
def slotSteps (P : Params) (b : Bit) : List (Fin 7) → State → Option State
  | [], s => some s
  | i :: rest, s => (slotStep P b i s).bind (slotSteps P b rest)

/-- The order of the slot loop: i = 6 down to 0 (R142). -/
def slotOrder : List (Fin 7) := [6, 5, 4, 3, 2, 1, 0]

end Sys2Proof.Machine
end

