-- ==== Sys2Proof/Machine/Commands.lean ====
section
/-! DEFINITION. The five commands (spec 40_commands.md), each over the parameters `P` of the run, with
the checks of R90 that apply to it. `execGet` … `execReset` are those meanings at the machine's own
parameters. -/

namespace Sys2Proof.Machine

/-- GET: return the current prediction (R91). -/
def getCommand (s : State) : Result :=
  unlessFaulted s <| ifInitialised s <| .next (respondData s (zext16 s.pr))

/-- RESET: legal in every state, the faulted one too (R92). -/
def resetCommand (P : Params) (s : State) : Result := .next (resetCore P s)

/-- SQUASH: read the squash LUT (R96). -/
def squashCommand (P : Params) (x : BitVec 12) (s : State) : Result :=
  unlessFaulted s <| .next (respondData s (zext16 (squash P (signedOperand x))))

/-- STRETCH: read the stretch LUT (R97). -/
def stretchCommand (P : Params) (p : BitVec 12) (s : State) : Result :=
  unlessFaulted s <| .next (respondData s (sext16 (stretch P (unsignedOperand p))))

/-- UPDATE step 2: the 9-bit partial byte `(c0 << 1) | b` (R93, 10_state.md R25). -/
def foldedByte (b : Bit) (s : State) : BitVec 9 := s.c0 ++ b

/-- UPDATE steps 2 and 3: fold the bit in; a partial byte above 255 is committed, which also sets `c0`
and `bpos` back (R93). -/
def foldBit (P : Params) (b : Bit) (s : State) : State :=
  if (foldedByte b s).toNat > 255 then byteCommit P ((foldedByte b s).setWidth 8) s
  else s.withPartial ((foldedByte b s).setWidth 8) (s.bpos + 1)

/-- `Clamp(p) = wrap32(p - ((p - 2048) >>a 31))` (R95). -/
def clamp (p : Int) : Int := (BitVec.ofInt 32 (p - (p - 2048) >>> (31 : Nat))).toInt

/-- UPDATE steps 6, 7 and 8: mix, refine by SSE with the observed bit, clamp (R93). -/
def predict (P : Params) (b : Bit) (s : State) : State :=
  let s := mixerGet P s
  let s := apmUpdate P b s
  let s := apmSelect P s.mpr (apmContext s.c0 s.c4) s
  s.withPr (BitVec.ofInt 12 (clamp (apmResult P s.mpr s)))

/-- The steps of UPDATE that feed the mixer, 4 and 5: the seven slots, then the match (R93). -/
def feedMixer (P : Params) (b : Bit) (s : State) : Option State :=
  (slotSteps P b slotOrder s).bind (matchBit P)

/-- The eight steps of UPDATE, in their order (R93, 70_reset_and_hazards.md R227). -/
def updateSteps (P : Params) (b : Bit) (s : State) : Option State :=
  (feedMixer P b (foldBit P b (mixerUpdate b s))).map (predict P b)

/-- UPDATE: consume one bit and compute the prediction for the next one (R93). -/
def updateCommand (P : Params) (b : Bit) (s : State) : Result :=
  unlessFaulted s <| ifInitialised s <|
    if posOverflows s then .next (raiseFault .posOverflow s)
    else match updateSteps P b s with
      | some t => .next (respondOk t)
      | none => .fault .inputCursorOverrun

/-! ## The meanings `exec` calls -/

/-- GET (R91). -/
def execGet (s : State) : Result := getCommand s

/-- UPDATE (R93). -/
def execUpdate (bit : Bit) (s : State) : Result := updateCommand Config.params bit s

/-- SQUASH (R96). -/
def execSquash (x : BitVec 12) (s : State) : Result := squashCommand Config.params x s

/-- STRETCH (R97). -/
def execStretch (p : BitVec 12) (s : State) : Result := stretchCommand Config.params p s

/-- RESET (R92). -/
def execReset (s : State) : Result := resetCommand Config.params s

end Sys2Proof.Machine
end

