-- ==== Sys2Proof/Machine/Dispatch.lean ====
section
/-! DEFINITION. The dispatch of a decoded command to its meaning, one arm per row of
spec/opcode_table.json. -/

namespace Sys2Proof.Machine

def exec (i : Instr) (s : State) : Host.Outcome State Fault Refusal :=
  match i with
  | .get => Sys2Proof.Machine.execGet s
  | .update bit => Sys2Proof.Machine.execUpdate bit s
  | .squash x => Sys2Proof.Machine.execSquash x s
  | .stretch p => Sys2Proof.Machine.execStretch p s
  | .reset => Sys2Proof.Machine.execReset s

end Sys2Proof.Machine
end

