-- ==== Sys2Proof/Machine/Step.lean ====
section
/-! DEFINITION. One step: the core takes the oldest word the host has issued, decodes it and runs it
(spec 40_commands.md R90, 00_scope.md R14). With no word waiting it holds its state (60_exceptions.md
R217; log entry 3). -/

namespace Sys2Proof.Machine

/-- One step of the core. -/
def step (s : State) : Host.Outcome State Fault Refusal :=
  match takeCommand s with
  | none => .next s
  | some (w, t) =>
    match decode w with
    | .ok i => exec i t
    | .error _ => illegalCommand t

/-- `s` with the instruction whose bits are `w` issued as the next command. -/
def State.withFetchWord (s : State) (nbits w : Nat) : State := issueWord (tableWord nbits w) s

end Sys2Proof.Machine
end

