-- ==== Sys2Proof/Machine/Assembler.lean ====
section
/-! DEFINITION. The assembler of the command interface (spec 30_encoding.md R81, R82, R83): a line of
text to a line of assembly, and a line of assembly to command words. An operand out of range is an
assembly error (no answer), never a truncation. -/

namespace Sys2Proof.Machine

/-- The bits of a byte, most significant first, each as the UPDATE that carries it (R82; 20_memory.md
R50). -/
def byteUpdates (v : Byte) : List Instr :=
  [7, 6, 5, 4, 3, 2, 1, 0].map fun k => .update (v.extractLsb' k 1)

/-- The commands of one line, or no answer where an operand is out of range (R81, R82, R83). -/
def assembleLine (l : AsmLine) : Option (List Instr) :=
  if l.wf then
    some <| match l with
      | .blank => []
      | .get => [.get]
      | .reset => [.reset]
      | .update bit => [.update (BitVec.ofInt 1 bit)]
      | .squash x => [.squash (BitVec.ofInt 12 x)]
      | .stretch p => [.stretch (BitVec.ofInt 12 p)]
      | .byte v => byteUpdates (BitVec.ofInt 8 v)
      | .bytes text => text.flatMap fun c => byteUpdates (BitVec.ofNat 8 c.toNat)
  else none

/-- The command words of a program: a straight line of commands. One line in error leaves no
program. -/
def assembleProgram : List AsmLine → Option (List Word)
  | [] => some []
  | l :: rest =>
    (assembleLine l).bind fun is => (assembleProgram rest).map fun ws => is.map encode ++ ws

/-! ## The text of a line (R81) -/

/-- Nothing but spaces, then the end of the line or a comment. -/
def lineEnds (cs : List Char) : Bool :=
  match cs.dropWhile (· = ' ') with
  | [] => true
  | c :: _ => c == ';'

/-- The value of a digit in a base, if the character is one. -/
def digitValue (base : Nat) (c : Char) : Option Nat :=
  let n := c.toNat
  let d :=
    if 48 ≤ n ∧ n ≤ 57 then n - 48
    else if 65 ≤ n ∧ n ≤ 70 then n - 55
    else if 97 ≤ n ∧ n ≤ 102 then n - 87
    else base
  if d < base then some d else none

/-- The digits at the head of a text, read in a base after `acc`, and what follows them. -/
def readDigits (base : Nat) : Nat → List Char → Nat × List Char
  | acc, [] => (acc, [])
  | acc, c :: cs =>
    match digitValue base c with
    | some d => readDigits base (acc * base + d) cs
    | none => (acc, c :: cs)

/-- A number with at least one digit in a base, and what follows it. -/
def readNumber (base : Nat) (cs : List Char) : Option (Nat × List Char) :=
  match cs with
  | [] => none
  | c :: _ => (digitValue base c).map fun _ => readDigits base 0 cs

/-- One decimal or `0x` operand, with a minus sign or not, which ends the line. -/
def readOperand (cs : List Char) : Option Int :=
  let signed : Int × List Char := match cs with
    | '-' :: rest => (-1, rest)
    | _ => (1, cs)
  let number := match signed.2 with
    | '0' :: 'x' :: rest => readNumber 16 rest
    | rest => readNumber 10 rest
  number.bind fun r => if lineEnds r.2 then some (signed.1 * (r.1 : Int)) else none

/-- The text between double quotes, which ends the line (R83). R83 gives the quoted text no escape and
does not say how a quote or a semicolon inside it reads. DESIGN CHOICE, log entry 13: the text ends at
the first double quote after the opening one, so it cannot hold one; a semicolon before that quote is a
character of the text and opens no comment; a text with no character is accepted. -/
def readText : List Char → Option (List Char)
  | '"' :: rest =>
    let body := rest.takeWhile (· ≠ '"')
    match rest.drop body.length with
    | _ :: after => if lineEnds after then some body else none
    | [] => none
  | _ => none

/-- A line of text: its mnemonic, then a space and one operand where the command has one; a comment
may end it (R81, R82, R83). The spaces and digits accepted beyond the rules' own words are a DESIGN
CHOICE, log entry 13. -/
def parseLine (cs : List Char) : Option AsmLine :=
  if lineEnds cs then some .blank else
  match cs with
  | 'G' :: 'E' :: 'T' :: rest => if lineEnds rest then some .get else none
  | 'R' :: 'E' :: 'S' :: 'E' :: 'T' :: rest => if lineEnds rest then some .reset else none
  | 'U' :: 'P' :: 'D' :: 'A' :: 'T' :: 'E' :: ' ' :: rest => (readOperand rest).map .update
  | 'S' :: 'Q' :: 'U' :: 'A' :: 'S' :: 'H' :: ' ' :: rest => (readOperand rest).map .squash
  | 'S' :: 'T' :: 'R' :: 'E' :: 'T' :: 'C' :: 'H' :: ' ' :: rest => (readOperand rest).map .stretch
  | 'B' :: 'Y' :: 'T' :: 'E' :: ' ' :: rest => (readOperand rest).map .byte
  | 'B' :: 'Y' :: 'T' :: 'E' :: 'S' :: ' ' :: rest => (readText rest).map .bytes
  | _ => none

end Sys2Proof.Machine
end

