-- ==== Sys2Proof/Machine/Params.lean ====
section
/-! DEFINITION. Loading the parameters of a run from an instance written down as numbers: an instance
that breaks a constraint of spec 41_squash_stretch.md R114, 42_bit_history.md R127 or the second table
of 00_scope.md R6 is refused by name, and no run has it (log entry 7). -/

namespace Sys2Proof.Machine

/-- Why an instance of the parameters is refused. -/
inductive ParamRefusal where
  /-- A table has another shape than R6 gives it, a u8 or i32 entry is out of its type's range, there
  are not five and three salts, or a switch has a value R6 does not list. -/
  | shape
  /-- A `SQUASH_TABLE` entry lies outside [0, 4095] (R114 (a)). -/
  | squashRange
  /-- A `STRETCH_TABLE` entry lies outside [-2048, 2047] (R114 (b)). -/
  | stretchRange
  /-- A row 253..255 of `STATE_TABLE` is not 0 (R127). -/
  | statePadding
  deriving DecidableEq, Repr

/-- Every entry of a list lies in [lo, hi]. -/
def allWithin (lo hi : Int) (l : List Int) : Bool :=
  l.all fun v => decide (lo ≤ v) && decide (v ≤ hi)

/-- The shape of R6: 4095 and 4096 LUT entries, 256 pairs of u8, `STATE_MAP_ROWS` ≥ 8 rows of 256
i32, five and three salts, and the switches at a value R6 lists. -/
def tablesShaped (q : ParamInstance) : Bool :=
  q.squashTable.length == 4095 && q.stretchTable.length == 4096
    && q.stateTable.length == 256
    && q.stateTable.all (fun r => decide (r.1 < 256) && decide (r.2 < 256))
    && decide (8 ≤ q.stateMapRows) && q.stateMap.length == q.stateMapRows
    && q.stateMap.all (fun r => r.length == 256 && allWithin (-2147483648) 2147483647 r)
    && q.salts.length == 5 && q.hashSalts.length == 3
    && (q.ctx6BinShift == 4 || q.ctx6BinShift == 16) && (q.bufBits == 25 || q.bufBits == 28)

/-- The padding rows 253..255 are 0 (R127). -/
def paddingZero (q : ParamInstance) : Bool :=
  (q.stateTable.drop 253).all fun r => r == (0, 0)

/-- The run's parameters from an instance that has passed the checks. -/
def paramsOf (q : ParamInstance) : Params where
  squashTable n := BitVec.ofInt 12 (q.squashTable.getD n.val 0)
  stretchTable p := BitVec.ofInt 12 (q.stretchTable.getD p.toNat 0)
  stateTable s b :=
    let row := q.stateTable.getD s.val (0, 0)
    BitVec.ofNat 8 (if b = 0 then row.1 else row.2)
  stateMap i s := BitVec.ofInt 32 ((q.stateMap.getD i.val []).getD s.toNat 0)
  c1 := q.salts.getD 0 0
  c2 := q.salts.getD 1 0
  c3 := q.salts.getD 2 0
  c4 := q.salts.getD 3 0
  c5 := q.salts.getD 4 0
  hash1 := q.hashSalts.getD 0 0
  hash2 := q.hashSalts.getD 1 0
  hash3 := q.hashSalts.getD 2 0
  binShift := if q.ctx6BinShift = 4 then .four else .sixteen
  hashShr := q.hashShr
  bufBits := if q.bufBits = 25 then .b25 else .b28

/-- The parameters of a run, or why the instance is refused (R114, R127). -/
def loadParams (q : ParamInstance) : Except ParamRefusal Params :=
  if tablesShaped q = false then .error .shape
  else if allWithin 0 4095 q.squashTable = false then .error .squashRange
  else if allWithin (-2048) 2047 q.stretchTable = false then .error .stretchRange
  else if paddingZero q = false then .error .statePadding
  else .ok (paramsOf q)

/-- The test gate of R115 for an instance: the round-trip law at its own tolerance. -/
def roundTripCheck (q : ParamInstance) : Bool := roundTripGate (paramsOf q) q.roundtripTol

end Sys2Proof.Machine
end

