-- ==== Sys2Proof/Machine/Reference.lean ====
section
/-! DEFINITION. The reference LUT candidate (spec 41_squash_stretch.md R117, R118, R119). The spec gives
it as not normative (from general knowledge: 93_implementation_defined.md I9), so the machine does not
use it: it is ONE choice of the two open tables, and the one the vectors of 95_test_vectors.md marked
"candidate LUT" are about. -/

namespace Sys2Proof.Machine

/-- The 33 knots `T[0..32]` (R117). -/
def refKnots : List Int :=
  [1, 2, 3, 6, 10, 16, 27, 45, 73, 120, 194, 310, 488, 747, 1101, 1546, 2047, 2549, 2994, 3348, 3607,
   3785, 3901, 3975, 4022, 4050, 4068, 4079, 4085, 4089, 4092, 4093, 4094]

/-- `T[i]` (R117). -/
def refKnot (i : Nat) : Int := refKnots.getD i 0

/-- `SquashRef(x)` (R117): saturated outside [-2047, 2047], inside it the interpolation between the
knots `i` = (x >>a 7) + 16 and `i` + 1 at `w` = x & 127, both in [0, 4095] there. -/
def refSquash (x : Int) : Int :=
  if x > 2047 then 4095
  else if x < -2047 then 0
  else
    let w := x % 128
    let i := (x / 128 + 16).toNat
    (refKnot i * (128 - w) + refKnot (i + 1) * w + 64) >>> (7 : Nat)

/-- The loop of R118 for `n` more values of `x`, with `pi` entries already filled: entries `pi` to
`v` = SquashRef(x) become `x`; after the last `x`, entries `pi` to 4095 become 2047. -/
def refStretchLoop : Nat → Int → Nat → List Int
  | 0, _, filled => List.replicate (4096 - filled) 2047
  | n + 1, x, filled =>
    let v := (refSquash x).toNat
    List.replicate (v + 1 - filled) x ++ refStretchLoop n (x + 1) (v + 1)

/-- The table `StretchRef[0..4095]`: the loop over `x` = -2047 to 2047 (R118). -/
def refStretchTable : List Int := refStretchLoop 4095 (-2047) 0

/-- `StretchRef(p)` (R118). -/
def refStretch (p : Nat) : Int := refStretchTable.getD p 2047

/-- The parameters `P` with the reference candidate for their two LUT tables (R117, R118). -/
def withReferenceLut (P : Params) : Params :=
  { P with
    squashTable := fun n => BitVec.ofInt 12 (refSquash ((n.val : Int) - 2047))
    stretchTable := fun p => BitVec.ofInt 12 (refStretch p.toNat) }

end Sys2Proof.Machine
end

