-- ==== Sys2Proof/Safety.lean ====
section
/-! DEFINITION. The terms claims about the core are stated in: when a command completes, the invariants
of spec 10_state.md R47, 44_match_finder.md R158 and 46_apm.md R190, and the relations of 10_state.md
R48 and R49. -/

namespace Sys2Proof.Safety

open Sys2Proof.Machine

/-- A RESET has run since power-up and no fault is recorded: GET completes (40_commands.md R90). -/
def Running (s : State) : Prop := s.status.init = true ∧ s.status.fault = .none

/-- UPDATE completes: running, and the bit does not complete byte number 2^32 (40_commands.md R93). -/
def TakesUpdate (s : State) : Prop := Running s ∧ posOverflows s = false

/-- The command is an UPDATE, the kind R98 of 40_commands.md counts. -/
def isUpdate : Instr → Bool
  | .get => false
  | .update _ => true
  | .squash _ => false
  | .stretch _ => false
  | .reset => false

/-- The bit completes a byte: the partial byte has its leading 1 at bit 7 (40_commands.md R93). -/
def CompletesByte (s : State) : Prop := 128 ≤ s.c0.toNat

/-- R47 (a): 1 ≤ `c0` ≤ 255, `bpos` = floor(log2 `c0`), and `bpos` = 0 exactly when `c0` = 1. -/
def PartialByteOk (s : State) : Prop :=
  1 ≤ s.c0.toNat ∧ s.c0.toNat ≤ 255 ∧ s.bpos.toNat = Nat.log 2 s.c0.toNat ∧ (s.bpos = 0 ↔ s.c0 = 1)

/-- R47 (b): `pr` ∈ [0, 4095]. -/
def PredictionOk (s : State) : Prop := s.pr.toNat ≤ 4095

/-- R47 (c): `matchLen` ≤ 160. -/
def MatchLenOk (s : State) : Prop := s.matchLen.toNat ≤ 160

/-- R47 (d): with a match, the top `bpos` bits of the predicted byte are the bits of `c0` below its
leading 1. -/
def MatchPrefixOk (P : Params) (s : State) : Prop :=
  s.matchLen = 0 ∨
    (bufferRead P s s.matchPos).toNat / 2 ^ (8 - s.bpos.toNat) = s.c0.toNat - 2 ^ s.bpos.toNat

/-- R47 (e): `matchPos` ≤ `pos`, strictly with a match. -/
def MatchPosOk (s : State) : Prop :=
  s.matchPos.toNat ≤ s.pos.toNat ∧ (s.matchLen ≠ 0 → s.matchPos.toNat < s.pos.toNat)

/-- R158: `hashes` holds only values of `pos` from earlier commits, or 0. -/
def HashesOk (s : State) : Prop := ∀ h : BitVec 23, (hashesRead s h).toNat ≤ s.pos.toNat

/-- R47 (f): every `APM` cell lies in [0, 65535]. -/
def CellsOk (P : Params) (s : State) : Prop :=
  ∀ a < Config.apmSize, 0 ≤ (apmRead P s a).toInt ∧ (apmRead P s a).toInt ≤ 65535

/-- R47 (a) to (f) and R158, for a core that has been RESET since power-up. R47 (g) is left to the
statement about UPDATE (log entry 8). -/
def PredictorOk (P : Params) (s : State) : Prop :=
  s.status.init = true →
    PartialByteOk s ∧ PredictionOk s ∧ MatchLenOk s ∧ MatchPrefixOk P s ∧ MatchPosOk s ∧ HashesOk s ∧
      CellsOk P s

/-- R190: the rows whose low byte is 0 are never selected and keep the template. -/
def UnqueriedRowsOk (P : Params) (s : State) : Prop :=
  s.status.init = true →
    s.c0.toNat ≠ 0 ∧
      (∃ (row : BitVec 16) (knot : Fin 32), row.toNat % 256 ≠ 0 ∧ s.aidx = cellIndex knot row) ∧
      ∀ r < 65536, r % 256 = 0 → ∀ j < 33, apmRead P s (33 * r + j) = knotTemplate P j

/-- Two states that differ at most in what R49 leaves unspecified: before the first RESET everything
but STATUS and the command port, after it nothing. -/
def SameOnceReset (s t : State) : Prop :=
  s.cmds = t.cmds ∧ s.resp = t.resp ∧ s.status = t.status ∧ (s.status.init = true → s = t)

/-- Two states that differ at most in the stored inputs of mixer rows other than `ctxm` (R48). -/
def SameButUnusedInputs (s t : State) : Prop :=
  t = { s with mixer := t.mixer } ∧
    (∀ (c : BitVec 12) (k : Nat), k < 8 → mixerWeight s c k = mixerWeight t c k) ∧
    ∀ k < 8, mixerInput s s.ctxm k = mixerInput t s.ctxm k

end Sys2Proof.Safety
end

