-- ==== Sys2Proof/Certificates/Slice0/Obligations.lean ====
section
/-! DEFINITION. The statements for the provers, each from the rules of spec/. The machine's parameters
are `Config.params`, an opaque constant (log entry 1), so a statement about `exec` or `step` holds for
every instance of the parameters; a statement about a sub-operation is over every `P`. The fields `cmds`
and `resp` are the model's form of the command port (log entries 3 and 4). -/

open Sys2Proof Sys2Proof.Machine Sys2Proof.Safety

/-! ## Encoding -/

/-- 30_encoding.md §1: decode and encode agree, both ways, on every command and every legal word. -/
def Obligations.DecodeEncodeAgree : Prop :=
  (∀ i : Instr, i.wf = true → decode (encode i) = .ok i) ∧
    ∀ (w : Word) (i : Instr), decode w = .ok i → encode i = w

/-- 30_encoding.md §3 and 60_exceptions.md §1, §3: every word decodes to exactly one command of R72 or to ILLEGAL_COMMAND. The five patterns of
R72 are spelled out on the word's number; any other word raises the fault in an unfaulted core. That the
word leaves `cmds` is the model's port (log entry 3), not the rule's. -/
def Obligations.DecodingIsTotal : Prop :=
  ∀ w : Word,
    (decode w = .ok .get ↔ w.toNat = 0x0000) ∧
    (∀ b : Bit, decode w = .ok (.update b) ↔ w.toNat = 0x1000 + b.toNat) ∧
    (∀ x : BitVec 12, decode w = .ok (.squash x) ↔ w.toNat = 0x2000 + x.toNat) ∧
    (∀ p : BitVec 12, decode w = .ok (.stretch p) ↔ w.toNat = 0x3000 + p.toNat) ∧
    (decode w = .ok .reset ↔ w.toNat = 0x4000) ∧
    ((∀ i, decode w ≠ .ok i) ↔
      w.toNat ≠ 0x0000 ∧ w.toNat ≠ 0x4000 ∧ ¬ (0x1000 ≤ w.toNat ∧ w.toNat ≤ 0x1001) ∧
        ¬ (0x2000 ≤ w.toNat ∧ w.toNat ≤ 0x3FFF)) ∧
    ∀ (s : State) (rest : List Word), (∀ i, decode w ≠ .ok i) → s.status.fault = .none →
      s.cmds = w :: rest →
      step s = .next { s with
        cmds := rest
        status := { s.status with fault := .illegalCommand }
        resp := { rstat := 2, rdata := 1 } }

/-- 30_encoding.md §1, §3 and 95_test_vectors.md: words written out from the encodings, each end of an
operand's range among them. -/
def Obligations.SpecWordsDecode : Prop :=
  decode 0x0000 = .ok .get ∧ decode 0x1000 = .ok (.update 0) ∧ decode 0x1001 = .ok (.update 1) ∧
    decode 0x2800 = .ok (.squash (BitVec.ofInt 12 (-2048))) ∧
    decode 0x27FF = .ok (.squash 2047) ∧ decode 0x3000 = .ok (.stretch 0) ∧
    decode 0x3FFF = .ok (.stretch 4095) ∧
    decode 0x4000 = .ok .reset ∧ (decode 0x1002).toOption = none ∧
    (decode 0x4001).toOption = none ∧ (decode 0x5000).toOption = none ∧
    (decode 0xFFFF).toOption = none

/-- R82 and R83: BYTE is its eight UPDATEs, most significant bit first; BYTES is one BYTE per
character, left to right. The examples are the rules' own. -/
def Obligations.ByteLinesExpandMsbFirst : Prop :=
  (∀ v : Nat, v ≤ 255 →
    assembleProgram [.byte (v : Int)] =
      some ([7, 6, 5, 4, 3, 2, 1, 0].map fun k =>
        if v.testBit k then (0x1001 : Word) else 0x1000)) ∧
  assembleProgram [.byte 0x41] =
    some [0x1000, 0x1001, 0x1000, 0x1000, 0x1000, 0x1000, 0x1000, 0x1001] ∧
  (∀ text : List Char, (∀ c ∈ text, c.toNat < 128) →
    assembleProgram [.bytes text] =
      assembleProgram (text.map fun c => .byte (c.toNat : Int))) ∧
  assembleProgram [.bytes ['A', 'B']] = assembleProgram [.byte 0x41, .byte 0x42]

/-- 30_encoding.md §4: an operand out of range is an assembly error, never a truncation; in range the
line is its word. -/
def Obligations.AssemblerChecksRanges : Prop :=
  (∀ b : Int, assembleProgram [.update b] =
    if b = 0 then some [0x1000] else if b = 1 then some [0x1001] else none) ∧
  (∀ x : Int, assembleProgram [.squash x] =
    if -2048 ≤ x ∧ x ≤ 2047 then some [BitVec.ofNat 16 (0x2000 + (x % 4096).toNat)] else none) ∧
  (∀ p : Int, assembleProgram [.stretch p] =
    if 0 ≤ p ∧ p ≤ 4095 then some [BitVec.ofNat 16 (0x3000 + p.toNat)] else none) ∧
  (∀ v : Int, ¬ (0 ≤ v ∧ v ≤ 255) → assembleProgram [.byte v] = none) ∧
  assembleProgram [.get] = some [0x0000] ∧ assembleProgram [.reset] = some [0x4000]

/-! ## The step and the faults -/

/-- 40_commands.md §1: when the oldest waiting word decodes to a command, the step is that command on
the state that has taken the word. The step adds nothing else around `exec`. -/
def Obligations.StepRunsDecodedCommand : Prop :=
  ∀ (s : State) (w : Word) (rest : List Word) (i : Instr), s.cmds = w :: rest → decode w = .ok i →
    i.wf = true ∧ step s = exec i { s with cmds := rest }

/-- 60_exceptions.md §4 and the model's choice of log entry 3: with no word waiting the core holds its
state. -/
def Obligations.IdleCoreHoldsItsState : Prop :=
  ∀ s : State, s.cmds = [] → step s = .next s

/-- 60_exceptions.md §1 and 40_commands.md §1, §3: a faulted core refuses every word but RESET's, with the recorded code and no state change;
RESET runs and clears the fault. That the word leaves `cmds`, and that RESET keeps the words behind it,
is the model's port (log entry 3). -/
def Obligations.FaultedCoreRefusesAllButReset : Prop :=
  ∀ (s : State) (w : Word) (rest : List Word), s.status.fault ≠ .none → s.cmds = w :: rest →
    (w ≠ 0x4000 →
      step s = .next { s with
        cmds := rest
        resp := { rstat := 2, rdata := match s.status.fault with
          | .none => 0 | .illegalCommand => 1 | .notInitialised => 2 | .posOverflow => 3 } }) ∧
    (w = 0x4000 → step s = .next { State.reset with cmds := rest })

/-- R205: the order of the checks, each ahead of the ones below it whatever they would say. -/
def Obligations.FaultPriority : Prop :=
  ∀ (s : State) (w : Word) (rest : List Word), s.cmds = w :: rest →
    (s.status.fault ≠ .none → w ≠ 0x4000 →
      ∃ t, step s = .next t ∧ t.status = s.status ∧ t.resp.rstat = 2) ∧
    (s.status.fault = .none → (∀ i, decode w ≠ .ok i) →
      ∃ t, step s = .next t ∧ t.status.fault = .illegalCommand ∧ t.resp = ⟨2, 1⟩) ∧
    (s.status.fault = .none → s.status.init = false →
      (decode w = .ok .get ∨ ∃ b, decode w = .ok (.update b)) →
      ∃ t, step s = .next t ∧ t.status.fault = .notInitialised ∧ t.resp = ⟨2, 2⟩) ∧
    (s.status.fault = .none → s.status.init = true → (∃ b, decode w = .ok (.update b)) →
      s.bpos = 7 → s.pos = 0xFFFFFFFF →
      ∃ t, step s = .next t ∧ t.status.fault = .posOverflow ∧ t.resp = ⟨2, 3⟩)

/-- 60_exceptions.md §3: a fault is precise. A step that leaves an unfaulted core faulted has written
STATUS.FAULT and nothing else of the core: the word is taken and the response is FAULTED. -/
def Obligations.FaultsArePrecise : Prop :=
  ∀ s t : State, s.status.fault = .none → step s = .next t → t.status.fault ≠ .none →
    t = { s with
      cmds := s.cmds.tail
      status := { s.status with fault := t.status.fault }
      resp := { rstat := 2, rdata := (FaultCode.code t.status.fault).setWidth 16 } }

/-- 10_state.md §6 and 60_exceptions.md §3: only RESET sets INIT and only RESET clears FAULT; no step
clears INIT. -/
def Obligations.OnlyResetSetsInitOrClearsFault : Prop :=
  ∀ s t : State, step s = .next t → s.cmds.head? ≠ some 0x4000 →
    t.status.init = s.status.init ∧
      (s.status.fault ≠ .none → t.status.fault = s.status.fault)

/-- 93_implementation_defined.md I14 and 45_mixer.md §1: no step of any state stops; a ninth mixer
input is never added. The named fault that would stop one is the model's (log entry 6). -/
def Obligations.EveryStepAnswersNext : Prop :=
  ∀ s : State, ∃ t, step s = .next t

/-! ## GET, SQUASH, STRETCH, RESET -/

/-- 40_commands.md §2: GET completes in every running core, returns `pr` and writes nothing else. -/
def Obligations.GetReturnsThePrediction : Prop :=
  ∀ s : State, Running s →
    exec .get s = .next { s with resp := { rstat := 1, rdata := BitVec.ofNat 16 s.pr.toNat } }

/-- R202: before the first RESET, GET and UPDATE raise NOT_INITIALISED, whatever the unspecified
registers hold, recording the code only; SQUASH and STRETCH do not raise it. -/
def Obligations.GetAndUpdateNeedReset : Prop :=
  ∀ (s : State) (b : Bit) (x : BitVec 12), s.status.fault = .none → s.status.init = false →
    exec .get s = .next { s with
      status := { init := false, fault := .notInitialised }, resp := { rstat := 2, rdata := 2 } } ∧
    exec (.update b) s = .next { s with
      status := { init := false, fault := .notInitialised }, resp := { rstat := 2, rdata := 2 } } ∧
    (∃ t, exec (.squash x) s = .next t ∧ t.status = s.status ∧ t.resp.rstat = 1) ∧
    ∃ t, exec (.stretch x) s = .next t ∧ t.status = s.status ∧ t.resp.rstat = 1

/-- 40_commands.md §5 and 41_squash_stretch.md §1: SQUASH completes in every unfaulted core, RESET or
not, returns the table's entry (0 for the one operand outside it, -2048) and writes nothing else. -/
def Obligations.SquashReadsItsTable : Prop :=
  ∀ (s : State) (x : BitVec 12), s.status.fault = .none →
    (x.toInt = -2048 → exec (.squash x) s = .next { s with resp := { rstat := 1, rdata := 0 } }) ∧
    ∀ n : Fin 4095, x.toInt = (n.val : Int) - 2047 →
      exec (.squash x) s = .next { s with
        resp := { rstat := 1, rdata := BitVec.ofNat 16 (Config.params.squashTable n).toNat } }

/-- 40_commands.md §5 and 41_squash_stretch.md §1: STRETCH completes in every unfaulted core, returns the
16-bit two's-complement pattern of the table's entry and writes nothing else. -/
def Obligations.StretchReadsItsTable : Prop :=
  ∀ (s : State) (p : BitVec 12), s.status.fault = .none →
    exec (.stretch p) s = .next { s with
      resp := { rstat := 1, rdata := BitVec.ofInt 16 (Config.params.stretchTable p).toInt } }

/-- 41_squash_stretch.md §1: Squash at every integer. -/
def Obligations.SquashSaturates : Prop :=
  ∀ (P : Params) (x : Int),
    (x < -2047 → squash P x = 0) ∧ (x > 2047 → squash P x = 4095) ∧
      ∀ n : Fin 4095, x = (n.val : Int) - 2047 → squash P x = P.squashTable n

/-- 70_reset_and_hazards.md §1 and 40_commands.md §3: what RESET leaves, from every state, faulted or not: each register and each element of each
array at its reset value; knots 0 and 32 are 0 and 65520 for every table. The two last clauses, on the
response and the waiting words, are the model's port (log entries 3 and 4), not the rule's. -/
def Obligations.ResetConstructsThePredictor : Prop :=
  ∀ s : State, ∃ t, exec .reset s = .next t ∧
    t.pr = 2048 ∧ t.c0 = 1 ∧ t.bpos = 0 ∧ t.c4 = 0 ∧ t.pos = 0 ∧ t.hash = 0 ∧ t.matchLen = 0 ∧
    t.matchPos = 0 ∧ (∀ i : Fin 7, t.ctx[i] = 0 ∧ t.cp[i] = 0) ∧
    (∀ (c : BitVec 12) (k : Nat), mixerInput t c k = 0 ∧ mixerWeight t c k = 0) ∧
    t.ctxm = 0 ∧ t.mcur.val = 0 ∧ t.mpr = 2048 ∧
    (∀ r < 65536, ∀ j < 33, (apmRead Config.params t (33 * r + j)).toNat =
      (squash Config.params (((j : Int) - 16) * 128)).toNat * 16) ∧
    (∀ r < 65536, (apmRead Config.params t (33 * r)).toNat = 0 ∧
      (apmRead Config.params t (33 * r + 32)).toNat = 65520) ∧
    (t.aidx.val : Int) = ((stretch Config.params 2048).toInt + 2048) / 128 + 33 ∧
    (∀ v : W32, bufferRead Config.params t v = 0) ∧
    (∀ v : BitVec 28, statesRead Config.params t v = 0) ∧
    (∀ h : BitVec 23, hashesRead t h = 0) ∧
    t.status = { init := true, fault := .none } ∧ t.resp = { rstat := 0, rdata := 0 } ∧
    t.cmds = s.cmds

/-- 40_commands.md §3: a second RESET gives the same state as the first; the model's State.reset is
what RESET makes of itself. -/
def Obligations.ResetTwiceIsResetOnce : Prop :=
  (∀ s t : State, exec .reset s = .next t → exec .reset t = .next t) ∧
    exec .reset State.reset = .next State.reset

/-! ## UPDATE: completion, traps and what it does to each piece of state -/

/-- 40_commands.md §4: UPDATE completes in every running core unless the bit would complete byte number
2^32; it answers OK with no data, leaves STATUS alone and ends with all eight mixer inputs written. -/
def Obligations.UpdateCompletes : Prop :=
  ∀ (s : State) (b : Bit), TakesUpdate s →
    ∃ t, exec (.update b) s = .next t ∧ t.resp = { rstat := 0, rdata := 0 } ∧
      t.status = s.status ∧ t.cmds = s.cmds ∧ t.mcur.val = 8

/-- 60_exceptions.md §2: the UPDATE that would complete byte number 2^32 writes nothing but the
fault; with another `bpos` or another `pos` UPDATE completes. -/
def Obligations.PosOverflowWritesNothing : Prop :=
  ∀ (s : State) (b : Bit), Running s →
    (s.bpos = 7 → s.pos = 0xFFFFFFFF →
      exec (.update b) s = .next { s with
        status := { s.status with fault := .posOverflow }, resp := { rstat := 2, rdata := 3 } }) ∧
    (¬ (s.bpos = 7 ∧ s.pos = 0xFFFFFFFF) →
      ∃ t, exec (.update b) s = .next t ∧ t.status.fault = .none)

/-- 40_commands.md §4: a bit inside a byte is folded into `c0` and counted in `bpos`; the registers and
arrays of the byte boundary stay as they are. -/
def Obligations.UpdateFoldsBitInsideByte : Prop :=
  ∀ (s : State) (b : Bit), TakesUpdate s → ¬ CompletesByte s →
    ∃ t, exec (.update b) s = .next t ∧
      t.c0.toNat = 2 * s.c0.toNat + b.toNat ∧ t.bpos = s.bpos + 1 ∧
      t.pos = s.pos ∧ t.c4 = s.c4 ∧ t.hash = s.hash ∧ t.ctx = s.ctx ∧ t.ctxm = s.ctxm ∧
      t.matchPos = s.matchPos ∧ t.buffer = s.buffer ∧ t.hashes = s.hashes

/-- 43_context_store.md §1: the eighth bit commits the byte: the ring, the counters, the rolling hash,
the mixer row and the published position; no other element of `buffer` or `hashes` changes. -/
def Obligations.UpdateCommitsTheByte : Prop :=
  ∀ (s : State) (b : Bit), TakesUpdate s → CompletesByte s →
    ∃ t, exec (.update b) s = .next t ∧
      t.c0 = 1 ∧ t.bpos = 0 ∧ t.pos = s.pos + 1 ∧
      t.c4.toNat = (s.c4.toNat * 256 + (2 * s.c0.toNat + b.toNat) % 256) % 2 ^ 32 ∧
      t.hash.toNat = (s.hash.toNat * 43707 * 16 + t.c4.toNat) % 2 ^ 23 ∧
      t.ctxm.toNat = t.c4.toNat % 4096 ∧
      (∀ v : W32, bufferRead Config.params t v =
        if ringIndex Config.params v = ringIndex Config.params s.pos
        then BitVec.ofNat 8 (2 * s.c0.toNat + b.toNat) else bufferRead Config.params s v) ∧
      ∀ h : BitVec 23, hashesRead t h = if h = t.hash then t.pos else hashesRead s h

/-- 43_context_store.md §2: at a byte boundary all seven contexts are rebuilt from the new `c4`, `hash`
and `pos` and the ring. -/
def Obligations.UpdateRebuildsTheContexts : Prop :=
  ∀ (s : State) (b : Bit), TakesUpdate s → CompletesByte s →
    ∃ t, exec (.update b) s = .next t ∧
      t.ctx[0] = contextBase Config.params 0 (t.c4 &&& 0xFFFF0000) ∧
      t.ctx[1] = contextBase Config.params 1
        (hashTPAQ Config.params Config.params.c1 (t.c4 <<< 24)) ∧
      t.ctx[2] = contextBase Config.params 2
        (hashTPAQ Config.params Config.params.c2 (t.c4 <<< 16)) ∧
      t.ctx[3] = contextBase Config.params 3
        (hashTPAQ Config.params Config.params.c3 (t.c4 <<< 8)) ∧
      t.ctx[4] = contextBase Config.params 4 (hashTPAQ Config.params Config.params.c4 t.c4) ∧
      t.ctx[5] = contextBase Config.params 5
        (hashTPAQ Config.params Config.params.c5 (BitVec.ofNat 32 t.hash.toNat)) ∧
      t.ctx[6] = contextBase Config.params 6 (hashTPAQ Config.params
        (hashShift Config.params t.c4 (binShift Config.params t.c4))
        (BitVec.ofNat 32 ((bufferRead Config.params t (t.pos - 6)).toNat
          + 256 * (bufferRead Config.params t (t.pos - 7)).toNat
          + 65536 * (bufferRead Config.params t (t.pos - 8)).toNat)))

/-- 43_context_store.md §3: after UPDATE every slot points at its context's base plus the partial byte,
modulo B. -/
def Obligations.UpdateMovesThePointers : Prop :=
  ∀ (s : State) (b : Bit), TakesUpdate s →
    ∃ t, exec (.update b) s = .next t ∧
      ∀ i : Fin 7, t.cp[i].toNat =
        (t.ctx[i].toNat + t.c0.toNat) % Config.params.ringSize

/-- 43_context_store.md §3: every cell of `states` is advanced on the bit once for each slot whose old
pointer names it, and by nothing else. -/
def Obligations.UpdateAdvancesBitHistories : Prop :=
  ∀ (s : State) (b : Bit), TakesUpdate s →
    ∃ t, exec (.update b) s = .next t ∧
      ∀ v : BitVec 28, statesRead Config.params t v =
        (fun q => nextState Config.params q b)^[
          slotOrder.countP fun i =>
            slotIndex Config.params s.cp[i] = slotIndex Config.params v]
          (statesRead Config.params s v)

/-- 43_context_store.md §3 and 45_mixer.md §2: mixer slot `6 - i` of the selected row holds the map of
the state that slot `i` found at its new pointer, after the slots 6 down to `i` had advanced theirs;
slot 7 holds the match input, or 64 without a match. -/
def Obligations.UpdateFeedsTheSelectedRow : Prop :=
  ∀ (s : State) (b : Bit), TakesUpdate s →
    ∃ t, exec (.update b) s = .next t ∧
      (∀ i : Fin 7, mixerInput t t.ctxm (6 - i.val) =
        stateMap Config.params i
          ((fun q => nextState Config.params q b)^[
            (slotOrder.take (7 - i.val)).countP fun j =>
              slotIndex Config.params s.cp[j] = slotIndex Config.params t.cp[i]]
            (statesRead Config.params s t.cp[i]))) ∧
      (t.matchLen = 0 → mixerInput t t.ctxm 7 = 64) ∧
      (t.matchLen ≠ 0 → mixerInput t t.ctxm 7 =
        BitVec.ofInt 32 (64 * (if (bufferRead Config.params t t.matchPos).toNat.testBit
            (7 - t.bpos.toNat)
          then (matchStrength t.matchLen.toNat : Int) else -(matchStrength t.matchLen.toNat : Int))))

/-- 45_mixer.md §1 and §2: UPDATE trains the eight weights of the row that was selected before it, with
the inputs and the output stored there, and no weight of another row; the stored inputs of every row
but the newly selected one are unchanged. -/
def Obligations.UpdateTrainsOnlyTheOldRow : Prop :=
  ∀ (s : State) (b : Bit), TakesUpdate s →
    ∃ t, exec (.update b) s = .next t ∧
      (∀ k < 8, mixerWeight t s.ctxm k = BitVec.ofInt 32
        ((mixerWeight s s.ctxm k).toInt +
          (BitVec.ofInt 32 ((mixerInput s s.ctxm k).toInt *
            (((b.toNat : Int) * 4096 - (s.mpr.toNat : Int)) * 7))).toInt / 65536)) ∧
      (∀ (c : BitVec 12) (k : Nat), k < 8 → c ≠ s.ctxm → mixerWeight t c k = mixerWeight s c k) ∧
      ∀ (c : BitVec 12) (k : Nat), k < 8 → c ≠ t.ctxm → mixerInput t c k = mixerInput s c k

/-- 45_mixer.md §1: the mixer's output is the saturating squash of the wrapped dot product of the
selected row, shifted right by 15. -/
def Obligations.UpdateMixesTheSelectedRow : Prop :=
  ∀ (s : State) (b : Bit), TakesUpdate s →
    ∃ t, exec (.update b) s = .next t ∧
      t.mpr = squash Config.params
        ((BitVec.ofInt 32
          (((List.range 8).map fun k =>
            (mixerInput t t.ctxm k).toInt * (mixerWeight t t.ctxm k).toInt).sum)).toInt / 2 ^ 15)

/-- 46_apm.md §2: UPDATE moves the two knots of the previously queried cell toward the bit and leaves
every other cell of the APM as it was. -/
def Obligations.UpdateAdaptsTheQueriedCell : Prop :=
  ∀ (s : State) (b : Bit), TakesUpdate s →
    ∃ t, exec (.update b) s = .next t ∧
      ∀ a : Nat, apmRead Config.params t a =
        if a = s.aidx.val ∨ a = s.aidx.val + 1 then
          BitVec.ofInt 32 ((apmRead Config.params s a).toInt +
            ((if b = 1 then 65662 else 0) - (apmRead Config.params s a).toInt) / 128)
        else apmRead Config.params s a

/-- 46_apm.md §2, §3 and 40_commands.md §4: UPDATE selects the cell that brackets the stretched mixer
output in the row `c0 | (c4 & 0xFF00)`, and `pr` is the clamped interpolation of that cell after the
update of the old one. -/
def Obligations.UpdatePredictsFromTheNewCell : Prop :=
  ∀ (s : State) (b : Bit), TakesUpdate s →
    ∃ t, exec (.update b) s = .next t ∧
      (t.aidx.val : Int) = ((stretch Config.params t.mpr).toInt + 2048) / 128
        + 33 * ((t.c0.toNat : Int) + 256 * ((t.c4.toNat / 256 % 256 : Nat) : Int)) ∧
      ∃ p w : Int, w = ((stretch Config.params t.mpr).toInt) % 128 ∧
        p = ((apmRead Config.params t t.aidx.val).toInt * (128 - w)
          + (apmRead Config.params t (t.aidx.val + 1)).toInt * w) / 2 ^ 11 ∧
        t.pr = BitVec.ofInt 12 (if p < 2048 then p + 1 else p)

/-- 44_match_finder.md §2: inside a byte a match survives exactly while the bits so far, the new one
included, are the top bits of the predicted byte; `matchPos` stays. -/
def Obligations.UpdateChecksTheMatchInsideByte : Prop :=
  ∀ (s : State) (b : Bit), TakesUpdate s → PartialByteOk s → ¬ CompletesByte s →
    ∃ t, exec (.update b) s = .next t ∧ t.matchPos = s.matchPos ∧
      t.matchLen = if (bufferRead Config.params s s.matchPos).toNat / 2 ^ (7 - s.bpos.toNat) =
          2 * s.c0.toNat + b.toNat - 2 ^ (s.bpos.toNat + 1)
        then s.matchLen else 0

/-- 44_match_finder.md §1: at a byte boundary a match goes on by one byte, its length capped at 160,
whatever the committed byte was. -/
def Obligations.UpdateContinuesTheMatch : Prop :=
  ∀ (s : State) (b : Bit), TakesUpdate s → CompletesByte s → s.matchLen ≠ 0 →
    ∃ t, exec (.update b) s = .next t ∧ t.matchPos = s.matchPos + 1 ∧
      t.matchLen.toNat = min (s.matchLen.toNat + 1) 160

/-- 44_match_finder.md §1: at a byte boundary without a match, the position published earlier at the new
hash is looked up; the sentinel 0 and a position more than B - 1 bytes old start none, any other
starts the longest match of at most 160 bytes before the two positions. -/
def Obligations.UpdateSearchesForAMatch : Prop :=
  ∀ (s : State) (b : Bit), TakesUpdate s → CompletesByte s → s.matchLen = 0 →
    ∃ t, exec (.update b) s = .next t ∧ t.matchPos = hashesRead s t.hash ∧
      ((t.matchPos = 0 ∨ (t.pos - t.matchPos).toNat > Config.params.ringSize - 1) →
        t.matchLen = 0) ∧
      (t.matchPos ≠ 0 → (t.pos - t.matchPos).toNat ≤ Config.params.ringSize - 1 →
        t.matchLen.toNat ≤ 160 ∧
        (∀ r, 1 ≤ r → r ≤ t.matchLen.toNat →
          bufferRead Config.params t (t.pos - BitVec.ofNat 32 r) =
            bufferRead Config.params t (t.matchPos - BitVec.ofNat 32 r)) ∧
        (t.matchLen.toNat = 160 ∨
          bufferRead Config.params t (t.pos - BitVec.ofNat 32 (t.matchLen.toNat + 1)) ≠
            bufferRead Config.params t (t.matchPos - BitVec.ofNat 32 (t.matchLen.toNat + 1))))

/-- 46_apm.md §3 and 10_state.md §2: after an UPDATE of a core in good order, `pr` lies in
[1, 4095]. -/
def Obligations.PredictionIsNeverZero : Prop :=
  ∀ (s : State) (b : Bit), PredictorOk Config.params s → TakesUpdate s →
    ∃ t, exec (.update b) s = .next t ∧ 1 ≤ t.pr.toNat ∧ t.pr.toNat ≤ 4095

/-- 46_apm.md §3 (R192) and 10_state.md §3 (R33): the first UPDATE after RESET. `states[0]` is advanced seven times, every
pointer becomes 2 + b, no weight changes, and the cell the scenario names moves by
`(g - initial) >>a 7`. -/
def Obligations.FirstUpdateAfterReset : Prop :=
  ∀ b : Bit, ∃ t, exec (.update b) State.reset = .next t ∧
    t.c0.toNat = 2 + b.toNat ∧ t.bpos = 1 ∧ t.pos = 0 ∧ t.matchLen = 0 ∧
    (∀ i : Fin 7, t.cp[i].toNat = 2 + b.toNat) ∧
    statesRead Config.params t 0 = (fun q => nextState Config.params q b)^[7] 0 ∧
    (∀ (c : BitVec 12) (k : Nat), k < 8 → mixerWeight t c k = 0) ∧
    t.mpr = squash Config.params 0 ∧
    (apmRead Config.params t State.reset.aidx.val).toInt =
      (apmRead Config.params State.reset State.reset.aidx.val).toInt +
        ((if b = 1 then 65662 else 0) -
          (apmRead Config.params State.reset State.reset.aidx.val).toInt) / 128

/-! ## Invariants, runs, and what never shows -/

/-- 10_state.md §8 and 44_match_finder.md §2: the predictor's invariants (a) to (f), with the bound on
the published positions, are kept by every step of every state. -/
def Obligations.StepKeepsThePredictorInvariant : Prop :=
  ∀ s t : State, PredictorOk Config.params s → step s = .next t → PredictorOk Config.params t

/-- The predictor's invariants hold after RESET. -/
def Obligations.ResetMeetsThePredictorInvariant : Prop :=
  PredictorOk Config.params State.reset

/-- 46_apm.md §3: the rows of the APM whose low byte is 0 are never selected and keep the template. -/
def Obligations.StepKeepsUnqueriedRows : Prop :=
  ∀ s t : State, UnqueriedRowsOk Config.params s → step s = .next t →
    UnqueriedRowsOk Config.params t

/-- The unqueried rows hold the template after RESET, and the selected row is not one of them. -/
def Obligations.ResetLeavesUnqueriedRows : Prop :=
  UnqueriedRowsOk Config.params State.reset

/-- The model's canonical form of the five arrays (log entry 2) is kept by every step. -/
def Obligations.StepKeepsCanonicalArrays : Prop :=
  ∀ s t : State, Memory.wf Config.params s = true → step s = .next t →
    Memory.wf Config.params t = true

/-- The model's arrays have their canonical form after RESET, and equal contents are equal data (log
entry 2). -/
def Obligations.CanonicalArraysAreTheirContents : Prop :=
  Memory.wf Config.params State.reset = true ∧
    ∀ s t : State, Memory.wf Config.params s = true → Memory.wf Config.params t = true →
      (∀ a, readCell zeroCell s.buffer a = readCell zeroCell t.buffer a) →
      (∀ a, readCell zeroCell s.states a = readCell zeroCell t.states a) →
      (∀ a, readCell zeroCell s.hashes a = readCell zeroCell t.hashes a) →
      (∀ a, mixerRead s.mixer a = mixerRead t.mixer a) →
      (∀ a, apmRead Config.params s a = apmRead Config.params t a) →
      s.buffer = t.buffer ∧ s.states = t.states ∧ s.hashes = t.hashes ∧ s.mixer = t.mixer ∧
        s.apm = t.apm

/-- 20_memory.md §5: a read of an element returns the latest write to it, and a write leaves every other
element alone, in each of the five arrays. -/
def Obligations.ReadsReturnTheLatestWrite : Prop :=
  ∀ (P : Params) (s : State),
    (∀ v u : W32, ∀ x : Byte, bufferRead P (bufferWrite P s v x) u =
      if ringIndex P u = ringIndex P v then x else bufferRead P s u) ∧
    (∀ v u : BitVec 28, ∀ x : Byte, statesRead P (statesWrite P s v x) u =
      if slotIndex P u = slotIndex P v then x else statesRead P s u) ∧
    (∀ h g : BitVec 23, ∀ v : W32, hashesRead (hashesWrite s h v) g =
      if g = h then v else hashesRead s g) ∧
    (∀ a c : Nat, ∀ v : W32, mixerRead (mixerWrite s.mixer a v) c =
      if c = a then v else mixerRead s.mixer c) ∧
    ∀ a c : Nat, ∀ v : W32, apmRead P (apmWrite P s a v) c =
      if c = a then v else apmRead P s c

/-- 40_commands.md §6: after RESET and any legal commands but RESET, `n` of them UPDATEs, `8·pos + bpos` = `n`; `pos` goes up
by one per eight and `bpos` is 0 exactly at the multiples of eight. Below 2^35 UPDATEs none of them
faults. The queue `cmds` that holds the commands, and that it is empty at the end, is the model's port
(log entry 3). Words that are illegal or RESET are the business of `StepCountsItsUpdates`. -/
def Obligations.UpdatesAreCounted : Prop :=
  ∀ prog : List Instr, Instr.reset ∉ prog → prog.countP isUpdate < 2 ^ 35 →
    ∃ t, core.run prog.length { State.reset with cmds := prog.map encode } = .next t ∧
      t.cmds = [] ∧ t.status = { init := true, fault := .none } ∧
      8 * t.pos.toNat + t.bpos.toNat = prog.countP isUpdate ∧
      t.pos.toNat = prog.countP isUpdate / 8 ∧
      (t.bpos = 0 ↔ prog.countP isUpdate % 8 = 0)

/-- 10_state.md §8: no response can depend on the unspecified state of power-up. Two cores powered up with any
contents and given the same words answer alike at every point, and are equal once RESET. At power-up
SQUASH and STRETCH complete, GET and UPDATE fault. `State.powerUp` of an arbitrary state is the
model's reading of "unspecified", with the two ports' words and responses equal at the start (log entry
5). The one-step form is `StepKeepsWhatResetHides`. -/
def Obligations.PowerUpContentsNeverShow : Prop :=
  (∀ (u v : State) (n : Nat), u.cmds = v.cmds → u.resp = v.resp →
    ∃ s t, core.run n u.powerUp = .next s ∧ core.run n v.powerUp = .next t ∧
      s.resp = t.resp ∧ s.status = t.status ∧ (s.status.init = true → s = t)) ∧
  ∀ (u : State) (i : Instr), ∃ t, exec i u.powerUp = .next t ∧
    ((i = .get ∨ ∃ b, i = .update b) → t.status = { init := false, fault := .notInitialised } ∧
      t.resp = { rstat := 2, rdata := 2 }) ∧
    ((∃ x, i = .squash x ∨ i = .stretch x) → t.status = { init := false, fault := .none } ∧
      t.resp.rstat = 1)

/-- R48: the stored inputs of the mixer rows that are not selected never show: two states that differ
at most in them stay so, with the same responses, under every step. -/
def Obligations.UnusedInputsNeverShow : Prop :=
  ∀ s t s' : State, SameButUnusedInputs s t → step s = .next s' →
    ∃ t', step t = .next t' ∧ SameButUnusedInputs s' t' ∧ s'.resp = t'.resp ∧ s'.pr = t'.pr

/-! ## The sub-blocks -/

/-- 40_commands.md §4 (R95): the clamp agrees with its sign test wherever `p - 2048` is an i32 too, maps
[0, 4095] into [1, 4095], and has the rule's examples. -/
def Obligations.ClampAddsOneBelowHalf : Prop :=
  (∀ p : Int, -2147483648 ≤ p - 2048 → p ≤ 2147483647 →
    clamp p = if p < 2048 then p + 1 else p) ∧
  (∀ p : Int, 0 ≤ p → p ≤ 4095 → 1 ≤ clamp p ∧ clamp p ≤ 4095) ∧
  clamp 0 = 1 ∧ clamp 2047 = 2048 ∧ clamp 2048 = 2048 ∧ clamp 4095 = 4095

/-- 44_match_finder.md §2: the size of the match input for a length from 1 to 160. -/
def Obligations.MatchInputIsBounded : Prop :=
  ∀ len : BitVec 8, 1 ≤ len.toNat → len.toNat ≤ 160 →
    (len.toNat < 32 → (matchInput len true).toInt = 64 * len.toNat) ∧
    (32 ≤ len.toNat →
      (matchInput len true).toInt = 64 * (32 + ((len.toNat - 32) / 4 : Nat))) ∧
    (matchInput len false).toInt = -(matchInput len true).toInt ∧
    64 ≤ (matchInput len true).toInt ∧ (matchInput len true).toInt ≤ 4096

/-- 43_context_store.md §1: with `c4` constant the rolling hash forgets what it held before in six
commits, and then stays. -/
def Obligations.RollHashForgetsInSixCommits : Prop :=
  ∀ (c4 : W32) (h g : BitVec 23),
    (fun x => rollHash x c4)^[6] h = (fun x => rollHash x c4)^[6] g ∧
      (fun x => rollHash x c4)^[7] h = (fun x => rollHash x c4)^[6] h

/-- 10_state.md §3: masking a context at storage or at use gives the same pointer, and the stored base
of context 0 for the value 0 is 0. -/
def Obligations.MaskingAtStorageOrAtUse : Prop :=
  ∀ (P : Params) (i : Nat) (cx : W32) (c0 : BitVec 8),
    (slotPointer P (contextBase P i cx) c0).toNat =
        ((whiten i cx).toNat + c0.toNat) % P.ringSize ∧
      contextBase P 0 0 = 0

/-- 43_context_store.md §2: the shift of context 6 is chosen exactly when some byte of `c4` has its top
bit set, and is the parameter's 4 or 16. -/
def Obligations.BinShiftSeesTopBits : Prop :=
  ∀ (P : Params) (c4 : W32),
    ((∃ k < 4, 128 ≤ c4.toNat / 256 ^ k % 256) →
      binShift P c4 = match P.binShift with | .four => 4 | .sixteen => 16) ∧
    ((∀ k < 4, c4.toNat / 256 ^ k % 256 < 128) → binShift P c4 = 0)

/-- 00_scope.md §4 and 43_context_store.md §2: the two kinds of right shift, and the rotation. -/
def Obligations.HashingShiftsAreAsNamed : Prop :=
  ∀ (P : Params) (v : W32) (k : Nat),
    (P.hashShr = .arithmetic → (hashShift P v k).toInt = v.toInt / 2 ^ k) ∧
    (P.hashShr = .logical → (hashShift P v k).toNat = v.toNat / 2 ^ k) ∧
    (rotl16 v).toNat = v.toNat % 65536 * 65536 + v.toNat / 65536

/-- 43_context_store.md §2 (R137, R138): the two hashing operations on integers, every product and sum
reduced modulo 2^32. -/
def Obligations.ContextHashesAsWritten : Prop :=
  ∀ (P : Params) (x y : W32) (i : Nat),
    (∃ h : W32, h = BitVec.ofNat 32 (x.toNat * P.hash1.toNat) ^^^
        BitVec.ofNat 32 (y.toNat * P.hash2.toNat) ∧
      hashTPAQ P x y = hashShift P h 1 ^^^ hashShift P h 9 ^^^ hashShift P x 2 ^^^
        hashShift P y 3 ^^^ P.hash3) ∧
    (∃ z : W32, z = rotl16 (BitVec.ofNat 32 (x.toNat * 987654323 + i)) ∧
      (contextBase P i x).toNat = (z.toNat * 123456791 + i) % 2 ^ 32 % P.ringSize)

/-- R127: the padding rows 253 to 255 of the state table give 0 on either bit, whatever the parameters,
and an instance that breaks this is refused. -/
def Obligations.PaddingRowsAreZero : Prop :=
  (∀ (P : Params) (q : Byte) (b : Bit), 253 ≤ q.toNat → nextState P q b = 0) ∧
    ∀ q : ParamInstance, (∃ r ∈ q.stateTable.drop 253, r ≠ (0, 0)) →
      ∃ e, loadParams q = .error e

/-- R114: an instance with a squash entry outside [0, 4095] or a stretch entry outside [-2048, 2047] is
refused. -/
def Obligations.BadTablesAreRefused : Prop :=
  ∀ q : ParamInstance,
    ((∃ v ∈ q.squashTable, v < 0 ∨ 4095 < v) → ∃ e, loadParams q = .error e) ∧
    ((∃ v ∈ q.stretchTable, v < -2048 ∨ 2047 < v) → ∃ e, loadParams q = .error e)

/-! ## Steps of counting and of power-up, and the loading of an instance -/

/-- 40_commands.md §6, as a step: with a sound partial byte, one UPDATE that is taken adds 1 to
`8·pos + bpos`, RESET makes it 0, and every other step, of another command, of an illegal word or of a
command turned away, leaves it. That a step takes the head of `cmds`, or idles, is the model's port (log
entry 3). -/
def Obligations.StepCountsItsUpdates : Prop :=
  ∀ s t : State, PartialByteOk s → step s = .next t →
    PartialByteOk t ∧
    (s.cmds.head? = some 0x4000 → 8 * t.pos.toNat + t.bpos.toNat = 0) ∧
    ((s.cmds.head? = some 0x1000 ∨ s.cmds.head? = some 0x1001) → TakesUpdate s →
      8 * t.pos.toNat + t.bpos.toNat = 8 * s.pos.toNat + s.bpos.toNat + 1) ∧
    (s.cmds.head? ≠ some 0x4000 →
      ¬ ((s.cmds.head? = some 0x1000 ∨ s.cmds.head? = some 0x1001) ∧ TakesUpdate s) →
      8 * t.pos.toNat + t.bpos.toNat = 8 * s.pos.toNat + s.bpos.toNat)

/-- 10_state.md §8, as a step: two cores that differ at most in what power-up leaves unspecified answer
each step alike and differ at most in that after it; once RESET they are equal. That the relation has
the ports equal is the model's (log entry 5). -/
def Obligations.StepKeepsWhatResetHides : Prop :=
  ∀ s t s' : State, SameOnceReset s t → step s = .next s' →
    ∃ t', step t = .next t' ∧ SameOnceReset s' t'

/-- 00_scope.md §3 and 41_squash_stretch.md §2: an instance that is accepted is read as it is written:
its four tables, its salts and its switches. That an instance is loaded at all is the model's own (log
entry 7). -/
def Obligations.AcceptedInstanceIsReadAsWritten : Prop :=
  ∀ (q : ParamInstance) (P : Params), loadParams q = .ok P →
    (∀ n : Fin 4095, q.squashTable[n.val]? = some ((P.squashTable n).toNat : Int)) ∧
    (∀ p : BitVec 12, q.stretchTable[p.toNat]? = some (P.stretchTable p).toInt) ∧
    (∀ s : Byte, q.stateTable[s.toNat]? =
      some ((nextState P s 0).toNat, (nextState P s 1).toNat)) ∧
    (∀ (i : Fin 7) (s : Byte), ∃ row, q.stateMap[i.val]? = some row ∧
      row[s.toNat]? = some (stateMap P i s).toInt) ∧
    q.salts = [P.c1, P.c2, P.c3, P.c4, P.c5] ∧ q.hashSalts = [P.hash1, P.hash2, P.hash3] ∧
    q.ctx6BinShift = P.binShift.amount ∧ q.hashShr = P.hashShr ∧ P.ringSize = 2 ^ q.bufBits

/-- 41_squash_stretch.md §3 (not normative): the table the reference loop builds is the least inverse of
the reference squash, with the tail value 2047 at 4095 only; it has the values the rule lists, and
the two tables are in the ranges a run asks of them. -/
def Obligations.ReferenceStretchIsTheLeastInverse : Prop :=
  refStretchTable.length = 4096 ∧
  (∀ p : Nat, p ≤ 4095 →
    -2047 ≤ refStretch p ∧ refStretch p ≤ 2047 ∧
    (p ≤ 4094 → (p : Int) ≤ refSquash (refStretch p)) ∧
    ∀ x : Int, -2047 ≤ x → x < refStretch p → refSquash x < p) ∧
  (∀ x : Int, -2047 ≤ x → x ≤ 2047 → 1 ≤ refSquash x ∧ refSquash x ≤ 4094) ∧
  refStretch 0 = -2047 ∧ refStretch 1 = -2047 ∧ refStretch 2043 = -1 ∧
  (∀ p ∈ [2044, 2045, 2046, 2047], refStretch p = 0) ∧
  (∀ p ∈ [2048, 2049, 2050, 2051], refStretch p = 1) ∧
  refStretch 4094 = 1984 ∧ refStretch 4095 = 2047
end

