-- ==== Sys2Proof/Laws/Arrays.lean ====
section
/-! SUPPORT. The laws of one array (Machine/Ops.lean): a read after a write, on every list; the
canonical form, kept by every write; and that arrays in canonical form that read alike are equal. -/

namespace Sys2Proof.Laws

open Sys2Proof.Machine

variable {w : Nat} {dflt : Nat → BitVec w} {m n : List (Nat × BitVec w)} {a b size : Nat}
  {v : BitVec w}

/-! ## Read after write -/

theorem lookupCell_eraseCell_self : lookupCell (eraseCell m a) a = none := by
  induction m with
  | nil => rfl
  | cons c m ih =>
    by_cases h : c.1 = a
    · simpa [eraseCell, h] using ih
    · simpa [eraseCell, h, lookupCell] using ih

theorem lookupCell_eraseCell_ne (h : b ≠ a) : lookupCell (eraseCell m a) b = lookupCell m b := by
  induction m with
  | nil => rfl
  | cons c m ih =>
    by_cases hc : c.1 = a
    · have hb : c.1 ≠ b := fun hb => h (hb ▸ hc)
      simpa [eraseCell, hc, lookupCell, Ne.symm h] using ih
    · by_cases hb : c.1 = b
      · simp [eraseCell, lookupCell, hb, h]
      · simpa [eraseCell, hc, lookupCell, hb] using ih

theorem lookupCell_insertCell_self (h : lookupCell m a = none) :
    lookupCell (insertCell m a v) a = some v := by
  induction m with
  | nil => simp [insertCell, lookupCell]
  | cons c m ih =>
    by_cases hc : c.1 = a
    · simp [lookupCell, hc] at h
    · rw [lookupCell, if_neg hc] at h
      by_cases hlt : a < c.1
      · simp [insertCell, hlt, lookupCell]
      · simpa [insertCell, hlt, lookupCell, hc] using ih h

theorem lookupCell_insertCell_ne (h : b ≠ a) : lookupCell (insertCell m a v) b = lookupCell m b := by
  induction m with
  | nil => simp [insertCell, lookupCell, Ne.symm h]
  | cons c m ih =>
    rw [insertCell]
    split
    · simp [lookupCell, Ne.symm h]
    · simp only [lookupCell, ih]

/-- A read after a write to the same index gives the value written. -/
@[simp] theorem readCell_writeCell_self : readCell dflt (writeCell dflt m a v) a = v := by
  unfold readCell writeCell
  split
  · next h => simp [lookupCell_eraseCell_self, h]
  · simp [lookupCell_insertCell_self lookupCell_eraseCell_self]

/-- A write leaves every other index alone. -/
theorem readCell_writeCell_ne (h : b ≠ a) :
    readCell dflt (writeCell dflt m a v) b = readCell dflt m b := by
  unfold readCell writeCell
  split
  · rw [lookupCell_eraseCell_ne h]
  · rw [lookupCell_insertCell_ne h, lookupCell_eraseCell_ne h]

/-- A read after a write, in one equation. -/
theorem readCell_writeCell :
    readCell dflt (writeCell dflt m a v) b = if b = a then v else readCell dflt m b := by
  split
  · next h => rw [h, readCell_writeCell_self]
  · next h => exact readCell_writeCell_ne h

@[simp] theorem readCell_nil : readCell dflt [] a = dflt a := rfl

/-! ## The canonical form -/

/-- `a` lies above an optional lower bound. -/
def Above (lo : Option Nat) (a : Nat) : Prop := ∀ l ∈ lo, l < a

theorem risingAbove_cons {lo : Option Nat} {c : Nat × BitVec w} :
    risingAbove lo (c :: m) = true ↔ Above lo c.1 ∧ risingAbove (some c.1) m = true := by
  cases lo <;> simp [risingAbove, Above]

theorem risingAbove_weaken {lo lo' : Option Nat} (h : ∀ x, Above lo x → Above lo' x)
    (hm : risingAbove lo m = true) : risingAbove lo' m = true := by
  cases m with
  | nil => rfl
  | cons c m =>
    rw [risingAbove_cons] at hm ⊢
    exact ⟨h _ hm.1, hm.2⟩

theorem above_of_above_some {lo : Option Nat} (h : Above lo a) {x : Nat} (hx : Above (some a) x) :
    Above lo x := by
  intro l hl
  exact lt_trans (h l hl) (hx a rfl)

theorem risingAbove_eraseCell {lo : Option Nat} (hm : risingAbove lo m = true) :
    risingAbove lo (eraseCell m a) = true := by
  induction m generalizing lo with
  | nil => rfl
  | cons c m ih =>
    rw [risingAbove_cons] at hm
    by_cases hc : c.1 = a
    · have := ih hm.2
      simp only [eraseCell, hc, bne_self_eq_false, Bool.false_eq_true, not_false_eq_true,
        List.filter_cons_of_neg]
      exact risingAbove_weaken (fun x hx => above_of_above_some hm.1 hx) (ih hm.2)
    · have he : eraseCell (c :: m) a = c :: eraseCell m a := by simp [eraseCell, hc]
      rw [he, risingAbove_cons]
      exact ⟨hm.1, ih hm.2⟩

theorem risingAbove_insertCell {lo : Option Nat} (hm : risingAbove lo m = true) (ha : Above lo a)
    (hn : ∀ c ∈ m, c.1 ≠ a) : risingAbove lo (insertCell m a v) = true := by
  induction m generalizing lo with
  | nil => exact risingAbove_cons.mpr ⟨ha, rfl⟩
  | cons c m ih =>
    rw [risingAbove_cons] at hm
    by_cases hlt : a < c.1
    · simp only [insertCell, if_pos hlt, risingAbove_cons]
      refine ⟨ha, ?_, hm.2⟩
      intro l hl
      simpa [Option.mem_some_iff.mp hl] using hlt
    · simp only [insertCell, if_neg hlt, risingAbove_cons]
      refine ⟨hm.1, ih hm.2 ?_ fun d hd => hn d (List.mem_cons_of_mem _ hd)⟩
      intro l hl
      have hne := hn c List.mem_cons_self
      rw [Option.mem_some_iff] at hl
      omega

theorem mem_insertCell {c : Nat × BitVec w} :
    c ∈ insertCell m a v ↔ c = (a, v) ∨ c ∈ m := by
  induction m with
  | nil => simp [insertCell]
  | cons d m ih =>
    by_cases hlt : a < d.1
    · simp [insertCell, hlt]
    · simp [insertCell, hlt, ih]
      tauto

theorem canonical_iff :
    canonical dflt size m = true ↔
      risingAbove none m = true ∧ ∀ c ∈ m, c.1 < size ∧ c.2 ≠ dflt c.1 := by
  simp [canonical]

@[simp] theorem canonical_nil : canonical dflt size [] = true := rfl

/-- A write inside the array keeps the canonical form. -/
theorem canonical_writeCell (hm : canonical dflt size m = true) (ha : a < size) :
    canonical dflt size (writeCell dflt m a v) = true := by
  rw [canonical_iff] at hm ⊢
  have herase : ∀ c ∈ eraseCell m a, c.1 ≠ a ∧ c ∈ m := by
    intro c hc
    have := List.mem_filter.mp hc
    exact ⟨by simpa using this.2, this.1⟩
  unfold writeCell
  split
  · exact ⟨risingAbove_eraseCell hm.1, fun c hc => hm.2 c (herase c hc).2⟩
  · next hv =>
    refine ⟨risingAbove_insertCell (risingAbove_eraseCell hm.1) (fun l hl => by simp at hl)
      fun c hc => (herase c hc).1, ?_⟩
    intro c hc
    rcases mem_insertCell.mp hc with rfl | hc
    · exact ⟨ha, hv⟩
    · exact hm.2 c (herase c hc).2

theorem lookupCell_eq_none_of_above {lo : Option Nat} (hm : risingAbove lo m = true)
    (ha : ¬ Above lo a) : lookupCell m a = none := by
  induction m generalizing lo with
  | nil => rfl
  | cons c m ih =>
    rw [risingAbove_cons] at hm
    have hne : c.1 ≠ a := fun h => ha (h ▸ hm.1)
    rw [lookupCell, if_neg hne]
    exact ih hm.2 fun h => ha (above_of_above_some hm.1 h)

theorem readCell_head {c : Nat × BitVec w} : readCell dflt (c :: m) c.1 = c.2 := by
  simp [readCell, lookupCell]

theorem readCell_tail {c : Nat × BitVec w} (h : c.1 ≠ a) :
    readCell dflt (c :: m) a = readCell dflt m a := by
  simp [readCell, lookupCell, h]

theorem risingAbove_ext {lo : Option Nat} (hm : risingAbove lo m = true)
    (hn : risingAbove lo n = true) (dm : ∀ c ∈ m, c.2 ≠ dflt c.1) (dn : ∀ c ∈ n, c.2 ≠ dflt c.1)
    (h : ∀ a, readCell dflt m a = readCell dflt n a) : m = n := by
  have below : ∀ {l : List (Nat × BitVec w)} {c : Nat × BitVec w},
      risingAbove (some c.1) l = true → readCell dflt l c.1 = dflt c.1 := by
    intro l c hl
    rw [readCell, lookupCell_eq_none_of_above hl (by simp [Above])]
    rfl
  induction m generalizing lo n with
  | nil =>
    cases n with
    | nil => rfl
    | cons d n =>
      have := h d.1
      rw [readCell_head, readCell_nil] at this
      exact absurd this.symm (dn d List.mem_cons_self)
  | cons c m ih =>
    cases n with
    | nil =>
      have := h c.1
      rw [readCell_head, readCell_nil] at this
      exact absurd this (dm c List.mem_cons_self)
    | cons d n =>
      rw [risingAbove_cons] at hm hn
      have hcd : c.1 = d.1 := by
        rcases lt_trichotomy c.1 d.1 with hlt | heq | hgt
        · have e := h c.1
          rw [readCell_head, readCell_tail (by omega), readCell, lookupCell_eq_none_of_above hn.2
            (by simp [Above]; omega)] at e
          exact absurd e (dm c List.mem_cons_self)
        · exact heq
        · have e := h d.1
          rw [readCell_head, readCell_tail (by omega), readCell, lookupCell_eq_none_of_above hm.2
            (by simp [Above]; omega)] at e
          exact absurd e.symm (dn d List.mem_cons_self)
      have hv : c.2 = d.2 := by
        have e := h c.1
        rwa [readCell_head, hcd, readCell_head] at e
      obtain rfl : c = d := Prod.ext hcd hv
      refine congrArg _ (ih hm.2 hn.2 (fun e he => dm e (List.mem_cons_of_mem _ he))
        (fun e he => dn e (List.mem_cons_of_mem _ he)) fun a => ?_)
      by_cases hca : c.1 = a
      · rw [← hca, below hm.2, below hn.2]
      · have e := h a
        rwa [readCell_tail hca, readCell_tail hca] at e

/-- Two arrays in canonical form that read alike are the same data. -/
theorem canonical_ext (hm : canonical dflt size m = true) (hn : canonical dflt size n = true)
    (h : ∀ a, readCell dflt m a = readCell dflt n a) : m = n := by
  rw [canonical_iff] at hm hn
  exact risingAbove_ext hm.1 hn.1 (fun c hc => (hm.2 c hc).2) (fun c hc => (hn.2 c hc).2) h

end Sys2Proof.Laws
end

