-- ==== Sys2Proof/Laws/Lut.lean ====
section
/-! SUPPORT. The laws of the LUT, of the SSE index and of the two static tables: each function of
Machine/Lut.lean and Machine/BitHistory.lean in plain arithmetic. -/

namespace Sys2Proof.Laws

open Sys2Proof.Machine

theorem squash_of_lt {P : Params} {x : Int} (h : x < -2047) : squash P x = 0 := by
  simp [squash, h]

theorem squash_of_gt {P : Params} {x : Int} (h : x > 2047) : squash P x = 4095 := by
  have : ¬ x < -2047 := by omega
  simp [squash, h, this]

theorem squash_of_index {P : Params} {x : Int} (n : Fin 4095) (h : x = (n.val : Int) - 2047) :
    squash P x = P.squashTable n := by
  have h1 : ¬ x < -2047 := by omega
  have h2 : ¬ x > 2047 := by omega
  have h3 : (x + 2047).toNat = n.val := by omega
  simp [squash, h1, h2, h3]

theorem knotOf_val (s : BitVec 12) : ((knotOf s).val : Int) = (s.toInt + 2048) / 128 := by
  have h := BitVec.le_toInt s
  simp only [knotOf]
  rw [Int.shiftRight_eq_div_pow]
  omega

@[simp] theorem cellIndex_val (k : Fin 32) (cx : BitVec 16) :
    (cellIndex k cx).val = k.val + cx.toNat * 33 := rfl

theorem resetIndex_val (P : Params) :
    ((resetIndex P).val : Int) = ((stretch P 2048).toInt + 2048) / 128 + 33 := by
  have := knotOf_val (stretch P 2048)
  simp [resetIndex]
  omega

theorem knotTemplate_toNat (P : Params) (j : Nat) :
    (knotTemplate P j).toNat = (squash P (((j : Int) - 16) * 128)).toNat * 16 := by
  have h := (squash P (((j : Int) - 16) * 2 ^ 7)).isLt
  have e : (((j : Int) - 16) * 2 ^ 7) = (((j : Int) - 16) * 128) := by norm_num
  rw [knotTemplate, BitVec.toNat_shiftLeft, BitVec.toNat_setWidth, Nat.shiftLeft_eq, e] at *
  omega

theorem knotTemplate_bounds (P : Params) (j : Nat) :
    0 ≤ (knotTemplate P j).toInt ∧ (knotTemplate P j).toInt ≤ 65520 := by
  have h := knotTemplate_toNat P j
  have hs := (squash P (((j : Int) - 16) * 128)).isLt
  rw [BitVec.toInt_eq_toNat_of_lt (by omega)]
  omega

theorem knotTemplate_first (P : Params) : knotTemplate P 0 = 0 := by
  apply BitVec.eq_of_toNat_eq
  rw [knotTemplate_toNat, squash_of_lt (by norm_num)]
  rfl

theorem knotTemplate_last (P : Params) : knotTemplate P 32 = 65520 := by
  apply BitVec.eq_of_toNat_eq
  rw [knotTemplate_toNat, squash_of_gt (by norm_num)]
  rfl

theorem apmTemplate_row (P : Params) (r : Nat) {j : Nat} (h : j < 33) :
    apmTemplate P (33 * r + j) = knotTemplate P j := by
  rw [apmTemplate]
  congr 1
  simp only [Config.apmKnots]
  omega

theorem nextState_padding {P : Params} {q : Byte} (h : 253 ≤ q.toNat) (b : Bit) :
    nextState P q b = 0 := by
  simp [nextState, show ¬ q.toNat < 253 by omega]

/-- The weight of R188 in plain arithmetic: the remainder of the stretched value by 128. -/
theorem knotWeight_val (s : BitVec 12) : (knotWeight s : Int) = s.toInt % 128 := by
  have h : (s &&& 127).toNat = s.toNat % 128 := by
    rw [BitVec.toNat_and]
    exact Nat.and_two_pow_sub_one_eq_mod s.toNat 7
  rw [knotWeight, h, BitVec.toInt_eq_toNat_cond]
  split <;> omega

end Sys2Proof.Laws
end

