-- ==== Sys2Proof/Laws/State.lean ====
section
/-! SUPPORT. One lemma per field per update of the state, each true by `rfl` for a state taken apart:
what a write sets and what it leaves alone, so that no later proof unfolds a record update. Then the
same for the operations made of such writes. -/

namespace Sys2Proof.Laws

open Sys2Proof.Machine

variable (s : State)

section
variable (v : BitVec 12)
@[simp] theorem withPr_pr : (s.withPr v).pr = v := by cases s; rfl
@[simp] theorem withPr_c0 : (s.withPr v).c0 = s.c0 := by cases s; rfl
@[simp] theorem withPr_bpos : (s.withPr v).bpos = s.bpos := by cases s; rfl
@[simp] theorem withPr_c4 : (s.withPr v).c4 = s.c4 := by cases s; rfl
@[simp] theorem withPr_pos : (s.withPr v).pos = s.pos := by cases s; rfl
@[simp] theorem withPr_hash : (s.withPr v).hash = s.hash := by cases s; rfl
@[simp] theorem withPr_matchLen : (s.withPr v).matchLen = s.matchLen := by cases s; rfl
@[simp] theorem withPr_matchPos : (s.withPr v).matchPos = s.matchPos := by cases s; rfl
@[simp] theorem withPr_ctx : (s.withPr v).ctx = s.ctx := by cases s; rfl
@[simp] theorem withPr_cp : (s.withPr v).cp = s.cp := by cases s; rfl
@[simp] theorem withPr_mixer : (s.withPr v).mixer = s.mixer := by cases s; rfl
@[simp] theorem withPr_ctxm : (s.withPr v).ctxm = s.ctxm := by cases s; rfl
@[simp] theorem withPr_mcur : (s.withPr v).mcur = s.mcur := by cases s; rfl
@[simp] theorem withPr_mpr : (s.withPr v).mpr = s.mpr := by cases s; rfl
@[simp] theorem withPr_apm : (s.withPr v).apm = s.apm := by cases s; rfl
@[simp] theorem withPr_aidx : (s.withPr v).aidx = s.aidx := by cases s; rfl
@[simp] theorem withPr_buffer : (s.withPr v).buffer = s.buffer := by cases s; rfl
@[simp] theorem withPr_states : (s.withPr v).states = s.states := by cases s; rfl
@[simp] theorem withPr_hashes : (s.withPr v).hashes = s.hashes := by cases s; rfl
@[simp] theorem withPr_status : (s.withPr v).status = s.status := by cases s; rfl
@[simp] theorem withPr_cmds : (s.withPr v).cmds = s.cmds := by cases s; rfl
@[simp] theorem withPr_resp : (s.withPr v).resp = s.resp := by cases s; rfl
end

section
variable (c0 : BitVec 8) (bpos : BitVec 3)
@[simp] theorem withPartial_pr : (s.withPartial c0 bpos).pr = s.pr := by cases s; rfl
@[simp] theorem withPartial_c0 : (s.withPartial c0 bpos).c0 = c0 := by cases s; rfl
@[simp] theorem withPartial_bpos : (s.withPartial c0 bpos).bpos = bpos := by cases s; rfl
@[simp] theorem withPartial_c4 : (s.withPartial c0 bpos).c4 = s.c4 := by cases s; rfl
@[simp] theorem withPartial_pos : (s.withPartial c0 bpos).pos = s.pos := by cases s; rfl
@[simp] theorem withPartial_hash : (s.withPartial c0 bpos).hash = s.hash := by cases s; rfl
@[simp] theorem withPartial_matchLen : (s.withPartial c0 bpos).matchLen = s.matchLen := by cases s; rfl
@[simp] theorem withPartial_matchPos : (s.withPartial c0 bpos).matchPos = s.matchPos := by cases s; rfl
@[simp] theorem withPartial_ctx : (s.withPartial c0 bpos).ctx = s.ctx := by cases s; rfl
@[simp] theorem withPartial_cp : (s.withPartial c0 bpos).cp = s.cp := by cases s; rfl
@[simp] theorem withPartial_mixer : (s.withPartial c0 bpos).mixer = s.mixer := by cases s; rfl
@[simp] theorem withPartial_ctxm : (s.withPartial c0 bpos).ctxm = s.ctxm := by cases s; rfl
@[simp] theorem withPartial_mcur : (s.withPartial c0 bpos).mcur = s.mcur := by cases s; rfl
@[simp] theorem withPartial_mpr : (s.withPartial c0 bpos).mpr = s.mpr := by cases s; rfl
@[simp] theorem withPartial_apm : (s.withPartial c0 bpos).apm = s.apm := by cases s; rfl
@[simp] theorem withPartial_aidx : (s.withPartial c0 bpos).aidx = s.aidx := by cases s; rfl
@[simp] theorem withPartial_buffer : (s.withPartial c0 bpos).buffer = s.buffer := by cases s; rfl
@[simp] theorem withPartial_states : (s.withPartial c0 bpos).states = s.states := by cases s; rfl
@[simp] theorem withPartial_hashes : (s.withPartial c0 bpos).hashes = s.hashes := by cases s; rfl
@[simp] theorem withPartial_status : (s.withPartial c0 bpos).status = s.status := by cases s; rfl
@[simp] theorem withPartial_cmds : (s.withPartial c0 bpos).cmds = s.cmds := by cases s; rfl
@[simp] theorem withPartial_resp : (s.withPartial c0 bpos).resp = s.resp := by cases s; rfl
end

section
variable (pos c4 : W32) (hash : BitVec 23)
@[simp] theorem withCounted_pr : (s.withCounted pos c4 hash).pr = s.pr := by cases s; rfl
@[simp] theorem withCounted_c0 : (s.withCounted pos c4 hash).c0 = s.c0 := by cases s; rfl
@[simp] theorem withCounted_bpos : (s.withCounted pos c4 hash).bpos = s.bpos := by cases s; rfl
@[simp] theorem withCounted_c4 : (s.withCounted pos c4 hash).c4 = c4 := by cases s; rfl
@[simp] theorem withCounted_pos : (s.withCounted pos c4 hash).pos = pos := by cases s; rfl
@[simp] theorem withCounted_hash : (s.withCounted pos c4 hash).hash = hash := by cases s; rfl
@[simp] theorem withCounted_matchLen : (s.withCounted pos c4 hash).matchLen = s.matchLen := by cases s; rfl
@[simp] theorem withCounted_matchPos : (s.withCounted pos c4 hash).matchPos = s.matchPos := by cases s; rfl
@[simp] theorem withCounted_ctx : (s.withCounted pos c4 hash).ctx = s.ctx := by cases s; rfl
@[simp] theorem withCounted_cp : (s.withCounted pos c4 hash).cp = s.cp := by cases s; rfl
@[simp] theorem withCounted_mixer : (s.withCounted pos c4 hash).mixer = s.mixer := by cases s; rfl
@[simp] theorem withCounted_ctxm : (s.withCounted pos c4 hash).ctxm = s.ctxm := by cases s; rfl
@[simp] theorem withCounted_mcur : (s.withCounted pos c4 hash).mcur = s.mcur := by cases s; rfl
@[simp] theorem withCounted_mpr : (s.withCounted pos c4 hash).mpr = s.mpr := by cases s; rfl
@[simp] theorem withCounted_apm : (s.withCounted pos c4 hash).apm = s.apm := by cases s; rfl
@[simp] theorem withCounted_aidx : (s.withCounted pos c4 hash).aidx = s.aidx := by cases s; rfl
@[simp] theorem withCounted_buffer : (s.withCounted pos c4 hash).buffer = s.buffer := by cases s; rfl
@[simp] theorem withCounted_states : (s.withCounted pos c4 hash).states = s.states := by cases s; rfl
@[simp] theorem withCounted_hashes : (s.withCounted pos c4 hash).hashes = s.hashes := by cases s; rfl
@[simp] theorem withCounted_status : (s.withCounted pos c4 hash).status = s.status := by cases s; rfl
@[simp] theorem withCounted_cmds : (s.withCounted pos c4 hash).cmds = s.cmds := by cases s; rfl
@[simp] theorem withCounted_resp : (s.withCounted pos c4 hash).resp = s.resp := by cases s; rfl
end

section
variable (len : BitVec 8) (pos : W32)
@[simp] theorem withMatch_pr : (s.withMatch len pos).pr = s.pr := by cases s; rfl
@[simp] theorem withMatch_c0 : (s.withMatch len pos).c0 = s.c0 := by cases s; rfl
@[simp] theorem withMatch_bpos : (s.withMatch len pos).bpos = s.bpos := by cases s; rfl
@[simp] theorem withMatch_c4 : (s.withMatch len pos).c4 = s.c4 := by cases s; rfl
@[simp] theorem withMatch_pos : (s.withMatch len pos).pos = s.pos := by cases s; rfl
@[simp] theorem withMatch_hash : (s.withMatch len pos).hash = s.hash := by cases s; rfl
@[simp] theorem withMatch_matchLen : (s.withMatch len pos).matchLen = len := by cases s; rfl
@[simp] theorem withMatch_matchPos : (s.withMatch len pos).matchPos = pos := by cases s; rfl
@[simp] theorem withMatch_ctx : (s.withMatch len pos).ctx = s.ctx := by cases s; rfl
@[simp] theorem withMatch_cp : (s.withMatch len pos).cp = s.cp := by cases s; rfl
@[simp] theorem withMatch_mixer : (s.withMatch len pos).mixer = s.mixer := by cases s; rfl
@[simp] theorem withMatch_ctxm : (s.withMatch len pos).ctxm = s.ctxm := by cases s; rfl
@[simp] theorem withMatch_mcur : (s.withMatch len pos).mcur = s.mcur := by cases s; rfl
@[simp] theorem withMatch_mpr : (s.withMatch len pos).mpr = s.mpr := by cases s; rfl
@[simp] theorem withMatch_apm : (s.withMatch len pos).apm = s.apm := by cases s; rfl
@[simp] theorem withMatch_aidx : (s.withMatch len pos).aidx = s.aidx := by cases s; rfl
@[simp] theorem withMatch_buffer : (s.withMatch len pos).buffer = s.buffer := by cases s; rfl
@[simp] theorem withMatch_states : (s.withMatch len pos).states = s.states := by cases s; rfl
@[simp] theorem withMatch_hashes : (s.withMatch len pos).hashes = s.hashes := by cases s; rfl
@[simp] theorem withMatch_status : (s.withMatch len pos).status = s.status := by cases s; rfl
@[simp] theorem withMatch_cmds : (s.withMatch len pos).cmds = s.cmds := by cases s; rfl
@[simp] theorem withMatch_resp : (s.withMatch len pos).resp = s.resp := by cases s; rfl
end

section
variable (v : Vector (BitVec 28) 7)
@[simp] theorem withCtx_pr : (s.withCtx v).pr = s.pr := by cases s; rfl
@[simp] theorem withCtx_c0 : (s.withCtx v).c0 = s.c0 := by cases s; rfl
@[simp] theorem withCtx_bpos : (s.withCtx v).bpos = s.bpos := by cases s; rfl
@[simp] theorem withCtx_c4 : (s.withCtx v).c4 = s.c4 := by cases s; rfl
@[simp] theorem withCtx_pos : (s.withCtx v).pos = s.pos := by cases s; rfl
@[simp] theorem withCtx_hash : (s.withCtx v).hash = s.hash := by cases s; rfl
@[simp] theorem withCtx_matchLen : (s.withCtx v).matchLen = s.matchLen := by cases s; rfl
@[simp] theorem withCtx_matchPos : (s.withCtx v).matchPos = s.matchPos := by cases s; rfl
@[simp] theorem withCtx_ctx : (s.withCtx v).ctx = v := by cases s; rfl
@[simp] theorem withCtx_cp : (s.withCtx v).cp = s.cp := by cases s; rfl
@[simp] theorem withCtx_mixer : (s.withCtx v).mixer = s.mixer := by cases s; rfl
@[simp] theorem withCtx_ctxm : (s.withCtx v).ctxm = s.ctxm := by cases s; rfl
@[simp] theorem withCtx_mcur : (s.withCtx v).mcur = s.mcur := by cases s; rfl
@[simp] theorem withCtx_mpr : (s.withCtx v).mpr = s.mpr := by cases s; rfl
@[simp] theorem withCtx_apm : (s.withCtx v).apm = s.apm := by cases s; rfl
@[simp] theorem withCtx_aidx : (s.withCtx v).aidx = s.aidx := by cases s; rfl
@[simp] theorem withCtx_buffer : (s.withCtx v).buffer = s.buffer := by cases s; rfl
@[simp] theorem withCtx_states : (s.withCtx v).states = s.states := by cases s; rfl
@[simp] theorem withCtx_hashes : (s.withCtx v).hashes = s.hashes := by cases s; rfl
@[simp] theorem withCtx_status : (s.withCtx v).status = s.status := by cases s; rfl
@[simp] theorem withCtx_cmds : (s.withCtx v).cmds = s.cmds := by cases s; rfl
@[simp] theorem withCtx_resp : (s.withCtx v).resp = s.resp := by cases s; rfl
end

section
variable (v : Vector (BitVec 28) 7)
@[simp] theorem withCp_pr : (s.withCp v).pr = s.pr := by cases s; rfl
@[simp] theorem withCp_c0 : (s.withCp v).c0 = s.c0 := by cases s; rfl
@[simp] theorem withCp_bpos : (s.withCp v).bpos = s.bpos := by cases s; rfl
@[simp] theorem withCp_c4 : (s.withCp v).c4 = s.c4 := by cases s; rfl
@[simp] theorem withCp_pos : (s.withCp v).pos = s.pos := by cases s; rfl
@[simp] theorem withCp_hash : (s.withCp v).hash = s.hash := by cases s; rfl
@[simp] theorem withCp_matchLen : (s.withCp v).matchLen = s.matchLen := by cases s; rfl
@[simp] theorem withCp_matchPos : (s.withCp v).matchPos = s.matchPos := by cases s; rfl
@[simp] theorem withCp_ctx : (s.withCp v).ctx = s.ctx := by cases s; rfl
@[simp] theorem withCp_cp : (s.withCp v).cp = v := by cases s; rfl
@[simp] theorem withCp_mixer : (s.withCp v).mixer = s.mixer := by cases s; rfl
@[simp] theorem withCp_ctxm : (s.withCp v).ctxm = s.ctxm := by cases s; rfl
@[simp] theorem withCp_mcur : (s.withCp v).mcur = s.mcur := by cases s; rfl
@[simp] theorem withCp_mpr : (s.withCp v).mpr = s.mpr := by cases s; rfl
@[simp] theorem withCp_apm : (s.withCp v).apm = s.apm := by cases s; rfl
@[simp] theorem withCp_aidx : (s.withCp v).aidx = s.aidx := by cases s; rfl
@[simp] theorem withCp_buffer : (s.withCp v).buffer = s.buffer := by cases s; rfl
@[simp] theorem withCp_states : (s.withCp v).states = s.states := by cases s; rfl
@[simp] theorem withCp_hashes : (s.withCp v).hashes = s.hashes := by cases s; rfl
@[simp] theorem withCp_status : (s.withCp v).status = s.status := by cases s; rfl
@[simp] theorem withCp_cmds : (s.withCp v).cmds = s.cmds := by cases s; rfl
@[simp] theorem withCp_resp : (s.withCp v).resp = s.resp := by cases s; rfl
end

section
variable (m : List WordCell) (cur : Fin 9)
@[simp] theorem withMixer_pr : (s.withMixer m cur).pr = s.pr := by cases s; rfl
@[simp] theorem withMixer_c0 : (s.withMixer m cur).c0 = s.c0 := by cases s; rfl
@[simp] theorem withMixer_bpos : (s.withMixer m cur).bpos = s.bpos := by cases s; rfl
@[simp] theorem withMixer_c4 : (s.withMixer m cur).c4 = s.c4 := by cases s; rfl
@[simp] theorem withMixer_pos : (s.withMixer m cur).pos = s.pos := by cases s; rfl
@[simp] theorem withMixer_hash : (s.withMixer m cur).hash = s.hash := by cases s; rfl
@[simp] theorem withMixer_matchLen : (s.withMixer m cur).matchLen = s.matchLen := by cases s; rfl
@[simp] theorem withMixer_matchPos : (s.withMixer m cur).matchPos = s.matchPos := by cases s; rfl
@[simp] theorem withMixer_ctx : (s.withMixer m cur).ctx = s.ctx := by cases s; rfl
@[simp] theorem withMixer_cp : (s.withMixer m cur).cp = s.cp := by cases s; rfl
@[simp] theorem withMixer_mixer : (s.withMixer m cur).mixer = m := by cases s; rfl
@[simp] theorem withMixer_ctxm : (s.withMixer m cur).ctxm = s.ctxm := by cases s; rfl
@[simp] theorem withMixer_mcur : (s.withMixer m cur).mcur = cur := by cases s; rfl
@[simp] theorem withMixer_mpr : (s.withMixer m cur).mpr = s.mpr := by cases s; rfl
@[simp] theorem withMixer_apm : (s.withMixer m cur).apm = s.apm := by cases s; rfl
@[simp] theorem withMixer_aidx : (s.withMixer m cur).aidx = s.aidx := by cases s; rfl
@[simp] theorem withMixer_buffer : (s.withMixer m cur).buffer = s.buffer := by cases s; rfl
@[simp] theorem withMixer_states : (s.withMixer m cur).states = s.states := by cases s; rfl
@[simp] theorem withMixer_hashes : (s.withMixer m cur).hashes = s.hashes := by cases s; rfl
@[simp] theorem withMixer_status : (s.withMixer m cur).status = s.status := by cases s; rfl
@[simp] theorem withMixer_cmds : (s.withMixer m cur).cmds = s.cmds := by cases s; rfl
@[simp] theorem withMixer_resp : (s.withMixer m cur).resp = s.resp := by cases s; rfl
end

section
variable (v : BitVec 12)
@[simp] theorem withCtxm_pr : (s.withCtxm v).pr = s.pr := by cases s; rfl
@[simp] theorem withCtxm_c0 : (s.withCtxm v).c0 = s.c0 := by cases s; rfl
@[simp] theorem withCtxm_bpos : (s.withCtxm v).bpos = s.bpos := by cases s; rfl
@[simp] theorem withCtxm_c4 : (s.withCtxm v).c4 = s.c4 := by cases s; rfl
@[simp] theorem withCtxm_pos : (s.withCtxm v).pos = s.pos := by cases s; rfl
@[simp] theorem withCtxm_hash : (s.withCtxm v).hash = s.hash := by cases s; rfl
@[simp] theorem withCtxm_matchLen : (s.withCtxm v).matchLen = s.matchLen := by cases s; rfl
@[simp] theorem withCtxm_matchPos : (s.withCtxm v).matchPos = s.matchPos := by cases s; rfl
@[simp] theorem withCtxm_ctx : (s.withCtxm v).ctx = s.ctx := by cases s; rfl
@[simp] theorem withCtxm_cp : (s.withCtxm v).cp = s.cp := by cases s; rfl
@[simp] theorem withCtxm_mixer : (s.withCtxm v).mixer = s.mixer := by cases s; rfl
@[simp] theorem withCtxm_ctxm : (s.withCtxm v).ctxm = v := by cases s; rfl
@[simp] theorem withCtxm_mcur : (s.withCtxm v).mcur = s.mcur := by cases s; rfl
@[simp] theorem withCtxm_mpr : (s.withCtxm v).mpr = s.mpr := by cases s; rfl
@[simp] theorem withCtxm_apm : (s.withCtxm v).apm = s.apm := by cases s; rfl
@[simp] theorem withCtxm_aidx : (s.withCtxm v).aidx = s.aidx := by cases s; rfl
@[simp] theorem withCtxm_buffer : (s.withCtxm v).buffer = s.buffer := by cases s; rfl
@[simp] theorem withCtxm_states : (s.withCtxm v).states = s.states := by cases s; rfl
@[simp] theorem withCtxm_hashes : (s.withCtxm v).hashes = s.hashes := by cases s; rfl
@[simp] theorem withCtxm_status : (s.withCtxm v).status = s.status := by cases s; rfl
@[simp] theorem withCtxm_cmds : (s.withCtxm v).cmds = s.cmds := by cases s; rfl
@[simp] theorem withCtxm_resp : (s.withCtxm v).resp = s.resp := by cases s; rfl
end

section
variable (v : BitVec 12)
@[simp] theorem withMpr_pr : (s.withMpr v).pr = s.pr := by cases s; rfl
@[simp] theorem withMpr_c0 : (s.withMpr v).c0 = s.c0 := by cases s; rfl
@[simp] theorem withMpr_bpos : (s.withMpr v).bpos = s.bpos := by cases s; rfl
@[simp] theorem withMpr_c4 : (s.withMpr v).c4 = s.c4 := by cases s; rfl
@[simp] theorem withMpr_pos : (s.withMpr v).pos = s.pos := by cases s; rfl
@[simp] theorem withMpr_hash : (s.withMpr v).hash = s.hash := by cases s; rfl
@[simp] theorem withMpr_matchLen : (s.withMpr v).matchLen = s.matchLen := by cases s; rfl
@[simp] theorem withMpr_matchPos : (s.withMpr v).matchPos = s.matchPos := by cases s; rfl
@[simp] theorem withMpr_ctx : (s.withMpr v).ctx = s.ctx := by cases s; rfl
@[simp] theorem withMpr_cp : (s.withMpr v).cp = s.cp := by cases s; rfl
@[simp] theorem withMpr_mixer : (s.withMpr v).mixer = s.mixer := by cases s; rfl
@[simp] theorem withMpr_ctxm : (s.withMpr v).ctxm = s.ctxm := by cases s; rfl
@[simp] theorem withMpr_mcur : (s.withMpr v).mcur = s.mcur := by cases s; rfl
@[simp] theorem withMpr_mpr : (s.withMpr v).mpr = v := by cases s; rfl
@[simp] theorem withMpr_apm : (s.withMpr v).apm = s.apm := by cases s; rfl
@[simp] theorem withMpr_aidx : (s.withMpr v).aidx = s.aidx := by cases s; rfl
@[simp] theorem withMpr_buffer : (s.withMpr v).buffer = s.buffer := by cases s; rfl
@[simp] theorem withMpr_states : (s.withMpr v).states = s.states := by cases s; rfl
@[simp] theorem withMpr_hashes : (s.withMpr v).hashes = s.hashes := by cases s; rfl
@[simp] theorem withMpr_status : (s.withMpr v).status = s.status := by cases s; rfl
@[simp] theorem withMpr_cmds : (s.withMpr v).cmds = s.cmds := by cases s; rfl
@[simp] theorem withMpr_resp : (s.withMpr v).resp = s.resp := by cases s; rfl
end

section
variable (m : List WordCell)
@[simp] theorem withApm_pr : (s.withApm m).pr = s.pr := by cases s; rfl
@[simp] theorem withApm_c0 : (s.withApm m).c0 = s.c0 := by cases s; rfl
@[simp] theorem withApm_bpos : (s.withApm m).bpos = s.bpos := by cases s; rfl
@[simp] theorem withApm_c4 : (s.withApm m).c4 = s.c4 := by cases s; rfl
@[simp] theorem withApm_pos : (s.withApm m).pos = s.pos := by cases s; rfl
@[simp] theorem withApm_hash : (s.withApm m).hash = s.hash := by cases s; rfl
@[simp] theorem withApm_matchLen : (s.withApm m).matchLen = s.matchLen := by cases s; rfl
@[simp] theorem withApm_matchPos : (s.withApm m).matchPos = s.matchPos := by cases s; rfl
@[simp] theorem withApm_ctx : (s.withApm m).ctx = s.ctx := by cases s; rfl
@[simp] theorem withApm_cp : (s.withApm m).cp = s.cp := by cases s; rfl
@[simp] theorem withApm_mixer : (s.withApm m).mixer = s.mixer := by cases s; rfl
@[simp] theorem withApm_ctxm : (s.withApm m).ctxm = s.ctxm := by cases s; rfl
@[simp] theorem withApm_mcur : (s.withApm m).mcur = s.mcur := by cases s; rfl
@[simp] theorem withApm_mpr : (s.withApm m).mpr = s.mpr := by cases s; rfl
@[simp] theorem withApm_apm : (s.withApm m).apm = m := by cases s; rfl
@[simp] theorem withApm_aidx : (s.withApm m).aidx = s.aidx := by cases s; rfl
@[simp] theorem withApm_buffer : (s.withApm m).buffer = s.buffer := by cases s; rfl
@[simp] theorem withApm_states : (s.withApm m).states = s.states := by cases s; rfl
@[simp] theorem withApm_hashes : (s.withApm m).hashes = s.hashes := by cases s; rfl
@[simp] theorem withApm_status : (s.withApm m).status = s.status := by cases s; rfl
@[simp] theorem withApm_cmds : (s.withApm m).cmds = s.cmds := by cases s; rfl
@[simp] theorem withApm_resp : (s.withApm m).resp = s.resp := by cases s; rfl
end

section
variable (v : ApmIndex)
@[simp] theorem withAidx_pr : (s.withAidx v).pr = s.pr := by cases s; rfl
@[simp] theorem withAidx_c0 : (s.withAidx v).c0 = s.c0 := by cases s; rfl
@[simp] theorem withAidx_bpos : (s.withAidx v).bpos = s.bpos := by cases s; rfl
@[simp] theorem withAidx_c4 : (s.withAidx v).c4 = s.c4 := by cases s; rfl
@[simp] theorem withAidx_pos : (s.withAidx v).pos = s.pos := by cases s; rfl
@[simp] theorem withAidx_hash : (s.withAidx v).hash = s.hash := by cases s; rfl
@[simp] theorem withAidx_matchLen : (s.withAidx v).matchLen = s.matchLen := by cases s; rfl
@[simp] theorem withAidx_matchPos : (s.withAidx v).matchPos = s.matchPos := by cases s; rfl
@[simp] theorem withAidx_ctx : (s.withAidx v).ctx = s.ctx := by cases s; rfl
@[simp] theorem withAidx_cp : (s.withAidx v).cp = s.cp := by cases s; rfl
@[simp] theorem withAidx_mixer : (s.withAidx v).mixer = s.mixer := by cases s; rfl
@[simp] theorem withAidx_ctxm : (s.withAidx v).ctxm = s.ctxm := by cases s; rfl
@[simp] theorem withAidx_mcur : (s.withAidx v).mcur = s.mcur := by cases s; rfl
@[simp] theorem withAidx_mpr : (s.withAidx v).mpr = s.mpr := by cases s; rfl
@[simp] theorem withAidx_apm : (s.withAidx v).apm = s.apm := by cases s; rfl
@[simp] theorem withAidx_aidx : (s.withAidx v).aidx = v := by cases s; rfl
@[simp] theorem withAidx_buffer : (s.withAidx v).buffer = s.buffer := by cases s; rfl
@[simp] theorem withAidx_states : (s.withAidx v).states = s.states := by cases s; rfl
@[simp] theorem withAidx_hashes : (s.withAidx v).hashes = s.hashes := by cases s; rfl
@[simp] theorem withAidx_status : (s.withAidx v).status = s.status := by cases s; rfl
@[simp] theorem withAidx_cmds : (s.withAidx v).cmds = s.cmds := by cases s; rfl
@[simp] theorem withAidx_resp : (s.withAidx v).resp = s.resp := by cases s; rfl
end

section
variable (m : List Host.Cell)
@[simp] theorem withBuffer_pr : (s.withBuffer m).pr = s.pr := by cases s; rfl
@[simp] theorem withBuffer_c0 : (s.withBuffer m).c0 = s.c0 := by cases s; rfl
@[simp] theorem withBuffer_bpos : (s.withBuffer m).bpos = s.bpos := by cases s; rfl
@[simp] theorem withBuffer_c4 : (s.withBuffer m).c4 = s.c4 := by cases s; rfl
@[simp] theorem withBuffer_pos : (s.withBuffer m).pos = s.pos := by cases s; rfl
@[simp] theorem withBuffer_hash : (s.withBuffer m).hash = s.hash := by cases s; rfl
@[simp] theorem withBuffer_matchLen : (s.withBuffer m).matchLen = s.matchLen := by cases s; rfl
@[simp] theorem withBuffer_matchPos : (s.withBuffer m).matchPos = s.matchPos := by cases s; rfl
@[simp] theorem withBuffer_ctx : (s.withBuffer m).ctx = s.ctx := by cases s; rfl
@[simp] theorem withBuffer_cp : (s.withBuffer m).cp = s.cp := by cases s; rfl
@[simp] theorem withBuffer_mixer : (s.withBuffer m).mixer = s.mixer := by cases s; rfl
@[simp] theorem withBuffer_ctxm : (s.withBuffer m).ctxm = s.ctxm := by cases s; rfl
@[simp] theorem withBuffer_mcur : (s.withBuffer m).mcur = s.mcur := by cases s; rfl
@[simp] theorem withBuffer_mpr : (s.withBuffer m).mpr = s.mpr := by cases s; rfl
@[simp] theorem withBuffer_apm : (s.withBuffer m).apm = s.apm := by cases s; rfl
@[simp] theorem withBuffer_aidx : (s.withBuffer m).aidx = s.aidx := by cases s; rfl
@[simp] theorem withBuffer_buffer : (s.withBuffer m).buffer = m := by cases s; rfl
@[simp] theorem withBuffer_states : (s.withBuffer m).states = s.states := by cases s; rfl
@[simp] theorem withBuffer_hashes : (s.withBuffer m).hashes = s.hashes := by cases s; rfl
@[simp] theorem withBuffer_status : (s.withBuffer m).status = s.status := by cases s; rfl
@[simp] theorem withBuffer_cmds : (s.withBuffer m).cmds = s.cmds := by cases s; rfl
@[simp] theorem withBuffer_resp : (s.withBuffer m).resp = s.resp := by cases s; rfl
end

section
variable (m : List Host.Cell)
@[simp] theorem withStates_pr : (s.withStates m).pr = s.pr := by cases s; rfl
@[simp] theorem withStates_c0 : (s.withStates m).c0 = s.c0 := by cases s; rfl
@[simp] theorem withStates_bpos : (s.withStates m).bpos = s.bpos := by cases s; rfl
@[simp] theorem withStates_c4 : (s.withStates m).c4 = s.c4 := by cases s; rfl
@[simp] theorem withStates_pos : (s.withStates m).pos = s.pos := by cases s; rfl
@[simp] theorem withStates_hash : (s.withStates m).hash = s.hash := by cases s; rfl
@[simp] theorem withStates_matchLen : (s.withStates m).matchLen = s.matchLen := by cases s; rfl
@[simp] theorem withStates_matchPos : (s.withStates m).matchPos = s.matchPos := by cases s; rfl
@[simp] theorem withStates_ctx : (s.withStates m).ctx = s.ctx := by cases s; rfl
@[simp] theorem withStates_cp : (s.withStates m).cp = s.cp := by cases s; rfl
@[simp] theorem withStates_mixer : (s.withStates m).mixer = s.mixer := by cases s; rfl
@[simp] theorem withStates_ctxm : (s.withStates m).ctxm = s.ctxm := by cases s; rfl
@[simp] theorem withStates_mcur : (s.withStates m).mcur = s.mcur := by cases s; rfl
@[simp] theorem withStates_mpr : (s.withStates m).mpr = s.mpr := by cases s; rfl
@[simp] theorem withStates_apm : (s.withStates m).apm = s.apm := by cases s; rfl
@[simp] theorem withStates_aidx : (s.withStates m).aidx = s.aidx := by cases s; rfl
@[simp] theorem withStates_buffer : (s.withStates m).buffer = s.buffer := by cases s; rfl
@[simp] theorem withStates_states : (s.withStates m).states = m := by cases s; rfl
@[simp] theorem withStates_hashes : (s.withStates m).hashes = s.hashes := by cases s; rfl
@[simp] theorem withStates_status : (s.withStates m).status = s.status := by cases s; rfl
@[simp] theorem withStates_cmds : (s.withStates m).cmds = s.cmds := by cases s; rfl
@[simp] theorem withStates_resp : (s.withStates m).resp = s.resp := by cases s; rfl
end

section
variable (m : List WordCell)
@[simp] theorem withHashes_pr : (s.withHashes m).pr = s.pr := by cases s; rfl
@[simp] theorem withHashes_c0 : (s.withHashes m).c0 = s.c0 := by cases s; rfl
@[simp] theorem withHashes_bpos : (s.withHashes m).bpos = s.bpos := by cases s; rfl
@[simp] theorem withHashes_c4 : (s.withHashes m).c4 = s.c4 := by cases s; rfl
@[simp] theorem withHashes_pos : (s.withHashes m).pos = s.pos := by cases s; rfl
@[simp] theorem withHashes_hash : (s.withHashes m).hash = s.hash := by cases s; rfl
@[simp] theorem withHashes_matchLen : (s.withHashes m).matchLen = s.matchLen := by cases s; rfl
@[simp] theorem withHashes_matchPos : (s.withHashes m).matchPos = s.matchPos := by cases s; rfl
@[simp] theorem withHashes_ctx : (s.withHashes m).ctx = s.ctx := by cases s; rfl
@[simp] theorem withHashes_cp : (s.withHashes m).cp = s.cp := by cases s; rfl
@[simp] theorem withHashes_mixer : (s.withHashes m).mixer = s.mixer := by cases s; rfl
@[simp] theorem withHashes_ctxm : (s.withHashes m).ctxm = s.ctxm := by cases s; rfl
@[simp] theorem withHashes_mcur : (s.withHashes m).mcur = s.mcur := by cases s; rfl
@[simp] theorem withHashes_mpr : (s.withHashes m).mpr = s.mpr := by cases s; rfl
@[simp] theorem withHashes_apm : (s.withHashes m).apm = s.apm := by cases s; rfl
@[simp] theorem withHashes_aidx : (s.withHashes m).aidx = s.aidx := by cases s; rfl
@[simp] theorem withHashes_buffer : (s.withHashes m).buffer = s.buffer := by cases s; rfl
@[simp] theorem withHashes_states : (s.withHashes m).states = s.states := by cases s; rfl
@[simp] theorem withHashes_hashes : (s.withHashes m).hashes = m := by cases s; rfl
@[simp] theorem withHashes_status : (s.withHashes m).status = s.status := by cases s; rfl
@[simp] theorem withHashes_cmds : (s.withHashes m).cmds = s.cmds := by cases s; rfl
@[simp] theorem withHashes_resp : (s.withHashes m).resp = s.resp := by cases s; rfl
end

section
variable (v : Status)
@[simp] theorem withStatus_pr : (s.withStatus v).pr = s.pr := by cases s; rfl
@[simp] theorem withStatus_c0 : (s.withStatus v).c0 = s.c0 := by cases s; rfl
@[simp] theorem withStatus_bpos : (s.withStatus v).bpos = s.bpos := by cases s; rfl
@[simp] theorem withStatus_c4 : (s.withStatus v).c4 = s.c4 := by cases s; rfl
@[simp] theorem withStatus_pos : (s.withStatus v).pos = s.pos := by cases s; rfl
@[simp] theorem withStatus_hash : (s.withStatus v).hash = s.hash := by cases s; rfl
@[simp] theorem withStatus_matchLen : (s.withStatus v).matchLen = s.matchLen := by cases s; rfl
@[simp] theorem withStatus_matchPos : (s.withStatus v).matchPos = s.matchPos := by cases s; rfl
@[simp] theorem withStatus_ctx : (s.withStatus v).ctx = s.ctx := by cases s; rfl
@[simp] theorem withStatus_cp : (s.withStatus v).cp = s.cp := by cases s; rfl
@[simp] theorem withStatus_mixer : (s.withStatus v).mixer = s.mixer := by cases s; rfl
@[simp] theorem withStatus_ctxm : (s.withStatus v).ctxm = s.ctxm := by cases s; rfl
@[simp] theorem withStatus_mcur : (s.withStatus v).mcur = s.mcur := by cases s; rfl
@[simp] theorem withStatus_mpr : (s.withStatus v).mpr = s.mpr := by cases s; rfl
@[simp] theorem withStatus_apm : (s.withStatus v).apm = s.apm := by cases s; rfl
@[simp] theorem withStatus_aidx : (s.withStatus v).aidx = s.aidx := by cases s; rfl
@[simp] theorem withStatus_buffer : (s.withStatus v).buffer = s.buffer := by cases s; rfl
@[simp] theorem withStatus_states : (s.withStatus v).states = s.states := by cases s; rfl
@[simp] theorem withStatus_hashes : (s.withStatus v).hashes = s.hashes := by cases s; rfl
@[simp] theorem withStatus_status : (s.withStatus v).status = v := by cases s; rfl
@[simp] theorem withStatus_cmds : (s.withStatus v).cmds = s.cmds := by cases s; rfl
@[simp] theorem withStatus_resp : (s.withStatus v).resp = s.resp := by cases s; rfl
end

section
variable (l : List Word)
@[simp] theorem withCmds_pr : (s.withCmds l).pr = s.pr := by cases s; rfl
@[simp] theorem withCmds_c0 : (s.withCmds l).c0 = s.c0 := by cases s; rfl
@[simp] theorem withCmds_bpos : (s.withCmds l).bpos = s.bpos := by cases s; rfl
@[simp] theorem withCmds_c4 : (s.withCmds l).c4 = s.c4 := by cases s; rfl
@[simp] theorem withCmds_pos : (s.withCmds l).pos = s.pos := by cases s; rfl
@[simp] theorem withCmds_hash : (s.withCmds l).hash = s.hash := by cases s; rfl
@[simp] theorem withCmds_matchLen : (s.withCmds l).matchLen = s.matchLen := by cases s; rfl
@[simp] theorem withCmds_matchPos : (s.withCmds l).matchPos = s.matchPos := by cases s; rfl
@[simp] theorem withCmds_ctx : (s.withCmds l).ctx = s.ctx := by cases s; rfl
@[simp] theorem withCmds_cp : (s.withCmds l).cp = s.cp := by cases s; rfl
@[simp] theorem withCmds_mixer : (s.withCmds l).mixer = s.mixer := by cases s; rfl
@[simp] theorem withCmds_ctxm : (s.withCmds l).ctxm = s.ctxm := by cases s; rfl
@[simp] theorem withCmds_mcur : (s.withCmds l).mcur = s.mcur := by cases s; rfl
@[simp] theorem withCmds_mpr : (s.withCmds l).mpr = s.mpr := by cases s; rfl
@[simp] theorem withCmds_apm : (s.withCmds l).apm = s.apm := by cases s; rfl
@[simp] theorem withCmds_aidx : (s.withCmds l).aidx = s.aidx := by cases s; rfl
@[simp] theorem withCmds_buffer : (s.withCmds l).buffer = s.buffer := by cases s; rfl
@[simp] theorem withCmds_states : (s.withCmds l).states = s.states := by cases s; rfl
@[simp] theorem withCmds_hashes : (s.withCmds l).hashes = s.hashes := by cases s; rfl
@[simp] theorem withCmds_status : (s.withCmds l).status = s.status := by cases s; rfl
@[simp] theorem withCmds_cmds : (s.withCmds l).cmds = l := by cases s; rfl
@[simp] theorem withCmds_resp : (s.withCmds l).resp = s.resp := by cases s; rfl
end

section
variable (r : Response)
@[simp] theorem withResp_pr : (s.withResp r).pr = s.pr := by cases s; rfl
@[simp] theorem withResp_c0 : (s.withResp r).c0 = s.c0 := by cases s; rfl
@[simp] theorem withResp_bpos : (s.withResp r).bpos = s.bpos := by cases s; rfl
@[simp] theorem withResp_c4 : (s.withResp r).c4 = s.c4 := by cases s; rfl
@[simp] theorem withResp_pos : (s.withResp r).pos = s.pos := by cases s; rfl
@[simp] theorem withResp_hash : (s.withResp r).hash = s.hash := by cases s; rfl
@[simp] theorem withResp_matchLen : (s.withResp r).matchLen = s.matchLen := by cases s; rfl
@[simp] theorem withResp_matchPos : (s.withResp r).matchPos = s.matchPos := by cases s; rfl
@[simp] theorem withResp_ctx : (s.withResp r).ctx = s.ctx := by cases s; rfl
@[simp] theorem withResp_cp : (s.withResp r).cp = s.cp := by cases s; rfl
@[simp] theorem withResp_mixer : (s.withResp r).mixer = s.mixer := by cases s; rfl
@[simp] theorem withResp_ctxm : (s.withResp r).ctxm = s.ctxm := by cases s; rfl
@[simp] theorem withResp_mcur : (s.withResp r).mcur = s.mcur := by cases s; rfl
@[simp] theorem withResp_mpr : (s.withResp r).mpr = s.mpr := by cases s; rfl
@[simp] theorem withResp_apm : (s.withResp r).apm = s.apm := by cases s; rfl
@[simp] theorem withResp_aidx : (s.withResp r).aidx = s.aidx := by cases s; rfl
@[simp] theorem withResp_buffer : (s.withResp r).buffer = s.buffer := by cases s; rfl
@[simp] theorem withResp_states : (s.withResp r).states = s.states := by cases s; rfl
@[simp] theorem withResp_hashes : (s.withResp r).hashes = s.hashes := by cases s; rfl
@[simp] theorem withResp_status : (s.withResp r).status = s.status := by cases s; rfl
@[simp] theorem withResp_cmds : (s.withResp r).cmds = s.cmds := by cases s; rfl
@[simp] theorem withResp_resp : (s.withResp r).resp = r := by cases s; rfl
end

section
variable (P : Params) (v : W32) (x : Byte)
@[simp] theorem bufferWrite_pr : (bufferWrite P s v x).pr = s.pr := by simp [bufferWrite]
@[simp] theorem bufferWrite_c0 : (bufferWrite P s v x).c0 = s.c0 := by simp [bufferWrite]
@[simp] theorem bufferWrite_bpos : (bufferWrite P s v x).bpos = s.bpos := by simp [bufferWrite]
@[simp] theorem bufferWrite_c4 : (bufferWrite P s v x).c4 = s.c4 := by simp [bufferWrite]
@[simp] theorem bufferWrite_pos : (bufferWrite P s v x).pos = s.pos := by simp [bufferWrite]
@[simp] theorem bufferWrite_hash : (bufferWrite P s v x).hash = s.hash := by simp [bufferWrite]
@[simp] theorem bufferWrite_matchLen : (bufferWrite P s v x).matchLen = s.matchLen := by simp [bufferWrite]
@[simp] theorem bufferWrite_matchPos : (bufferWrite P s v x).matchPos = s.matchPos := by simp [bufferWrite]
@[simp] theorem bufferWrite_ctx : (bufferWrite P s v x).ctx = s.ctx := by simp [bufferWrite]
@[simp] theorem bufferWrite_cp : (bufferWrite P s v x).cp = s.cp := by simp [bufferWrite]
@[simp] theorem bufferWrite_mixer : (bufferWrite P s v x).mixer = s.mixer := by simp [bufferWrite]
@[simp] theorem bufferWrite_ctxm : (bufferWrite P s v x).ctxm = s.ctxm := by simp [bufferWrite]
@[simp] theorem bufferWrite_mcur : (bufferWrite P s v x).mcur = s.mcur := by simp [bufferWrite]
@[simp] theorem bufferWrite_mpr : (bufferWrite P s v x).mpr = s.mpr := by simp [bufferWrite]
@[simp] theorem bufferWrite_apm : (bufferWrite P s v x).apm = s.apm := by simp [bufferWrite]
@[simp] theorem bufferWrite_aidx : (bufferWrite P s v x).aidx = s.aidx := by simp [bufferWrite]
@[simp] theorem bufferWrite_states : (bufferWrite P s v x).states = s.states := by simp [bufferWrite]
@[simp] theorem bufferWrite_hashes : (bufferWrite P s v x).hashes = s.hashes := by simp [bufferWrite]
@[simp] theorem bufferWrite_status : (bufferWrite P s v x).status = s.status := by simp [bufferWrite]
@[simp] theorem bufferWrite_cmds : (bufferWrite P s v x).cmds = s.cmds := by simp [bufferWrite]
@[simp] theorem bufferWrite_resp : (bufferWrite P s v x).resp = s.resp := by simp [bufferWrite]
end

section
variable (P : Params) (v : BitVec 28) (x : Byte)
@[simp] theorem statesWrite_pr : (statesWrite P s v x).pr = s.pr := by simp [statesWrite]
@[simp] theorem statesWrite_c0 : (statesWrite P s v x).c0 = s.c0 := by simp [statesWrite]
@[simp] theorem statesWrite_bpos : (statesWrite P s v x).bpos = s.bpos := by simp [statesWrite]
@[simp] theorem statesWrite_c4 : (statesWrite P s v x).c4 = s.c4 := by simp [statesWrite]
@[simp] theorem statesWrite_pos : (statesWrite P s v x).pos = s.pos := by simp [statesWrite]
@[simp] theorem statesWrite_hash : (statesWrite P s v x).hash = s.hash := by simp [statesWrite]
@[simp] theorem statesWrite_matchLen : (statesWrite P s v x).matchLen = s.matchLen := by simp [statesWrite]
@[simp] theorem statesWrite_matchPos : (statesWrite P s v x).matchPos = s.matchPos := by simp [statesWrite]
@[simp] theorem statesWrite_ctx : (statesWrite P s v x).ctx = s.ctx := by simp [statesWrite]
@[simp] theorem statesWrite_cp : (statesWrite P s v x).cp = s.cp := by simp [statesWrite]
@[simp] theorem statesWrite_mixer : (statesWrite P s v x).mixer = s.mixer := by simp [statesWrite]
@[simp] theorem statesWrite_ctxm : (statesWrite P s v x).ctxm = s.ctxm := by simp [statesWrite]
@[simp] theorem statesWrite_mcur : (statesWrite P s v x).mcur = s.mcur := by simp [statesWrite]
@[simp] theorem statesWrite_mpr : (statesWrite P s v x).mpr = s.mpr := by simp [statesWrite]
@[simp] theorem statesWrite_apm : (statesWrite P s v x).apm = s.apm := by simp [statesWrite]
@[simp] theorem statesWrite_aidx : (statesWrite P s v x).aidx = s.aidx := by simp [statesWrite]
@[simp] theorem statesWrite_buffer : (statesWrite P s v x).buffer = s.buffer := by simp [statesWrite]
@[simp] theorem statesWrite_hashes : (statesWrite P s v x).hashes = s.hashes := by simp [statesWrite]
@[simp] theorem statesWrite_status : (statesWrite P s v x).status = s.status := by simp [statesWrite]
@[simp] theorem statesWrite_cmds : (statesWrite P s v x).cmds = s.cmds := by simp [statesWrite]
@[simp] theorem statesWrite_resp : (statesWrite P s v x).resp = s.resp := by simp [statesWrite]
end

section
variable (h : BitVec 23) (v : W32)
@[simp] theorem hashesWrite_pr : (hashesWrite s h v).pr = s.pr := by simp [hashesWrite]
@[simp] theorem hashesWrite_c0 : (hashesWrite s h v).c0 = s.c0 := by simp [hashesWrite]
@[simp] theorem hashesWrite_bpos : (hashesWrite s h v).bpos = s.bpos := by simp [hashesWrite]
@[simp] theorem hashesWrite_c4 : (hashesWrite s h v).c4 = s.c4 := by simp [hashesWrite]
@[simp] theorem hashesWrite_pos : (hashesWrite s h v).pos = s.pos := by simp [hashesWrite]
@[simp] theorem hashesWrite_hash : (hashesWrite s h v).hash = s.hash := by simp [hashesWrite]
@[simp] theorem hashesWrite_matchLen : (hashesWrite s h v).matchLen = s.matchLen := by simp [hashesWrite]
@[simp] theorem hashesWrite_matchPos : (hashesWrite s h v).matchPos = s.matchPos := by simp [hashesWrite]
@[simp] theorem hashesWrite_ctx : (hashesWrite s h v).ctx = s.ctx := by simp [hashesWrite]
@[simp] theorem hashesWrite_cp : (hashesWrite s h v).cp = s.cp := by simp [hashesWrite]
@[simp] theorem hashesWrite_mixer : (hashesWrite s h v).mixer = s.mixer := by simp [hashesWrite]
@[simp] theorem hashesWrite_ctxm : (hashesWrite s h v).ctxm = s.ctxm := by simp [hashesWrite]
@[simp] theorem hashesWrite_mcur : (hashesWrite s h v).mcur = s.mcur := by simp [hashesWrite]
@[simp] theorem hashesWrite_mpr : (hashesWrite s h v).mpr = s.mpr := by simp [hashesWrite]
@[simp] theorem hashesWrite_apm : (hashesWrite s h v).apm = s.apm := by simp [hashesWrite]
@[simp] theorem hashesWrite_aidx : (hashesWrite s h v).aidx = s.aidx := by simp [hashesWrite]
@[simp] theorem hashesWrite_buffer : (hashesWrite s h v).buffer = s.buffer := by simp [hashesWrite]
@[simp] theorem hashesWrite_states : (hashesWrite s h v).states = s.states := by simp [hashesWrite]
@[simp] theorem hashesWrite_status : (hashesWrite s h v).status = s.status := by simp [hashesWrite]
@[simp] theorem hashesWrite_cmds : (hashesWrite s h v).cmds = s.cmds := by simp [hashesWrite]
@[simp] theorem hashesWrite_resp : (hashesWrite s h v).resp = s.resp := by simp [hashesWrite]
end

section
variable (P : Params) (a : Nat) (v : W32)
@[simp] theorem apmWrite_pr : (apmWrite P s a v).pr = s.pr := by simp [apmWrite]
@[simp] theorem apmWrite_c0 : (apmWrite P s a v).c0 = s.c0 := by simp [apmWrite]
@[simp] theorem apmWrite_bpos : (apmWrite P s a v).bpos = s.bpos := by simp [apmWrite]
@[simp] theorem apmWrite_c4 : (apmWrite P s a v).c4 = s.c4 := by simp [apmWrite]
@[simp] theorem apmWrite_pos : (apmWrite P s a v).pos = s.pos := by simp [apmWrite]
@[simp] theorem apmWrite_hash : (apmWrite P s a v).hash = s.hash := by simp [apmWrite]
@[simp] theorem apmWrite_matchLen : (apmWrite P s a v).matchLen = s.matchLen := by simp [apmWrite]
@[simp] theorem apmWrite_matchPos : (apmWrite P s a v).matchPos = s.matchPos := by simp [apmWrite]
@[simp] theorem apmWrite_ctx : (apmWrite P s a v).ctx = s.ctx := by simp [apmWrite]
@[simp] theorem apmWrite_cp : (apmWrite P s a v).cp = s.cp := by simp [apmWrite]
@[simp] theorem apmWrite_mixer : (apmWrite P s a v).mixer = s.mixer := by simp [apmWrite]
@[simp] theorem apmWrite_ctxm : (apmWrite P s a v).ctxm = s.ctxm := by simp [apmWrite]
@[simp] theorem apmWrite_mcur : (apmWrite P s a v).mcur = s.mcur := by simp [apmWrite]
@[simp] theorem apmWrite_mpr : (apmWrite P s a v).mpr = s.mpr := by simp [apmWrite]
@[simp] theorem apmWrite_aidx : (apmWrite P s a v).aidx = s.aidx := by simp [apmWrite]
@[simp] theorem apmWrite_buffer : (apmWrite P s a v).buffer = s.buffer := by simp [apmWrite]
@[simp] theorem apmWrite_states : (apmWrite P s a v).states = s.states := by simp [apmWrite]
@[simp] theorem apmWrite_hashes : (apmWrite P s a v).hashes = s.hashes := by simp [apmWrite]
@[simp] theorem apmWrite_status : (apmWrite P s a v).status = s.status := by simp [apmWrite]
@[simp] theorem apmWrite_cmds : (apmWrite P s a v).cmds = s.cmds := by simp [apmWrite]
@[simp] theorem apmWrite_resp : (apmWrite P s a v).resp = s.resp := by simp [apmWrite]
end

section
variable (c : W32)
@[simp] theorem mixerSetContext_pr : (mixerSetContext c s).pr = s.pr := by simp [mixerSetContext]
@[simp] theorem mixerSetContext_c0 : (mixerSetContext c s).c0 = s.c0 := by simp [mixerSetContext]
@[simp] theorem mixerSetContext_bpos : (mixerSetContext c s).bpos = s.bpos := by simp [mixerSetContext]
@[simp] theorem mixerSetContext_c4 : (mixerSetContext c s).c4 = s.c4 := by simp [mixerSetContext]
@[simp] theorem mixerSetContext_pos : (mixerSetContext c s).pos = s.pos := by simp [mixerSetContext]
@[simp] theorem mixerSetContext_hash : (mixerSetContext c s).hash = s.hash := by simp [mixerSetContext]
@[simp] theorem mixerSetContext_matchLen : (mixerSetContext c s).matchLen = s.matchLen := by simp [mixerSetContext]
@[simp] theorem mixerSetContext_matchPos : (mixerSetContext c s).matchPos = s.matchPos := by simp [mixerSetContext]
@[simp] theorem mixerSetContext_ctx : (mixerSetContext c s).ctx = s.ctx := by simp [mixerSetContext]
@[simp] theorem mixerSetContext_cp : (mixerSetContext c s).cp = s.cp := by simp [mixerSetContext]
@[simp] theorem mixerSetContext_mixer : (mixerSetContext c s).mixer = s.mixer := by simp [mixerSetContext]
@[simp] theorem mixerSetContext_mcur : (mixerSetContext c s).mcur = s.mcur := by simp [mixerSetContext]
@[simp] theorem mixerSetContext_mpr : (mixerSetContext c s).mpr = s.mpr := by simp [mixerSetContext]
@[simp] theorem mixerSetContext_apm : (mixerSetContext c s).apm = s.apm := by simp [mixerSetContext]
@[simp] theorem mixerSetContext_aidx : (mixerSetContext c s).aidx = s.aidx := by simp [mixerSetContext]
@[simp] theorem mixerSetContext_buffer : (mixerSetContext c s).buffer = s.buffer := by simp [mixerSetContext]
@[simp] theorem mixerSetContext_states : (mixerSetContext c s).states = s.states := by simp [mixerSetContext]
@[simp] theorem mixerSetContext_hashes : (mixerSetContext c s).hashes = s.hashes := by simp [mixerSetContext]
@[simp] theorem mixerSetContext_status : (mixerSetContext c s).status = s.status := by simp [mixerSetContext]
@[simp] theorem mixerSetContext_cmds : (mixerSetContext c s).cmds = s.cmds := by simp [mixerSetContext]
@[simp] theorem mixerSetContext_resp : (mixerSetContext c s).resp = s.resp := by simp [mixerSetContext]
end

section
variable (b : Bit)
@[simp] theorem mixerUpdate_pr : (mixerUpdate b s).pr = s.pr := by simp [mixerUpdate]
@[simp] theorem mixerUpdate_c0 : (mixerUpdate b s).c0 = s.c0 := by simp [mixerUpdate]
@[simp] theorem mixerUpdate_bpos : (mixerUpdate b s).bpos = s.bpos := by simp [mixerUpdate]
@[simp] theorem mixerUpdate_c4 : (mixerUpdate b s).c4 = s.c4 := by simp [mixerUpdate]
@[simp] theorem mixerUpdate_pos : (mixerUpdate b s).pos = s.pos := by simp [mixerUpdate]
@[simp] theorem mixerUpdate_hash : (mixerUpdate b s).hash = s.hash := by simp [mixerUpdate]
@[simp] theorem mixerUpdate_matchLen : (mixerUpdate b s).matchLen = s.matchLen := by simp [mixerUpdate]
@[simp] theorem mixerUpdate_matchPos : (mixerUpdate b s).matchPos = s.matchPos := by simp [mixerUpdate]
@[simp] theorem mixerUpdate_ctx : (mixerUpdate b s).ctx = s.ctx := by simp [mixerUpdate]
@[simp] theorem mixerUpdate_cp : (mixerUpdate b s).cp = s.cp := by simp [mixerUpdate]
@[simp] theorem mixerUpdate_ctxm : (mixerUpdate b s).ctxm = s.ctxm := by simp [mixerUpdate]
@[simp] theorem mixerUpdate_mpr : (mixerUpdate b s).mpr = s.mpr := by simp [mixerUpdate]
@[simp] theorem mixerUpdate_apm : (mixerUpdate b s).apm = s.apm := by simp [mixerUpdate]
@[simp] theorem mixerUpdate_aidx : (mixerUpdate b s).aidx = s.aidx := by simp [mixerUpdate]
@[simp] theorem mixerUpdate_buffer : (mixerUpdate b s).buffer = s.buffer := by simp [mixerUpdate]
@[simp] theorem mixerUpdate_states : (mixerUpdate b s).states = s.states := by simp [mixerUpdate]
@[simp] theorem mixerUpdate_hashes : (mixerUpdate b s).hashes = s.hashes := by simp [mixerUpdate]
@[simp] theorem mixerUpdate_status : (mixerUpdate b s).status = s.status := by simp [mixerUpdate]
@[simp] theorem mixerUpdate_cmds : (mixerUpdate b s).cmds = s.cmds := by simp [mixerUpdate]
@[simp] theorem mixerUpdate_resp : (mixerUpdate b s).resp = s.resp := by simp [mixerUpdate]
end

section
variable (P : Params)
@[simp] theorem mixerGet_pr : (mixerGet P s).pr = s.pr := by simp [mixerGet]
@[simp] theorem mixerGet_c0 : (mixerGet P s).c0 = s.c0 := by simp [mixerGet]
@[simp] theorem mixerGet_bpos : (mixerGet P s).bpos = s.bpos := by simp [mixerGet]
@[simp] theorem mixerGet_c4 : (mixerGet P s).c4 = s.c4 := by simp [mixerGet]
@[simp] theorem mixerGet_pos : (mixerGet P s).pos = s.pos := by simp [mixerGet]
@[simp] theorem mixerGet_hash : (mixerGet P s).hash = s.hash := by simp [mixerGet]
@[simp] theorem mixerGet_matchLen : (mixerGet P s).matchLen = s.matchLen := by simp [mixerGet]
@[simp] theorem mixerGet_matchPos : (mixerGet P s).matchPos = s.matchPos := by simp [mixerGet]
@[simp] theorem mixerGet_ctx : (mixerGet P s).ctx = s.ctx := by simp [mixerGet]
@[simp] theorem mixerGet_cp : (mixerGet P s).cp = s.cp := by simp [mixerGet]
@[simp] theorem mixerGet_ctxm : (mixerGet P s).ctxm = s.ctxm := by simp [mixerGet]
@[simp] theorem mixerGet_apm : (mixerGet P s).apm = s.apm := by simp [mixerGet]
@[simp] theorem mixerGet_aidx : (mixerGet P s).aidx = s.aidx := by simp [mixerGet]
@[simp] theorem mixerGet_buffer : (mixerGet P s).buffer = s.buffer := by simp [mixerGet]
@[simp] theorem mixerGet_states : (mixerGet P s).states = s.states := by simp [mixerGet]
@[simp] theorem mixerGet_hashes : (mixerGet P s).hashes = s.hashes := by simp [mixerGet]
@[simp] theorem mixerGet_status : (mixerGet P s).status = s.status := by simp [mixerGet]
@[simp] theorem mixerGet_cmds : (mixerGet P s).cmds = s.cmds := by simp [mixerGet]
@[simp] theorem mixerGet_resp : (mixerGet P s).resp = s.resp := by simp [mixerGet]
end

section
variable (P : Params)
@[simp] theorem contextsRebuild_pr : (contextsRebuild P s).pr = s.pr := by simp [contextsRebuild]
@[simp] theorem contextsRebuild_c0 : (contextsRebuild P s).c0 = s.c0 := by simp [contextsRebuild]
@[simp] theorem contextsRebuild_bpos : (contextsRebuild P s).bpos = s.bpos := by simp [contextsRebuild]
@[simp] theorem contextsRebuild_c4 : (contextsRebuild P s).c4 = s.c4 := by simp [contextsRebuild]
@[simp] theorem contextsRebuild_pos : (contextsRebuild P s).pos = s.pos := by simp [contextsRebuild]
@[simp] theorem contextsRebuild_hash : (contextsRebuild P s).hash = s.hash := by simp [contextsRebuild]
@[simp] theorem contextsRebuild_matchLen : (contextsRebuild P s).matchLen = s.matchLen := by simp [contextsRebuild]
@[simp] theorem contextsRebuild_matchPos : (contextsRebuild P s).matchPos = s.matchPos := by simp [contextsRebuild]
@[simp] theorem contextsRebuild_cp : (contextsRebuild P s).cp = s.cp := by simp [contextsRebuild]
@[simp] theorem contextsRebuild_mixer : (contextsRebuild P s).mixer = s.mixer := by simp [contextsRebuild]
@[simp] theorem contextsRebuild_ctxm : (contextsRebuild P s).ctxm = s.ctxm := by simp [contextsRebuild]
@[simp] theorem contextsRebuild_mcur : (contextsRebuild P s).mcur = s.mcur := by simp [contextsRebuild]
@[simp] theorem contextsRebuild_mpr : (contextsRebuild P s).mpr = s.mpr := by simp [contextsRebuild]
@[simp] theorem contextsRebuild_apm : (contextsRebuild P s).apm = s.apm := by simp [contextsRebuild]
@[simp] theorem contextsRebuild_aidx : (contextsRebuild P s).aidx = s.aidx := by simp [contextsRebuild]
@[simp] theorem contextsRebuild_buffer : (contextsRebuild P s).buffer = s.buffer := by simp [contextsRebuild]
@[simp] theorem contextsRebuild_states : (contextsRebuild P s).states = s.states := by simp [contextsRebuild]
@[simp] theorem contextsRebuild_hashes : (contextsRebuild P s).hashes = s.hashes := by simp [contextsRebuild]
@[simp] theorem contextsRebuild_status : (contextsRebuild P s).status = s.status := by simp [contextsRebuild]
@[simp] theorem contextsRebuild_cmds : (contextsRebuild P s).cmds = s.cmds := by simp [contextsRebuild]
@[simp] theorem contextsRebuild_resp : (contextsRebuild P s).resp = s.resp := by simp [contextsRebuild]
end

section
variable (byte : Byte)
@[simp] theorem countByte_pr : (countByte byte s).pr = s.pr := by simp [countByte]
@[simp] theorem countByte_matchLen : (countByte byte s).matchLen = s.matchLen := by simp [countByte]
@[simp] theorem countByte_matchPos : (countByte byte s).matchPos = s.matchPos := by simp [countByte]
@[simp] theorem countByte_ctx : (countByte byte s).ctx = s.ctx := by simp [countByte]
@[simp] theorem countByte_cp : (countByte byte s).cp = s.cp := by simp [countByte]
@[simp] theorem countByte_mixer : (countByte byte s).mixer = s.mixer := by simp [countByte]
@[simp] theorem countByte_ctxm : (countByte byte s).ctxm = s.ctxm := by simp [countByte]
@[simp] theorem countByte_mcur : (countByte byte s).mcur = s.mcur := by simp [countByte]
@[simp] theorem countByte_mpr : (countByte byte s).mpr = s.mpr := by simp [countByte]
@[simp] theorem countByte_apm : (countByte byte s).apm = s.apm := by simp [countByte]
@[simp] theorem countByte_aidx : (countByte byte s).aidx = s.aidx := by simp [countByte]
@[simp] theorem countByte_buffer : (countByte byte s).buffer = s.buffer := by simp [countByte]
@[simp] theorem countByte_states : (countByte byte s).states = s.states := by simp [countByte]
@[simp] theorem countByte_hashes : (countByte byte s).hashes = s.hashes := by simp [countByte]
@[simp] theorem countByte_status : (countByte byte s).status = s.status := by simp [countByte]
@[simp] theorem countByte_cmds : (countByte byte s).cmds = s.cmds := by simp [countByte]
@[simp] theorem countByte_resp : (countByte byte s).resp = s.resp := by simp [countByte]
end

section
variable (P : Params)
@[simp] theorem matchBoundary_pr : (matchBoundary P s).pr = s.pr := by
  unfold matchBoundary matchSearch; split <;> simp
@[simp] theorem matchBoundary_c0 : (matchBoundary P s).c0 = s.c0 := by
  unfold matchBoundary matchSearch; split <;> simp
@[simp] theorem matchBoundary_bpos : (matchBoundary P s).bpos = s.bpos := by
  unfold matchBoundary matchSearch; split <;> simp
@[simp] theorem matchBoundary_c4 : (matchBoundary P s).c4 = s.c4 := by
  unfold matchBoundary matchSearch; split <;> simp
@[simp] theorem matchBoundary_pos : (matchBoundary P s).pos = s.pos := by
  unfold matchBoundary matchSearch; split <;> simp
@[simp] theorem matchBoundary_hash : (matchBoundary P s).hash = s.hash := by
  unfold matchBoundary matchSearch; split <;> simp
@[simp] theorem matchBoundary_ctx : (matchBoundary P s).ctx = s.ctx := by
  unfold matchBoundary matchSearch; split <;> simp
@[simp] theorem matchBoundary_cp : (matchBoundary P s).cp = s.cp := by
  unfold matchBoundary matchSearch; split <;> simp
@[simp] theorem matchBoundary_mixer : (matchBoundary P s).mixer = s.mixer := by
  unfold matchBoundary matchSearch; split <;> simp
@[simp] theorem matchBoundary_ctxm : (matchBoundary P s).ctxm = s.ctxm := by
  unfold matchBoundary matchSearch; split <;> simp
@[simp] theorem matchBoundary_mcur : (matchBoundary P s).mcur = s.mcur := by
  unfold matchBoundary matchSearch; split <;> simp
@[simp] theorem matchBoundary_mpr : (matchBoundary P s).mpr = s.mpr := by
  unfold matchBoundary matchSearch; split <;> simp
@[simp] theorem matchBoundary_apm : (matchBoundary P s).apm = s.apm := by
  unfold matchBoundary matchSearch; split <;> simp
@[simp] theorem matchBoundary_aidx : (matchBoundary P s).aidx = s.aidx := by
  unfold matchBoundary matchSearch; split <;> simp
@[simp] theorem matchBoundary_buffer : (matchBoundary P s).buffer = s.buffer := by
  unfold matchBoundary matchSearch; split <;> simp
@[simp] theorem matchBoundary_states : (matchBoundary P s).states = s.states := by
  unfold matchBoundary matchSearch; split <;> simp
@[simp] theorem matchBoundary_hashes : (matchBoundary P s).hashes = s.hashes := by
  unfold matchBoundary matchSearch; split <;> simp
@[simp] theorem matchBoundary_status : (matchBoundary P s).status = s.status := by
  unfold matchBoundary matchSearch; split <;> simp
@[simp] theorem matchBoundary_cmds : (matchBoundary P s).cmds = s.cmds := by
  unfold matchBoundary matchSearch; split <;> simp
@[simp] theorem matchBoundary_resp : (matchBoundary P s).resp = s.resp := by
  unfold matchBoundary matchSearch; split <;> simp
end

section
variable (P : Params) (b : Bit)
@[simp] theorem apmUpdate_pr : (apmUpdate P b s).pr = s.pr := by simp [apmUpdate]
@[simp] theorem apmUpdate_c0 : (apmUpdate P b s).c0 = s.c0 := by simp [apmUpdate]
@[simp] theorem apmUpdate_bpos : (apmUpdate P b s).bpos = s.bpos := by simp [apmUpdate]
@[simp] theorem apmUpdate_c4 : (apmUpdate P b s).c4 = s.c4 := by simp [apmUpdate]
@[simp] theorem apmUpdate_pos : (apmUpdate P b s).pos = s.pos := by simp [apmUpdate]
@[simp] theorem apmUpdate_hash : (apmUpdate P b s).hash = s.hash := by simp [apmUpdate]
@[simp] theorem apmUpdate_matchLen : (apmUpdate P b s).matchLen = s.matchLen := by simp [apmUpdate]
@[simp] theorem apmUpdate_matchPos : (apmUpdate P b s).matchPos = s.matchPos := by simp [apmUpdate]
@[simp] theorem apmUpdate_ctx : (apmUpdate P b s).ctx = s.ctx := by simp [apmUpdate]
@[simp] theorem apmUpdate_cp : (apmUpdate P b s).cp = s.cp := by simp [apmUpdate]
@[simp] theorem apmUpdate_mixer : (apmUpdate P b s).mixer = s.mixer := by simp [apmUpdate]
@[simp] theorem apmUpdate_ctxm : (apmUpdate P b s).ctxm = s.ctxm := by simp [apmUpdate]
@[simp] theorem apmUpdate_mcur : (apmUpdate P b s).mcur = s.mcur := by simp [apmUpdate]
@[simp] theorem apmUpdate_mpr : (apmUpdate P b s).mpr = s.mpr := by simp [apmUpdate]
@[simp] theorem apmUpdate_aidx : (apmUpdate P b s).aidx = s.aidx := by simp [apmUpdate]
@[simp] theorem apmUpdate_buffer : (apmUpdate P b s).buffer = s.buffer := by simp [apmUpdate]
@[simp] theorem apmUpdate_states : (apmUpdate P b s).states = s.states := by simp [apmUpdate]
@[simp] theorem apmUpdate_hashes : (apmUpdate P b s).hashes = s.hashes := by simp [apmUpdate]
@[simp] theorem apmUpdate_status : (apmUpdate P b s).status = s.status := by simp [apmUpdate]
@[simp] theorem apmUpdate_cmds : (apmUpdate P b s).cmds = s.cmds := by simp [apmUpdate]
@[simp] theorem apmUpdate_resp : (apmUpdate P b s).resp = s.resp := by simp [apmUpdate]
end

section
variable (P : Params) (p : BitVec 12) (cx : BitVec 16)
@[simp] theorem apmSelect_pr : (apmSelect P p cx s).pr = s.pr := by simp [apmSelect]
@[simp] theorem apmSelect_c0 : (apmSelect P p cx s).c0 = s.c0 := by simp [apmSelect]
@[simp] theorem apmSelect_bpos : (apmSelect P p cx s).bpos = s.bpos := by simp [apmSelect]
@[simp] theorem apmSelect_c4 : (apmSelect P p cx s).c4 = s.c4 := by simp [apmSelect]
@[simp] theorem apmSelect_pos : (apmSelect P p cx s).pos = s.pos := by simp [apmSelect]
@[simp] theorem apmSelect_hash : (apmSelect P p cx s).hash = s.hash := by simp [apmSelect]
@[simp] theorem apmSelect_matchLen : (apmSelect P p cx s).matchLen = s.matchLen := by simp [apmSelect]
@[simp] theorem apmSelect_matchPos : (apmSelect P p cx s).matchPos = s.matchPos := by simp [apmSelect]
@[simp] theorem apmSelect_ctx : (apmSelect P p cx s).ctx = s.ctx := by simp [apmSelect]
@[simp] theorem apmSelect_cp : (apmSelect P p cx s).cp = s.cp := by simp [apmSelect]
@[simp] theorem apmSelect_mixer : (apmSelect P p cx s).mixer = s.mixer := by simp [apmSelect]
@[simp] theorem apmSelect_ctxm : (apmSelect P p cx s).ctxm = s.ctxm := by simp [apmSelect]
@[simp] theorem apmSelect_mcur : (apmSelect P p cx s).mcur = s.mcur := by simp [apmSelect]
@[simp] theorem apmSelect_mpr : (apmSelect P p cx s).mpr = s.mpr := by simp [apmSelect]
@[simp] theorem apmSelect_apm : (apmSelect P p cx s).apm = s.apm := by simp [apmSelect]
@[simp] theorem apmSelect_buffer : (apmSelect P p cx s).buffer = s.buffer := by simp [apmSelect]
@[simp] theorem apmSelect_states : (apmSelect P p cx s).states = s.states := by simp [apmSelect]
@[simp] theorem apmSelect_hashes : (apmSelect P p cx s).hashes = s.hashes := by simp [apmSelect]
@[simp] theorem apmSelect_status : (apmSelect P p cx s).status = s.status := by simp [apmSelect]
@[simp] theorem apmSelect_cmds : (apmSelect P p cx s).cmds = s.cmds := by simp [apmSelect]
@[simp] theorem apmSelect_resp : (apmSelect P p cx s).resp = s.resp := by simp [apmSelect]
end

section
@[simp] theorem respondOk_pr : (respondOk s).pr = s.pr := by simp [respondOk]
@[simp] theorem respondOk_c0 : (respondOk s).c0 = s.c0 := by simp [respondOk]
@[simp] theorem respondOk_bpos : (respondOk s).bpos = s.bpos := by simp [respondOk]
@[simp] theorem respondOk_c4 : (respondOk s).c4 = s.c4 := by simp [respondOk]
@[simp] theorem respondOk_pos : (respondOk s).pos = s.pos := by simp [respondOk]
@[simp] theorem respondOk_hash : (respondOk s).hash = s.hash := by simp [respondOk]
@[simp] theorem respondOk_matchLen : (respondOk s).matchLen = s.matchLen := by simp [respondOk]
@[simp] theorem respondOk_matchPos : (respondOk s).matchPos = s.matchPos := by simp [respondOk]
@[simp] theorem respondOk_ctx : (respondOk s).ctx = s.ctx := by simp [respondOk]
@[simp] theorem respondOk_cp : (respondOk s).cp = s.cp := by simp [respondOk]
@[simp] theorem respondOk_mixer : (respondOk s).mixer = s.mixer := by simp [respondOk]
@[simp] theorem respondOk_ctxm : (respondOk s).ctxm = s.ctxm := by simp [respondOk]
@[simp] theorem respondOk_mcur : (respondOk s).mcur = s.mcur := by simp [respondOk]
@[simp] theorem respondOk_mpr : (respondOk s).mpr = s.mpr := by simp [respondOk]
@[simp] theorem respondOk_apm : (respondOk s).apm = s.apm := by simp [respondOk]
@[simp] theorem respondOk_aidx : (respondOk s).aidx = s.aidx := by simp [respondOk]
@[simp] theorem respondOk_buffer : (respondOk s).buffer = s.buffer := by simp [respondOk]
@[simp] theorem respondOk_states : (respondOk s).states = s.states := by simp [respondOk]
@[simp] theorem respondOk_hashes : (respondOk s).hashes = s.hashes := by simp [respondOk]
@[simp] theorem respondOk_status : (respondOk s).status = s.status := by simp [respondOk]
@[simp] theorem respondOk_cmds : (respondOk s).cmds = s.cmds := by simp [respondOk]
end

section
variable (d : BitVec 16)
@[simp] theorem respondData_pr : (respondData s d).pr = s.pr := by simp [respondData]
@[simp] theorem respondData_c0 : (respondData s d).c0 = s.c0 := by simp [respondData]
@[simp] theorem respondData_bpos : (respondData s d).bpos = s.bpos := by simp [respondData]
@[simp] theorem respondData_c4 : (respondData s d).c4 = s.c4 := by simp [respondData]
@[simp] theorem respondData_pos : (respondData s d).pos = s.pos := by simp [respondData]
@[simp] theorem respondData_hash : (respondData s d).hash = s.hash := by simp [respondData]
@[simp] theorem respondData_matchLen : (respondData s d).matchLen = s.matchLen := by simp [respondData]
@[simp] theorem respondData_matchPos : (respondData s d).matchPos = s.matchPos := by simp [respondData]
@[simp] theorem respondData_ctx : (respondData s d).ctx = s.ctx := by simp [respondData]
@[simp] theorem respondData_cp : (respondData s d).cp = s.cp := by simp [respondData]
@[simp] theorem respondData_mixer : (respondData s d).mixer = s.mixer := by simp [respondData]
@[simp] theorem respondData_ctxm : (respondData s d).ctxm = s.ctxm := by simp [respondData]
@[simp] theorem respondData_mcur : (respondData s d).mcur = s.mcur := by simp [respondData]
@[simp] theorem respondData_mpr : (respondData s d).mpr = s.mpr := by simp [respondData]
@[simp] theorem respondData_apm : (respondData s d).apm = s.apm := by simp [respondData]
@[simp] theorem respondData_aidx : (respondData s d).aidx = s.aidx := by simp [respondData]
@[simp] theorem respondData_buffer : (respondData s d).buffer = s.buffer := by simp [respondData]
@[simp] theorem respondData_states : (respondData s d).states = s.states := by simp [respondData]
@[simp] theorem respondData_hashes : (respondData s d).hashes = s.hashes := by simp [respondData]
@[simp] theorem respondData_status : (respondData s d).status = s.status := by simp [respondData]
@[simp] theorem respondData_cmds : (respondData s d).cmds = s.cmds := by simp [respondData]
end

section
@[simp] theorem respondFaulted_pr : (respondFaulted s).pr = s.pr := by simp [respondFaulted]
@[simp] theorem respondFaulted_c0 : (respondFaulted s).c0 = s.c0 := by simp [respondFaulted]
@[simp] theorem respondFaulted_bpos : (respondFaulted s).bpos = s.bpos := by simp [respondFaulted]
@[simp] theorem respondFaulted_c4 : (respondFaulted s).c4 = s.c4 := by simp [respondFaulted]
@[simp] theorem respondFaulted_pos : (respondFaulted s).pos = s.pos := by simp [respondFaulted]
@[simp] theorem respondFaulted_hash : (respondFaulted s).hash = s.hash := by simp [respondFaulted]
@[simp] theorem respondFaulted_matchLen : (respondFaulted s).matchLen = s.matchLen := by simp [respondFaulted]
@[simp] theorem respondFaulted_matchPos : (respondFaulted s).matchPos = s.matchPos := by simp [respondFaulted]
@[simp] theorem respondFaulted_ctx : (respondFaulted s).ctx = s.ctx := by simp [respondFaulted]
@[simp] theorem respondFaulted_cp : (respondFaulted s).cp = s.cp := by simp [respondFaulted]
@[simp] theorem respondFaulted_mixer : (respondFaulted s).mixer = s.mixer := by simp [respondFaulted]
@[simp] theorem respondFaulted_ctxm : (respondFaulted s).ctxm = s.ctxm := by simp [respondFaulted]
@[simp] theorem respondFaulted_mcur : (respondFaulted s).mcur = s.mcur := by simp [respondFaulted]
@[simp] theorem respondFaulted_mpr : (respondFaulted s).mpr = s.mpr := by simp [respondFaulted]
@[simp] theorem respondFaulted_apm : (respondFaulted s).apm = s.apm := by simp [respondFaulted]
@[simp] theorem respondFaulted_aidx : (respondFaulted s).aidx = s.aidx := by simp [respondFaulted]
@[simp] theorem respondFaulted_buffer : (respondFaulted s).buffer = s.buffer := by simp [respondFaulted]
@[simp] theorem respondFaulted_states : (respondFaulted s).states = s.states := by simp [respondFaulted]
@[simp] theorem respondFaulted_hashes : (respondFaulted s).hashes = s.hashes := by simp [respondFaulted]
@[simp] theorem respondFaulted_status : (respondFaulted s).status = s.status := by simp [respondFaulted]
@[simp] theorem respondFaulted_cmds : (respondFaulted s).cmds = s.cmds := by simp [respondFaulted]
end

section
variable (code : FaultCode)
@[simp] theorem raiseFault_pr : (raiseFault code s).pr = s.pr := by simp [raiseFault]
@[simp] theorem raiseFault_c0 : (raiseFault code s).c0 = s.c0 := by simp [raiseFault]
@[simp] theorem raiseFault_bpos : (raiseFault code s).bpos = s.bpos := by simp [raiseFault]
@[simp] theorem raiseFault_c4 : (raiseFault code s).c4 = s.c4 := by simp [raiseFault]
@[simp] theorem raiseFault_pos : (raiseFault code s).pos = s.pos := by simp [raiseFault]
@[simp] theorem raiseFault_hash : (raiseFault code s).hash = s.hash := by simp [raiseFault]
@[simp] theorem raiseFault_matchLen : (raiseFault code s).matchLen = s.matchLen := by simp [raiseFault]
@[simp] theorem raiseFault_matchPos : (raiseFault code s).matchPos = s.matchPos := by simp [raiseFault]
@[simp] theorem raiseFault_ctx : (raiseFault code s).ctx = s.ctx := by simp [raiseFault]
@[simp] theorem raiseFault_cp : (raiseFault code s).cp = s.cp := by simp [raiseFault]
@[simp] theorem raiseFault_mixer : (raiseFault code s).mixer = s.mixer := by simp [raiseFault]
@[simp] theorem raiseFault_ctxm : (raiseFault code s).ctxm = s.ctxm := by simp [raiseFault]
@[simp] theorem raiseFault_mcur : (raiseFault code s).mcur = s.mcur := by simp [raiseFault]
@[simp] theorem raiseFault_mpr : (raiseFault code s).mpr = s.mpr := by simp [raiseFault]
@[simp] theorem raiseFault_apm : (raiseFault code s).apm = s.apm := by simp [raiseFault]
@[simp] theorem raiseFault_aidx : (raiseFault code s).aidx = s.aidx := by simp [raiseFault]
@[simp] theorem raiseFault_buffer : (raiseFault code s).buffer = s.buffer := by simp [raiseFault]
@[simp] theorem raiseFault_states : (raiseFault code s).states = s.states := by simp [raiseFault]
@[simp] theorem raiseFault_hashes : (raiseFault code s).hashes = s.hashes := by simp [raiseFault]
@[simp] theorem raiseFault_cmds : (raiseFault code s).cmds = s.cmds := by simp [raiseFault]
end

section
variable (w : Word)
@[simp] theorem issueWord_pr : (issueWord w s).pr = s.pr := by simp [issueWord]
@[simp] theorem issueWord_c0 : (issueWord w s).c0 = s.c0 := by simp [issueWord]
@[simp] theorem issueWord_bpos : (issueWord w s).bpos = s.bpos := by simp [issueWord]
@[simp] theorem issueWord_c4 : (issueWord w s).c4 = s.c4 := by simp [issueWord]
@[simp] theorem issueWord_pos : (issueWord w s).pos = s.pos := by simp [issueWord]
@[simp] theorem issueWord_hash : (issueWord w s).hash = s.hash := by simp [issueWord]
@[simp] theorem issueWord_matchLen : (issueWord w s).matchLen = s.matchLen := by simp [issueWord]
@[simp] theorem issueWord_matchPos : (issueWord w s).matchPos = s.matchPos := by simp [issueWord]
@[simp] theorem issueWord_ctx : (issueWord w s).ctx = s.ctx := by simp [issueWord]
@[simp] theorem issueWord_cp : (issueWord w s).cp = s.cp := by simp [issueWord]
@[simp] theorem issueWord_mixer : (issueWord w s).mixer = s.mixer := by simp [issueWord]
@[simp] theorem issueWord_ctxm : (issueWord w s).ctxm = s.ctxm := by simp [issueWord]
@[simp] theorem issueWord_mcur : (issueWord w s).mcur = s.mcur := by simp [issueWord]
@[simp] theorem issueWord_mpr : (issueWord w s).mpr = s.mpr := by simp [issueWord]
@[simp] theorem issueWord_apm : (issueWord w s).apm = s.apm := by simp [issueWord]
@[simp] theorem issueWord_aidx : (issueWord w s).aidx = s.aidx := by simp [issueWord]
@[simp] theorem issueWord_buffer : (issueWord w s).buffer = s.buffer := by simp [issueWord]
@[simp] theorem issueWord_states : (issueWord w s).states = s.states := by simp [issueWord]
@[simp] theorem issueWord_hashes : (issueWord w s).hashes = s.hashes := by simp [issueWord]
@[simp] theorem issueWord_status : (issueWord w s).status = s.status := by simp [issueWord]
@[simp] theorem issueWord_resp : (issueWord w s).resp = s.resp := by simp [issueWord]
end

section
@[simp] theorem powerUp_pr : (State.powerUp s).pr = s.pr := by simp [State.powerUp]
@[simp] theorem powerUp_c0 : (State.powerUp s).c0 = s.c0 := by simp [State.powerUp]
@[simp] theorem powerUp_bpos : (State.powerUp s).bpos = s.bpos := by simp [State.powerUp]
@[simp] theorem powerUp_c4 : (State.powerUp s).c4 = s.c4 := by simp [State.powerUp]
@[simp] theorem powerUp_pos : (State.powerUp s).pos = s.pos := by simp [State.powerUp]
@[simp] theorem powerUp_hash : (State.powerUp s).hash = s.hash := by simp [State.powerUp]
@[simp] theorem powerUp_matchLen : (State.powerUp s).matchLen = s.matchLen := by simp [State.powerUp]
@[simp] theorem powerUp_matchPos : (State.powerUp s).matchPos = s.matchPos := by simp [State.powerUp]
@[simp] theorem powerUp_ctx : (State.powerUp s).ctx = s.ctx := by simp [State.powerUp]
@[simp] theorem powerUp_cp : (State.powerUp s).cp = s.cp := by simp [State.powerUp]
@[simp] theorem powerUp_mixer : (State.powerUp s).mixer = s.mixer := by simp [State.powerUp]
@[simp] theorem powerUp_ctxm : (State.powerUp s).ctxm = s.ctxm := by simp [State.powerUp]
@[simp] theorem powerUp_mcur : (State.powerUp s).mcur = s.mcur := by simp [State.powerUp]
@[simp] theorem powerUp_mpr : (State.powerUp s).mpr = s.mpr := by simp [State.powerUp]
@[simp] theorem powerUp_apm : (State.powerUp s).apm = s.apm := by simp [State.powerUp]
@[simp] theorem powerUp_aidx : (State.powerUp s).aidx = s.aidx := by simp [State.powerUp]
@[simp] theorem powerUp_buffer : (State.powerUp s).buffer = s.buffer := by simp [State.powerUp]
@[simp] theorem powerUp_states : (State.powerUp s).states = s.states := by simp [State.powerUp]
@[simp] theorem powerUp_hashes : (State.powerUp s).hashes = s.hashes := by simp [State.powerUp]
@[simp] theorem powerUp_cmds : (State.powerUp s).cmds = s.cmds := by simp [State.powerUp]
@[simp] theorem powerUp_resp : (State.powerUp s).resp = s.resp := by simp [State.powerUp]
end

section
variable (P : Params) (b : Bit)
@[simp] theorem predict_c0 : (predict P b s).c0 = s.c0 := by simp [predict]
@[simp] theorem predict_bpos : (predict P b s).bpos = s.bpos := by simp [predict]
@[simp] theorem predict_c4 : (predict P b s).c4 = s.c4 := by simp [predict]
@[simp] theorem predict_pos : (predict P b s).pos = s.pos := by simp [predict]
@[simp] theorem predict_hash : (predict P b s).hash = s.hash := by simp [predict]
@[simp] theorem predict_matchLen : (predict P b s).matchLen = s.matchLen := by simp [predict]
@[simp] theorem predict_matchPos : (predict P b s).matchPos = s.matchPos := by simp [predict]
@[simp] theorem predict_ctx : (predict P b s).ctx = s.ctx := by simp [predict]
@[simp] theorem predict_cp : (predict P b s).cp = s.cp := by simp [predict]
@[simp] theorem predict_ctxm : (predict P b s).ctxm = s.ctxm := by simp [predict]
@[simp] theorem predict_buffer : (predict P b s).buffer = s.buffer := by simp [predict]
@[simp] theorem predict_states : (predict P b s).states = s.states := by simp [predict]
@[simp] theorem predict_hashes : (predict P b s).hashes = s.hashes := by simp [predict]
@[simp] theorem predict_status : (predict P b s).status = s.status := by simp [predict]
@[simp] theorem predict_cmds : (predict P b s).cmds = s.cmds := by simp [predict]
@[simp] theorem predict_resp : (predict P b s).resp = s.resp := by simp [predict]
end

/-! ## The fields the operations set -/

@[simp] theorem mixerUpdate_mcur (b : Bit) : (mixerUpdate b s).mcur = 0 := by simp [mixerUpdate]
@[simp] theorem mixerGet_mcur (P : Params) : (mixerGet P s).mcur = 8 := by simp [mixerGet]
@[simp] theorem predict_mcur (P : Params) (b : Bit) : (predict P b s).mcur = 8 := by simp [predict]
@[simp] theorem countByte_pos (byte : Byte) : (countByte byte s).pos = s.pos + 1 := by
  simp [countByte]
@[simp] theorem countByte_c0 (byte : Byte) : (countByte byte s).c0 = 1 := by simp [countByte]
@[simp] theorem countByte_bpos (byte : Byte) : (countByte byte s).bpos = 0 := by simp [countByte]
@[simp] theorem countByte_c4 (byte : Byte) :
    (countByte byte s).c4 = (s.c4 <<< 8) ||| byte.setWidth 32 := by simp [countByte]
@[simp] theorem countByte_hash (byte : Byte) :
    (countByte byte s).hash = rollHash s.hash ((s.c4 <<< 8) ||| byte.setWidth 32) := by
  simp [countByte]
@[simp] theorem mixerSetContext_ctxm (c : W32) :
    (mixerSetContext c s).ctxm = (c &&& BitVec.ofNat 32 (Config.mixerRows - 1)).setWidth 12 := by
  simp [mixerSetContext]
@[simp] theorem respondOk_resp : (respondOk s).resp = { rstat := 0, rdata := 0 } := by
  simp [respondOk]
@[simp] theorem respondData_resp (d : BitVec 16) :
    (respondData s d).resp = { rstat := 1, rdata := d } := by simp [respondData]
@[simp] theorem raiseFault_status (code : FaultCode) :
    (raiseFault code s).status = { s.status with fault := code } := by
  simp [raiseFault, Status.withFault]
@[simp] theorem raiseFault_resp (code : FaultCode) :
    (raiseFault code s).resp = { rstat := 2, rdata := zext16 (FaultCode.code code) } := by
  simp [raiseFault, respondFaulted, Status.withFault]
@[simp] theorem issueWord_cmds (w : Word) : (issueWord w s).cmds = w :: s.cmds := by
  simp [issueWord]
@[simp] theorem powerUp_status : (State.powerUp s).status = { init := false, fault := .none } := by
  simp [State.powerUp]
@[simp] theorem apmSelect_aidx (P : Params) (p : BitVec 12) (cx : BitVec 16) :
    (apmSelect P p cx s).aidx = cellIndex (knotOf (stretch P p)) cx := by simp [apmSelect]

end Sys2Proof.Laws
end

