-- ==== Sys2Proof/Laws/Apm.lean ====
section
/-! SUPPORT. The laws of the SSE stage: the update of the queried cell on the reads, the range of the
cells (46_apm.md R191), the context, the interpolation and the clamp in plain arithmetic. -/

namespace Sys2Proof.Laws

open Sys2Proof.Machine

theorem bit_cases (b : Bit) : b = 0 ∨ b = 1 := by
  have h := b.isLt
  rcases Nat.lt_or_ge b.toNat 1 with h0 | h1
  · exact .inl (BitVec.eq_of_toNat_eq (by simp; omega))
  · exact .inr (BitVec.eq_of_toNat_eq (by simp; omega))

theorem apmTarget_eq (b : Bit) : apmTarget b = if b = 1 then 65662 else 0 := by
  rcases bit_cases b with rfl | rfl <;> decide

theorem adaptedCell_eq (g : Int) (d : W32) :
    adaptedCell g d = BitVec.ofInt 32 (d.toInt + (g - d.toInt) / 128) := by
  rw [adaptedCell, Int.shiftRight_eq_div_pow]
  rfl

theorem apmRead_apmWrite (P : Params) (s : State) (a c : Nat) (v : W32) :
    apmRead P (apmWrite P s a v) c = if c = a then v else apmRead P s c := by
  simp [apmRead, apmWrite, readCell_writeCell]

/-- Part 1 of APM_Get adapts the two knots of the queried cell and no other element (R187). -/
theorem apmUpdate_read (P : Params) (b : Bit) (s : State) (a : Nat) :
    apmRead P (apmUpdate P b s) a =
      if a = s.aidx.val ∨ a = s.aidx.val + 1 then adaptedCell (apmTarget b) (apmRead P s a)
      else apmRead P s a := by
  simp only [apmUpdate, apmRead_apmWrite, apmWrite_aidx]
  by_cases h1 : a = s.aidx.val
  · subst h1
    simp
  · by_cases h2 : a = s.aidx.val + 1
    · subst h2
      simp
    · simp [h1, h2]

/-- An integer in the i32 range is its own wrap. -/
theorem toInt_ofInt32 {v : Int} (h0 : -2147483648 ≤ v) (h1 : v ≤ 2147483647) :
    (BitVec.ofInt 32 v).toInt = v := by
  rw [BitVec.toInt_ofInt]
  exact Int.bmod_eq_of_le (by norm_num; omega) (by norm_num; omega)

theorem adaptedCell_toInt (b : Bit) {d : W32} (h0 : 0 ≤ d.toInt) (h1 : d.toInt ≤ 65535) :
    (adaptedCell (apmTarget b) d).toInt = d.toInt + (apmTarget b - d.toInt) / 128 := by
  rw [adaptedCell_eq, apmTarget_eq]
  split <;> exact toInt_ofInt32 (by omega) (by omega)

/-- A cell in [0, 65535] stays there (R191). -/
theorem adaptedCell_bounds (b : Bit) {d : W32} (h0 : 0 ≤ d.toInt) (h1 : d.toInt ≤ 65535) :
    0 ≤ (adaptedCell (apmTarget b) d).toInt ∧ (adaptedCell (apmTarget b) d).toInt ≤ 65535 := by
  rw [adaptedCell_toInt b h0 h1, apmTarget_eq]
  split <;> omega

theorem interpolate_eq (lo hi : W32) (w : Nat) :
    interpolate lo hi w = (lo.toInt * (128 - (w : Int)) + hi.toInt * (w : Int)) / 2 ^ 11 := by
  rw [interpolate, Int.shiftRight_eq_div_pow]
  rfl

/-- Between two cells in [0, 65535] the interpolation lies in [0, 4095] (R189, R191). -/
theorem interpolate_bounds {lo hi : W32} {w : Nat} (hw : w ≤ 127)
    (hlo : 0 ≤ lo.toInt ∧ lo.toInt ≤ 65535) (hhi : 0 ≤ hi.toInt ∧ hi.toInt ≤ 65535) :
    0 ≤ interpolate lo hi w ∧ interpolate lo hi w ≤ 4095 := by
  rw [interpolate_eq]
  have h1 : 0 ≤ lo.toInt * (128 - (w : Int)) := mul_nonneg hlo.1 (by omega)
  have h2 : 0 ≤ hi.toInt * (w : Int) := mul_nonneg hhi.1 (by omega)
  have h3 : lo.toInt * (128 - (w : Int)) ≤ 65535 * (128 - (w : Int)) :=
    mul_le_mul_of_nonneg_right hlo.2 (by omega)
  have h4 : hi.toInt * (w : Int) ≤ 65535 * (w : Int) :=
    mul_le_mul_of_nonneg_right hhi.2 (by omega)
  omega

theorem knotWeight_le (s : BitVec 12) : knotWeight s ≤ 127 := by
  have := knotWeight_val s
  omega

/-- Whatever the cells hold, the interpolation stays well inside an i32. -/
theorem interpolate_range (lo hi : W32) {w : Nat} (hw : w ≤ 127) :
    -134217728 ≤ interpolate lo hi w ∧ interpolate lo hi w ≤ 134217728 := by
  rw [interpolate_eq]
  have l1 := BitVec.le_toInt lo
  have l2 := BitVec.toInt_lt (x := lo)
  have u1 := BitVec.le_toInt hi
  have u2 := BitVec.toInt_lt (x := hi)
  norm_num at l1 l2 u1 u2
  have h1 : -2147483648 * (128 - (w : Int)) ≤ lo.toInt * (128 - (w : Int)) :=
    mul_le_mul_of_nonneg_right l1 (by omega)
  have h2 : lo.toInt * (128 - (w : Int)) ≤ 2147483648 * (128 - (w : Int)) :=
    mul_le_mul_of_nonneg_right (by omega) (by omega)
  have h3 : -2147483648 * (w : Int) ≤ hi.toInt * (w : Int) :=
    mul_le_mul_of_nonneg_right u1 (by omega)
  have h4 : hi.toInt * (w : Int) ≤ 2147483648 * (w : Int) :=
    mul_le_mul_of_nonneg_right (by omega) (by omega)
  omega

/-- The clamp is its sign test wherever `p - 2048` is an i32 too (40_commands.md R95). -/
theorem clamp_eq {p : Int} (h0 : -2147483648 ≤ p - 2048) (h1 : p ≤ 2147483647) :
    clamp p = if p < 2048 then p + 1 else p := by
  rw [clamp, Int.shiftRight_eq_div_pow]
  have h : (p - 2048) / ((2 ^ 31 : Nat) : Int) = if p < 2048 then -1 else 0 := by
    norm_num
    split <;> omega
  rw [h]
  split <;> rw [toInt_ofInt32 (by omega) (by omega)] <;> omega

/-- The SSE context: the partial byte below the second most recent byte (R190). -/
theorem apmContext_toNat (c0 : BitVec 8) (c4 : W32) :
    (apmContext c0 c4).toNat = c0.toNat + 256 * (c4.toNat / 256 % 256) := by
  have hc := c0.isLt
  have hmask : c4.toNat &&& 0xFF00 = c4.toNat / 256 % 256 * 256 := by
    have h : (0xFF00 : Nat) = 255 <<< 8 := rfl
    have e : c4.toNat = (c4.toNat / 256) <<< 8 + c4.toNat % 256 := by
      rw [Nat.shiftLeft_eq]; omega
    apply Nat.eq_of_testBit_eq
    intro i
    rw [Nat.testBit_and, h, Nat.testBit_shiftLeft, show (256 : Nat) = 2 ^ 8 from rfl,
      Nat.testBit_mul_two_pow, show (255 : Nat) = 2 ^ 8 - 1 from rfl, Nat.testBit_two_pow_sub_one,
      Nat.testBit_mod_two_pow, Nat.testBit_div_two_pow]
    by_cases h8 : 8 ≤ i
    · rw [show i - 8 + 8 = i by omega]
      by_cases h16 : i - 8 < 8 <;> simp [h8, h16]
    · simp [h8]
  rw [apmContext, BitVec.toNat_setWidth, BitVec.toNat_or, BitVec.toNat_setWidth, BitVec.toNat_and]
  have h2 : (0xFF00 : W32).toNat = 0xFF00 := rfl
  rw [h2, hmask, Nat.mod_eq_of_lt (by omega : c0.toNat < 2 ^ 32), Nat.or_comm,
    show (256 : Nat) = 2 ^ 8 from rfl, Nat.mul_comm _ (2 ^ 8), ← Nat.two_pow_add_eq_or_of_lt (by omega)]
  omega

end Sys2Proof.Laws
end

