-- ==== Sys2Proof/Laws/Mixer.lean ====
section
/-! SUPPORT. The laws of the mixer: what training, adding an input, padding and the dot product do, in
terms of the reads of the array. -/

namespace Sys2Proof.Laws

open Sys2Proof.Machine

/-! ## The indices of a row -/

theorem inputIndex_inj {c d : BitVec 12} {j k : Nat} (hj : j < 8) (hk : k < 8) :
    inputIndex c j = inputIndex d k ↔ c = d ∧ j = k := by
  unfold inputIndex
  rw [← BitVec.toNat_inj]
  omega

theorem weightIndex_inj {c d : BitVec 12} {j k : Nat} (hj : j < 8) (hk : k < 8) :
    weightIndex c j = weightIndex d k ↔ c = d ∧ j = k := by
  unfold weightIndex
  rw [← BitVec.toNat_inj]
  omega

theorem inputIndex_ne_weightIndex {c d : BitVec 12} {j k : Nat} (hj : j < 8) (hk : k < 8) :
    inputIndex c j ≠ weightIndex d k := by
  unfold inputIndex weightIndex
  omega

theorem inputIndex_lt (c : BitVec 12) {k : Nat} (hk : k < 8) :
    inputIndex c k < Config.mixerSize := by
  have := c.isLt
  simp only [inputIndex, Config.mixerSize, Config.mixerRows]
  omega

theorem weightIndex_lt (c : BitVec 12) {k : Nat} (hk : k < 8) :
    weightIndex c k < Config.mixerSize := by
  have := c.isLt
  simp only [weightIndex, Config.mixerSize, Config.mixerRows]
  omega

theorem mixerRead_mixerWrite {m : List WordCell} {a b : Nat} {v : W32} :
    mixerRead (mixerWrite m a v) b = if b = a then v else mixerRead m b := readCell_writeCell

/-! ## Training (R172) -/

theorem trainFold_read (c : BitVec 12) (e : W32) (l : List Nat) (hl : l.Nodup)
    (h8 : ∀ k ∈ l, k < 8) (m : List WordCell) (a : Nat) :
    mixerRead (l.foldl (trainSlot c e) m) a =
      if ∃ k ∈ l, a = weightIndex c k then
        trainedWeight (mixerRead m a) (mixerRead m (a - 8)) e
      else mixerRead m a := by
  induction l generalizing m with
  | nil => simp
  | cons j l ih =>
    obtain ⟨hj, hl⟩ := List.nodup_cons.mp hl
    have hj8 := h8 j List.mem_cons_self
    have h8' : ∀ k ∈ l, k < 8 := fun k hk => h8 k (List.mem_cons_of_mem _ hk)
    have keep : ∀ b, b ≠ weightIndex c j → mixerRead (trainSlot c e m j) b = mixerRead m b := by
      intro b hb
      rw [trainSlot, mixerRead_mixerWrite, if_neg hb]
    rw [List.foldl_cons, ih hl h8']
    by_cases haj : a = weightIndex c j
    · have hnot : ¬ ∃ k ∈ l, a = weightIndex c k := by
        rintro ⟨k, hk, rfl⟩
        exact hj (((weightIndex_inj (h8' k hk) hj8).mp haj).2 ▸ hk)
      rw [if_neg hnot, if_pos ⟨j, List.mem_cons_self, haj⟩, haj, trainSlot, mixerRead_mixerWrite,
        if_pos rfl, show weightIndex c j - 8 = inputIndex c j by unfold weightIndex inputIndex; omega]
    · by_cases hex : ∃ k ∈ l, a = weightIndex c k
      · obtain ⟨k, hk, hak⟩ := hex
        have hin : a - 8 = inputIndex c k := by
          rw [hak]; unfold weightIndex inputIndex; omega
        rw [if_pos ⟨k, hk, hak⟩, if_pos ⟨k, List.mem_cons_of_mem _ hk, hak⟩, keep a haj,
          keep (a - 8) (hin ▸ inputIndex_ne_weightIndex (h8' k hk) hj8)]
      · have hex' : ¬ ∃ k ∈ j :: l, a = weightIndex c k := by
          rintro ⟨k, hk, hak⟩
          rcases List.mem_cons.mp hk with rfl | hk
          · exact haj hak
          · exact hex ⟨k, hk, hak⟩
        rw [if_neg hex, if_neg hex', keep a haj]

theorem inRow : ∀ k ∈ List.range Config.mixerInputs, k < 8 := fun _ hk => List.mem_range.mp hk

/-- The weights of row `c` after the training loop. -/
theorem trainRow_weight (c : BitVec 12) (e : W32) (m : List WordCell) {k : Nat} (hk : k < 8) :
    mixerRead (trainRow c e m) (weightIndex c k) =
      trainedWeight (mixerRead m (weightIndex c k)) (mixerRead m (inputIndex c k)) e := by
  have hmem : ∃ j ∈ List.range Config.mixerInputs, weightIndex c k = weightIndex c j :=
    ⟨k, List.mem_range.mpr hk, rfl⟩
  rw [trainRow, trainFold_read c e _ List.nodup_range inRow,
    if_pos hmem, show weightIndex c k - 8 = inputIndex c k by unfold weightIndex inputIndex; omega]

/-- The training loop writes only the weights of its row. -/
theorem trainRow_other (c : BitVec 12) (e : W32) (m : List WordCell) {a : Nat}
    (h : ∀ k < 8, a ≠ weightIndex c k) : mixerRead (trainRow c e m) a = mixerRead m a := by
  have hnot : ¬ ∃ j ∈ List.range Config.mixerInputs, a = weightIndex c j := by
    rintro ⟨j, hj, he⟩
    exact h j (List.mem_range.mp hj) he
  rw [trainRow, trainFold_read c e _ List.nodup_range inRow, if_neg hnot]

theorem trainedWeight_zero (w x : W32) : trainedWeight w x 0 = w := by
  simp [trainedWeight]

/-- Mixer_Update on the reads: row `ctxm` is trained (a zero error trains it by nothing). -/
theorem mixerUpdate_weight (b : Bit) (s : State) {k : Nat} (hk : k < 8) (c : BitVec 12) :
    mixerWeight (mixerUpdate b s) c k =
      if c = s.ctxm then
        trainedWeight (mixerWeight s c k) (mixerInput s c k) (scaledError b s.mpr)
      else mixerWeight s c k := by
  simp only [mixerWeight, mixerInput, mixerUpdate, withMixer_mixer]
  by_cases hc : c = s.ctxm
  · subst hc
    rw [if_pos rfl]
    split
    · next h => rw [scaledError, h, show (0 : W32) * Config.mixErrScale = 0 from rfl, trainedWeight_zero]
    · rw [trainRow_weight _ _ _ hk]
  · rw [if_neg hc]
    split
    · rfl
    · exact trainRow_other _ _ _ fun j hj he => hc ((weightIndex_inj hk hj).mp he).1

/-- Mixer_Update writes no stored input. -/
theorem mixerUpdate_input (b : Bit) (s : State) {k : Nat} (hk : k < 8) (c : BitVec 12) :
    mixerInput (mixerUpdate b s) c k = mixerInput s c k := by
  simp only [mixerInput, mixerUpdate, withMixer_mixer]
  split
  · rfl
  · exact trainRow_other _ _ _ fun j hj => inputIndex_ne_weightIndex hk hj

/-! ## Adding an input (R171) -/

/-- Below 8 the cursor's slot takes the input and the cursor moves on. -/
theorem mixerAddInput_eq {s : State} {x : W32} (h : s.mcur.val < 8) :
    mixerAddInput x s =
      some (s.withMixer (mixerWrite s.mixer (inputIndex s.ctxm s.mcur.val) x)
        ⟨s.mcur.val + 1, by omega⟩) := dif_pos h

/-! ## Padding and mixing (R173) -/

theorem padFold_read (c : BitVec 12) (l : List Nat) (m : List WordCell) (a : Nat) :
    mixerRead (l.foldl (fun m k => mixerWrite m (inputIndex c k) Config.pad) m) a =
      if ∃ k ∈ l, a = inputIndex c k then Config.pad else mixerRead m a := by
  induction l generalizing m with
  | nil => simp
  | cons j l ih =>
    rw [List.foldl_cons, ih, mixerRead_mixerWrite]
    by_cases h : ∃ k ∈ l, a = inputIndex c k
    · obtain ⟨k, hk, he⟩ := h
      rw [if_pos ⟨k, hk, he⟩, if_pos ⟨k, List.mem_cons_of_mem _ hk, he⟩]
    · rw [if_neg h]
      by_cases hj : a = inputIndex c j
      · rw [if_pos hj, if_pos ⟨j, List.mem_cons_self, hj⟩]
      · rw [if_neg hj, if_neg]
        rintro ⟨k, hk, he⟩
        rcases List.mem_cons.mp hk with rfl | hk
        · exact hj he
        · exact h ⟨k, hk, he⟩

theorem mem_padSlots {first k : Nat} :
    k ∈ List.range' first (Config.mixerInputs - first) ↔ first ≤ k ∧ k < 8 := by
  rw [List.mem_range'_1]
  simp only [Config.mixerInputs]
  omega

/-- The padding loop touches no element that is not a slot from `first` to 7 of its row. -/
theorem padRow_other (c : BitVec 12) (first : Nat) (m : List WordCell) {a : Nat}
    (h : ∀ k, first ≤ k → k < 8 → a ≠ inputIndex c k) :
    mixerRead (padRow c first m) a = mixerRead m a := by
  rw [padRow, padFold_read, if_neg]
  rintro ⟨k, hk, he⟩
  obtain ⟨h1, h2⟩ := mem_padSlots.mp hk
  exact h k h1 h2 he

theorem padRow_weight (c : BitVec 12) (first : Nat) (m : List WordCell) (d : BitVec 12) {k : Nat}
    (hk : k < 8) : mixerRead (padRow c first m) (weightIndex d k) = mixerRead m (weightIndex d k) :=
  padRow_other c first m fun _ _ hj he => inputIndex_ne_weightIndex hj hk he.symm

/-- The padding loop stores PAD in the slots from `first` to 7 of row `c`. -/
theorem padRow_input (c : BitVec 12) (first : Nat) (m : List WordCell) (d : BitVec 12) {k : Nat}
    (hk : k < 8) :
    mixerRead (padRow c first m) (inputIndex d k) =
      if d = c ∧ first ≤ k then Config.pad else mixerRead m (inputIndex d k) := by
  by_cases h : d = c ∧ first ≤ k
  · rw [if_pos h, padRow, padFold_read, if_pos ⟨k, mem_padSlots.mpr ⟨h.2, hk⟩, by rw [h.1]⟩]
  · rw [if_neg h]
    refine padRow_other c first m fun j hf hj he => h ?_
    obtain ⟨rfl, rfl⟩ := (inputIndex_inj hk hj).mp he
    exact ⟨rfl, hf⟩

/-- The dot product depends only on the sixteen elements of its row. -/
theorem dotRow_congr {c : BitVec 12} {m n : List WordCell}
    (hx : ∀ k < 8, mixerRead m (inputIndex c k) = mixerRead n (inputIndex c k))
    (hw : ∀ k < 8, mixerRead m (weightIndex c k) = mixerRead n (weightIndex c k)) :
    dotRow c m = dotRow c n := by
  unfold dotRow
  apply List.foldl_ext
  intro dot k hk
  have hk8 : k < 8 := List.mem_range.mp hk
  rw [hx k hk8, hw k hk8]

theorem dotFold_eq (f g : Nat → W32) (l : List Nat) (x : W32) :
    l.foldl (fun dot k => dot + f k * g k) x =
      x + BitVec.ofInt 32 ((l.map fun k => (f k).toInt * (g k).toInt).sum) := by
  induction l generalizing x with
  | nil => simp
  | cons j l ih =>
    rw [List.foldl_cons, ih, List.map_cons, List.sum_cons, BitVec.ofInt_add, BitVec.ofInt_mul,
      BitVec.ofInt_toInt, BitVec.ofInt_toInt, BitVec.add_assoc]

/-- The dot product is the exact sum of the products, reduced to 32 bits. -/
theorem dotRow_eq (c : BitVec 12) (m : List WordCell) :
    dotRow c m = BitVec.ofInt 32 (((List.range 8).map fun k =>
      (mixerRead m (inputIndex c k)).toInt * (mixerRead m (weightIndex c k)).toInt).sum) := by
  rw [dotRow, dotFold_eq]
  simp [Config.mixerInputs]

theorem mixerGet_mpr (P : Params) (s : State) :
    (mixerGet P s).mpr = mixerOutput P (dotRow s.ctxm (mixerGet P s).mixer) := by
  simp [mixerGet]

theorem mixerGet_mixer (P : Params) (s : State) :
    (mixerGet P s).mixer = padRow s.ctxm s.mcur.val s.mixer := by
  simp [mixerGet]

/-! ## The canonical form of the array -/

/-- Writes inside the array, one after another, keep its form. -/
theorem canonical_writes {f : List WordCell → Nat → List WordCell} {g : Nat → Nat}
    {v : List WordCell → Nat → W32} (hf : ∀ m k, f m k = mixerWrite m (g k) (v m k))
    {l : List Nat} (hl : ∀ k ∈ l, g k < Config.mixerSize) {m : List WordCell}
    (h : canonical zeroCell Config.mixerSize m = true) :
    canonical zeroCell Config.mixerSize (l.foldl f m) = true := by
  induction l generalizing m with
  | nil => exact h
  | cons k l ih =>
    rw [List.foldl_cons]
    refine ih (fun j hj => hl j (List.mem_cons_of_mem _ hj)) ?_
    rw [hf]
    exact canonical_writeCell h (hl k List.mem_cons_self)

theorem canonical_trainRow {m : List WordCell} (h : canonical zeroCell Config.mixerSize m = true)
    (c : BitVec 12) (e : W32) : canonical zeroCell Config.mixerSize (trainRow c e m) = true :=
  canonical_writes (g := weightIndex c) (fun _ _ => rfl)
    (fun k hk => weightIndex_lt c (inRow k hk)) h

theorem canonical_padRow {m : List WordCell} (h : canonical zeroCell Config.mixerSize m = true)
    (c : BitVec 12) (first : Nat) :
    canonical zeroCell Config.mixerSize (padRow c first m) = true :=
  canonical_writes (g := inputIndex c) (v := fun _ _ => Config.pad) (fun _ _ => rfl)
    (fun _ hk => inputIndex_lt c (mem_padSlots.mp hk).2) h

end Sys2Proof.Laws
end

