-- ==== Sys2Proof/Laws/MatchFinder.lean ====
section
/-! SUPPORT. The laws of the match finder: what the scan measures, what a boundary does to the match,
and when a match survives a bit. -/

namespace Sys2Proof.Laws

open Sys2Proof.Machine

/-- The bytes `r` before `pos` and before the candidate agree. -/
def BytesAgree (P : Params) (s : State) (cand : W32) (r : Nat) : Prop :=
  bufferRead P s (s.pos - BitVec.ofNat 32 r) = bufferRead P s (cand - BitVec.ofNat 32 r)

/-- The scan stops at the first difference, or after its fuel. -/
theorem scanMatch_spec (P : Params) (s : State) (cand : W32) (fuel r : Nat) :
    r ≤ scanMatch P s cand fuel r ∧ scanMatch P s cand fuel r ≤ r + fuel ∧
      (∀ k, r ≤ k → k < scanMatch P s cand fuel r → BytesAgree P s cand k) ∧
      (scanMatch P s cand fuel r = r + fuel ∨
        ¬ BytesAgree P s cand (scanMatch P s cand fuel r)) := by
  induction fuel generalizing r with
  | zero => exact ⟨le_rfl, le_rfl, fun k h1 h2 => absurd h2 (by simp [scanMatch]; omega), .inl rfl⟩
  | succ fuel ih =>
    by_cases h : bufferRead P s (s.pos - BitVec.ofNat 32 r) = bufferRead P s (cand - BitVec.ofNat 32 r)
    · rw [scanMatch, if_pos h]
      obtain ⟨h1, h2, h3, h4⟩ := ih (r + 1)
      refine ⟨by omega, by omega, fun k hk1 hk2 => ?_, ?_⟩
      · rcases Nat.eq_or_lt_of_le hk1 with rfl | hlt
        · exact h
        · exact h3 k hlt hk2
      · rcases h4 with h4 | h4
        · exact .inl (by omega)
        · exact .inr h4
    · rw [scanMatch, if_neg h]
      exact ⟨le_rfl, by omega, fun k h1 h2 => absurd h2 (by omega), .inr h⟩

/-- The measured length: all bytes up to it agree, and it is 160 or the next one differs (R156). -/
theorem measuredLength_spec (P : Params) (s : State) (cand : W32) :
    measuredLength P s cand ≤ 160 ∧
      (∀ r, 1 ≤ r → r ≤ measuredLength P s cand → BytesAgree P s cand r) ∧
      (measuredLength P s cand = 160 ∨ ¬ BytesAgree P s cand (measuredLength P s cand + 1)) := by
  obtain ⟨h1, h2, h3, h4⟩ := scanMatch_spec P s cand Config.maxMatch 1
  unfold measuredLength
  simp only [Config.maxMatch] at *
  refine ⟨by omega, fun r hr1 hr2 => h3 r hr1 (by omega), ?_⟩
  rcases h4 with h4 | h4
  · exact .inl (by omega)
  · refine .inr ?_
    rwa [show scanMatch P s cand 160 1 - 1 + 1 = scanMatch P s cand 160 1 by omega]

/-- Everything a boundary can do to the match (R155, R156). -/
theorem matchBoundary_cases (P : Params) (s : State) :
    (s.matchLen.toNat > 0 ∧ (matchBoundary P s).matchPos = s.matchPos + 1 ∧
      (matchBoundary P s).matchLen.toNat = min (s.matchLen.toNat + 1) 160) ∨
    (s.matchLen.toNat = 0 ∧ (matchBoundary P s).matchPos = hashesRead s s.hash ∧
      (matchBoundary P s).matchLen.toNat =
        if candidateUsable P s (hashesRead s s.hash)
        then measuredLength P s (hashesRead s s.hash) else 0) := by
  by_cases h : s.matchLen.toNat > 0
  · refine .inl ⟨h, ?_, ?_⟩
    · simp [matchBoundary, h]
    · simp only [matchBoundary, if_pos h, withMatch_matchLen, BitVec.toNat_ofNat, Config.maxMatch]
      omega
  · refine .inr ⟨by omega, ?_, ?_⟩
    · simp [matchBoundary, h, matchSearch]
    · have hl := (measuredLength_spec P s (hashesRead s s.hash)).1
      simp only [matchBoundary, if_neg h, matchSearch, withMatch_matchLen]
      split
      · rw [BitVec.toNat_ofNat]
        omega
      · omega

/-- The prefix test in plain arithmetic (R157). -/
theorem prefixHolds_iff (e : Byte) (bpos : BitVec 3) (c0 : BitVec 8) :
    prefixHolds e bpos c0 = true ↔ (256 + e.toNat) / 2 ^ (8 - bpos.toNat) = c0.toNat := by
  have he := e.isLt
  have hc := c0.isLt
  have h : (e.setWidth 9 ||| 0x100#9).toNat = 256 + e.toNat := by
    rw [BitVec.toNat_or, BitVec.toNat_setWidth, Nat.mod_eq_of_lt (by omega), Nat.or_comm]
    have := Nat.two_pow_add_eq_or_of_lt (i := 8) (b := e.toNat) (by omega) 1
    simpa using this.symm
  rw [prefixHolds, beq_iff_eq, ← BitVec.toNat_inj, BitVec.toNat_ushiftRight, h,
    Nat.shiftRight_eq_div_pow, BitVec.toNat_setWidth, Nat.mod_eq_of_lt (by omega)]

/-- At the start of a byte the prefix test holds (R157). -/
theorem prefixHolds_start (e : Byte) : prefixHolds e 0 1 = true := by
  rw [prefixHolds_iff]
  have := e.isLt
  simp
  omega

/-- Match_Bit with room for its input: it always answers, and changes the match only by dropping it
(R157). -/
theorem matchBit_cases (P : Params) {s : State} (h : s.mcur.val < 8) :
    (s.matchLen.toNat > 0 ∧ prefixHolds (predictedByte P s) s.bpos s.c0 = true ∧
      matchBit P s = some (s.withMixer
        (mixerWrite s.mixer (inputIndex s.ctxm s.mcur.val)
          (matchInput s.matchLen (predictedBit (predictedByte P s) s.bpos)))
        ⟨s.mcur.val + 1, by omega⟩)) ∨
    (s.matchLen.toNat > 0 ∧ prefixHolds (predictedByte P s) s.bpos s.c0 = false ∧
      matchBit P s = some (s.withMatch 0 s.matchPos)) ∨
    (s.matchLen.toNat = 0 ∧ matchBit P s = some s) := by
  by_cases hl : s.matchLen.toNat > 0
  · by_cases hp : prefixHolds (predictedByte P s) s.bpos s.c0 = true
    · exact .inl ⟨hl, hp, by rw [matchBit, if_pos hl, if_pos hp, mixerAddInput_eq h]⟩
    · exact .inr (.inl ⟨hl, by simpa using hp, by rw [matchBit, if_pos hl, if_neg hp]⟩)
  · exact .inr (.inr ⟨by omega, by rw [matchBit, if_neg hl]⟩)

/-- The match input in plain arithmetic (R157, R159). -/
theorem matchInput_eq (len : BitVec 8) (pb : Bool) :
    matchInput len pb = BitVec.ofInt 32
      (64 * (if pb then (matchStrength len.toNat : Int) else -(matchStrength len.toNat : Int))) := by
  simp only [matchInput]
  congr 1
  ring

theorem matchStrength_eq (n : Nat) :
    matchStrength n = if n < 32 then n else 32 + (n - 32) / 4 := by
  simp [matchStrength, Nat.shiftRight_eq_div_pow]

end Sys2Proof.Laws
end

