-- ==== Sys2Proof/Laws/Memory.lean ====
section
/-! SUPPORT. The indices of the five arrays in plain arithmetic (20_memory.md R55), and the canonical
form of State's arrays: every write of an element keeps it, and RESET's arrays have it (log entry 2). -/

namespace Sys2Proof.Laws

open Sys2Proof.Machine

/-! ## Indices -/

theorem ringSize_cases (P : Params) : P.ringSize = 2 ^ 25 ∨ P.ringSize = 2 ^ 28 := by
  cases h : P.bufBits <;> simp [Params.ringSize, BufBits.bits, h]

theorem ringMask_toNat (P : Params) : (ringMask P).toNat = P.ringSize - 1 := by
  rcases ringSize_cases P with h | h <;> simp [ringMask, h]

theorem slotMask_toNat (P : Params) : (slotMask P).toNat = P.ringSize - 1 := by
  rcases ringSize_cases P with h | h <;> simp [slotMask, h]

theorem and_ringSize (P : Params) (n : Nat) : n &&& (P.ringSize - 1) = n % P.ringSize := by
  unfold Params.ringSize
  exact Nat.and_two_pow_sub_one_eq_mod n _

/-- The ring index is the byte count modulo B. -/
theorem ringIndex_eq (P : Params) (v : W32) : ringIndex P v = v.toNat % P.ringSize := by
  rw [ringIndex, BitVec.toNat_and, ringMask_toNat, and_ringSize]

/-- The store index of a slot pointer is the pointer modulo B. -/
theorem slotIndex_eq (P : Params) (v : BitVec 28) : slotIndex P v = v.toNat % P.ringSize := by
  rw [slotIndex, BitVec.toNat_and, slotMask_toNat, and_ringSize]

theorem ringSize_pos (P : Params) : 0 < P.ringSize := by
  rcases ringSize_cases P with h | h <;> simp [h]

theorem ringIndex_lt (P : Params) (v : W32) : ringIndex P v < P.ringSize := by
  rw [ringIndex_eq]
  exact Nat.mod_lt _ (ringSize_pos P)

theorem slotIndex_lt (P : Params) (v : BitVec 28) : slotIndex P v < P.ringSize := by
  rw [slotIndex_eq]
  exact Nat.mod_lt _ (ringSize_pos P)

/-- A slot's pointer is its base plus the partial byte, modulo B (R141). -/
theorem slotPointer_toNat (P : Params) (base : BitVec 28) (c0 : BitVec 8) :
    (slotPointer P base c0).toNat = (base.toNat + c0.toNat) % P.ringSize := by
  have h0 := c0.isLt
  rw [slotPointer, BitVec.toNat_and, slotMask_toNat, and_ringSize, BitVec.toNat_add,
    BitVec.toNat_setWidth]
  rcases ringSize_cases P with h | h <;> rw [h] <;> omega

/-- A stored base is the whitened value modulo B (R138). -/
theorem contextBase_toNat (P : Params) (v : W32) :
    ((v &&& ringMask P).setWidth 28).toNat = v.toNat % P.ringSize := by
  rw [BitVec.toNat_setWidth, BitVec.toNat_and, ringMask_toNat, and_ringSize]
  rcases ringSize_cases P with h | h <;> rw [h] <;> omega

/-! ## The canonical form -/

theorem wf_iff {P : Params} {s : State} :
    Memory.wf P s = true ↔
      canonical zeroCell P.ringSize s.buffer = true ∧
      canonical zeroCell P.ringSize s.states = true ∧
      canonical zeroCell Config.hashEntries s.hashes = true ∧
      canonical zeroCell Config.mixerSize s.mixer = true ∧
      canonical (apmTemplate P) Config.apmSize s.apm = true := by
  simp [Memory.wf, and_assoc]

theorem wf_constructed (P : Params) : Memory.wf P (State.constructed P) = true := by
  simp [wf_iff, State.constructed]

theorem wf_bufferWrite {P : Params} {s : State} (h : Memory.wf P s = true) (v : W32) (x : Byte) :
    Memory.wf P (bufferWrite P s v x) = true := by
  rw [wf_iff] at h ⊢
  simpa [h, bufferWrite] using canonical_writeCell h.1 (ringIndex_lt P v)

theorem wf_statesWrite {P : Params} {s : State} (h : Memory.wf P s = true) (v : BitVec 28)
    (x : Byte) : Memory.wf P (statesWrite P s v x) = true := by
  rw [wf_iff] at h ⊢
  simpa [h, statesWrite] using canonical_writeCell h.2.1 (slotIndex_lt P v)

theorem wf_hashesWrite {P : Params} {s : State} (h : Memory.wf P s = true) (g : BitVec 23)
    (v : W32) : Memory.wf P (hashesWrite s g v) = true := by
  rw [wf_iff] at h ⊢
  simpa [h, hashesWrite] using canonical_writeCell h.2.2.1 g.isLt

/-- A write of a mixer element inside the array keeps its form; the rules only write `16c + k` with
`k` below 16. -/
theorem canonical_mixerWrite {m : List WordCell} (h : canonical zeroCell Config.mixerSize m = true)
    {a : Nat} (ha : a < Config.mixerSize) (v : W32) :
    canonical zeroCell Config.mixerSize (mixerWrite m a v) = true := canonical_writeCell h ha

theorem wf_withMixer {P : Params} {s : State} (h : Memory.wf P s = true) {m : List WordCell}
    (hm : canonical zeroCell Config.mixerSize m = true) (cur : Fin 9) :
    Memory.wf P (s.withMixer m cur) = true := by
  rw [wf_iff] at h ⊢
  simp [h, hm]

theorem wf_apmWrite {P : Params} {s : State} (h : Memory.wf P s = true) {a : Nat}
    (ha : a < Config.apmSize) (v : W32) : Memory.wf P (apmWrite P s a v) = true := by
  rw [wf_iff] at h ⊢
  simpa [h, apmWrite] using canonical_writeCell h.2.2.2.2 ha

/-- A state whose five arrays are those of another has its form. -/
theorem wf_congr {P : Params} {s t : State} (h1 : t.buffer = s.buffer) (h2 : t.states = s.states)
    (h3 : t.hashes = s.hashes) (h4 : t.mixer = s.mixer) (h5 : t.apm = s.apm) :
    Memory.wf P t = Memory.wf P s := by
  rw [Memory.wf, h1, h2, h3, h4, h5, Memory.wf]

/-- Every element the queried SSE cell names lies inside `APM` (R39). -/
theorem aidx_lt (s : State) : s.aidx.val + 1 < Config.apmSize := by
  have := s.aidx.isLt
  simp only [Config.apmSize, Config.apmRows, Config.apmKnots]
  omega

end Sys2Proof.Laws
end

