-- ==== Sys2Proof/Laws/ContextStore.lean ====
section
/-! SUPPORT. The laws of the context store: what the slots of UPDATE do to the bit histories, the
pointers and the mixer inputs, said once for any list of different slots, and what a byte commit
leaves. -/

namespace Sys2Proof.Laws

open Sys2Proof.Machine

/-! ## Reads after writes -/

theorem bufferRead_bufferWrite (P : Params) (s : State) (v u : W32) (x : Byte) :
    bufferRead P (bufferWrite P s v x) u =
      if ringIndex P u = ringIndex P v then x else bufferRead P s u := by
  simp [bufferRead, bufferWrite, readCell_writeCell]

theorem statesRead_statesWrite (P : Params) (s : State) (v u : BitVec 28) (x : Byte) :
    statesRead P (statesWrite P s v x) u =
      if slotIndex P u = slotIndex P v then x else statesRead P s u := by
  simp [statesRead, statesWrite, readCell_writeCell]

theorem hashesRead_hashesWrite (s : State) (h g : BitVec 23) (v : W32) :
    hashesRead (hashesWrite s h v) g = if g = h then v else hashesRead s g := by
  simp [hashesRead, hashesWrite, readCell_writeCell, BitVec.toNat_inj]

/-! ## The slots (R141, R142) -/

/-- `n` advances of a bit history on the bit `b`. -/
abbrev advanced (P : Params) (b : Bit) (n : Nat) (q : Byte) : Byte :=
  (fun q => nextState P q b)^[n] q

/-- How many slots of `l` point at the element of `v`. -/
abbrev pointingAt (P : Params) (s : State) (l : List (Fin 7)) (v : BitVec 28) : Nat :=
  l.countP fun j => slotIndex P s.cp[j] = slotIndex P v

/-- The state update of one slot: a read at `v` sees one advance exactly when the slot points there. -/
theorem statesRead_advance (P : Params) (b : Bit) (i : Fin 7) (s : State) (v : BitVec 28) :
    statesRead P (statesWrite P s s.cp[i] (nextState P (statesRead P s s.cp[i]) b)) v =
      advanced P b (pointingAt P s [i] v) (statesRead P s v) := by
  rw [statesRead_statesWrite, pointingAt, List.countP_singleton]
  by_cases hv : slotIndex P s.cp[i] = slotIndex P v
  · have hr : statesRead P s s.cp[i] = statesRead P s v := by rw [statesRead, hv, statesRead]
    rw [if_pos hv.symm, if_pos (by simpa using hv), hr]
    rfl
  · rw [if_neg (Ne.symm hv), if_neg (by simpa using hv)]
    rfl

/-- One slot with room for its input: it always answers. -/
theorem slotStep_eq (P : Params) (b : Bit) (i : Fin 7) {s : State} (h : s.mcur.val < 8) :
    slotStep P b i s = some
      (((statesWrite P s s.cp[i] (nextState P (statesRead P s s.cp[i]) b)).withCp
          (s.cp.set i.val (slotPointer P s.ctx[i] s.c0) i.isLt)).withMixer
        (mixerWrite s.mixer (inputIndex s.ctxm s.mcur.val)
          (stateMap P i (advanced P b (pointingAt P s [i] (slotPointer P s.ctx[i] s.c0))
            (statesRead P s (slotPointer P s.ctx[i] s.c0)))))
        ⟨s.mcur.val + 1, by omega⟩) := by
  rw [slotStep, mixerAddInput_eq (by simpa using h)]
  simp only [withCp_mixer, withCp_ctxm, withCp_mcur, statesWrite_mixer, statesWrite_ctxm,
    statesWrite_mcur, statesWrite_cp, statesWrite_ctx, statesWrite_c0]
  congr 4
  have hcp : (((statesWrite P s s.cp[i] (nextState P (statesRead P s s.cp[i]) b)).withCp
      (s.cp.set i.val (slotPointer P s.ctx[i] s.c0) i.isLt)).cp)[i] =
      slotPointer P s.ctx[i] s.c0 := by
    simp
  rw [hcp, show ∀ (t : State) (c : Vector (BitVec 28) 7) (v : BitVec 28),
    statesRead P (t.withCp c) v = statesRead P t v from fun t c v => by simp [statesRead],
    statesRead_advance]

/-- Everything a list of slots does (R141, R142). -/
structure SlotsDone (P : Params) (b : Bit) (l : List (Fin 7)) (s t : State) : Prop where
  frame : t = ((s.withStates t.states).withCp t.cp).withMixer t.mixer t.mcur
  cursor : t.mcur.val = s.mcur.val + l.length
  moved : ∀ i : Fin 7, t.cp[i] = if i ∈ l then slotPointer P s.ctx[i] s.c0 else s.cp[i]
  states : ∀ v, statesRead P t v = advanced P b (pointingAt P s l v) (statesRead P s v)
  input : ∀ k (hk : k < l.length), mixerInput t s.ctxm (s.mcur.val + k) =
    stateMap P l[k] (advanced P b
      (pointingAt P s (l.take (k + 1)) (slotPointer P s.ctx[l[k]] s.c0))
      (statesRead P s (slotPointer P s.ctx[l[k]] s.c0)))
  other : ∀ a, (∀ k < l.length, a ≠ inputIndex s.ctxm (s.mcur.val + k)) →
    mixerRead t.mixer a = mixerRead s.mixer a
  wf : Memory.wf P s = true → Memory.wf P t = true

theorem slotSteps_spec (P : Params) (b : Bit) (l : List (Fin 7)) (hl : l.Nodup) (s : State)
    (h : s.mcur.val + l.length ≤ 8) :
    ∃ t, slotSteps P b l s = some t ∧ SlotsDone P b l s t := by
  induction l generalizing s with
  | nil =>
    exact ⟨s, rfl, by cases s; rfl, rfl, fun i => by simp, fun v => rfl,
      fun k hk => absurd hk (by simp), fun a _ => rfl, id⟩
  | cons i l ih =>
    obtain ⟨hi, hl⟩ := List.nodup_cons.mp hl
    rw [List.length_cons] at h
    rw [slotSteps, slotStep_eq P b i (by omega), Option.bind_some]
    set u := ((statesWrite P s s.cp[i] (nextState P (statesRead P s s.cp[i]) b)).withCp
          (s.cp.set i.val (slotPointer P s.ctx[i] s.c0) i.isLt)).withMixer
        (mixerWrite s.mixer (inputIndex s.ctxm s.mcur.val)
          (stateMap P i (advanced P b (pointingAt P s [i] (slotPointer P s.ctx[i] s.c0))
            (statesRead P s (slotPointer P s.ctx[i] s.c0)))))
        ⟨s.mcur.val + 1, by omega⟩ with hu
    have ucur : u.mcur.val = s.mcur.val + 1 := by simp [hu]
    have uctx : u.ctx = s.ctx := by simp [hu]
    have uc0 : u.c0 = s.c0 := by simp [hu]
    have uctxm : u.ctxm = s.ctxm := by simp [hu]
    have umix : u.mixer = mixerWrite s.mixer (inputIndex s.ctxm s.mcur.val)
          (stateMap P i (advanced P b (pointingAt P s [i] (slotPointer P s.ctx[i] s.c0))
            (statesRead P s (slotPointer P s.ctx[i] s.c0)))) := by simp [hu]
    have ucp : ∀ j : Fin 7, u.cp[j] = if j = i then slotPointer P s.ctx[i] s.c0 else s.cp[j] := by
      intro j
      have : u.cp = s.cp.set i.val (slotPointer P s.ctx[i] s.c0) i.isLt := by simp [hu]
      rw [this]
      by_cases hj : j = i
      · subst hj; simp
      · have hne : i.val ≠ j.val := fun hv => hj (Fin.ext hv.symm)
        rw [if_neg hj]
        simp [hne]
    have ust : ∀ v, statesRead P u v = advanced P b (pointingAt P s [i] v) (statesRead P s v) := by
      intro v
      have : statesRead P u v = statesRead P (statesWrite P s s.cp[i]
          (nextState P (statesRead P s s.cp[i]) b)) v := by simp [hu, statesRead]
      rw [this, statesRead_advance]
    have uframe : u = ((s.withStates u.states).withCp u.cp).withMixer u.mixer u.mcur := by
      rw [hu]
      simp only [statesWrite]
      cases s
      rfl
    have uwf : Memory.wf P s = true → Memory.wf P u = true := by
      intro hw
      have hs := wf_statesWrite hw s.cp[i] (nextState P (statesRead P s s.cp[i]) b)
      rw [hu]
      refine wf_withMixer ((wf_congr ?_ ?_ ?_ ?_ ?_).trans hs)
        (canonical_mixerWrite (wf_iff.mp hw).2.2.2.1 (inputIndex_lt _ (by omega)) _) _ <;> simp
    obtain ⟨t, ht, hf, hc, hm, hs, hin, ho, hw⟩ := ih hl u (by omega)
    have hpoint : ∀ (l' : List (Fin 7)) (v : BitVec 28), (∀ j ∈ l', j ∈ l) →
        pointingAt P u l' v = pointingAt P s l' v := by
      intro l' v hsub
      refine List.countP_congr fun j hj => ?_
      rw [ucp j, if_neg (fun e => hi (by subst e; exact hsub _ hj))]
    have hadv : ∀ (n : Nat) (v : BitVec 28),
        advanced P b n (advanced P b (pointingAt P s [i] v) (statesRead P s v)) =
          advanced P b (n + pointingAt P s [i] v) (statesRead P s v) := fun n v =>
      (Function.iterate_add_apply _ _ _ _).symm
    have hcons : ∀ (l' : List (Fin 7)) (v : BitVec 28),
        pointingAt P s (i :: l') v = pointingAt P s l' v + pointingAt P s [i] v := by
      intro l' v
      rw [pointingAt, List.countP_cons, pointingAt, pointingAt, List.countP_singleton]
    refine ⟨t, ht, ?_, ?_, ?_, ?_, ?_, ?_, fun h => hw (uwf h)⟩
    · generalize u.states = us, u.cp = uc, u.mixer = um, u.mcur = ur at uframe
      rw [hf]
      generalize t.states = ts, t.cp = tc, t.mixer = tm, t.mcur = tr
      rw [uframe]
      cases s
      rfl
    · rw [hc, ucur, List.length_cons]
      omega
    · intro j
      rw [hm j, uctx, uc0, ucp j]
      by_cases hj : j = i
      · subst hj
        rw [if_neg hi, if_pos rfl, if_pos List.mem_cons_self]
      · simp [hj]
    · intro v
      rw [hs v, ust v, hpoint l v fun _ h => h, hadv, hcons l v]
    · intro k hk
      cases k with
      | zero =>
        rw [Nat.add_zero, mixerInput, ho]
        · rw [umix, mixerRead_mixerWrite, if_pos rfl]
          rfl
        · intro k hk he
          rw [uctxm, ucur] at he
          have := ((inputIndex_inj (c := s.ctxm) (d := s.ctxm) (by omega) (by omega)).mp he).2
          omega
      | succ k =>
        have hk' : k < l.length := by simpa using hk
        have := hin k hk'
        rw [uctxm, ucur, uctx, uc0, ust, hadv,
          hpoint _ _ fun _ h => List.mem_of_mem_take h] at this
        rw [show s.mcur.val + (k + 1) = s.mcur.val + 1 + k by omega, this]
        simp only [List.getElem_cons_succ, List.take_succ_cons]
        rw [hcons (l.take (k + 1))]
    · intro a ha
      rw [ho a, umix, mixerRead_mixerWrite, if_neg]
      · have := ha 0 (by simp)
        simpa using this
      · intro k hk
        have := ha (k + 1) (by simpa using hk)
        rw [uctxm, ucur, show s.mcur.val + 1 + k = s.mcur.val + (k + 1) by omega]
        exact this

/-! ## The byte commit (R135) -/

@[simp] theorem contextsRebuild_ctx (P : Params) (s : State) :
    (contextsRebuild P s).ctx = Vector.ofFn fun i => contextBase P i.val (contextValue P s i) := by
  simp [contextsRebuild]

section
variable (P : Params) (byte : Byte) (s : State)
@[simp] theorem byteCommit_pr : (byteCommit P byte s).pr = s.pr := by simp [byteCommit]
@[simp] theorem byteCommit_cp : (byteCommit P byte s).cp = s.cp := by simp [byteCommit]
@[simp] theorem byteCommit_mixer : (byteCommit P byte s).mixer = s.mixer := by simp [byteCommit]
@[simp] theorem byteCommit_mcur : (byteCommit P byte s).mcur = s.mcur := by simp [byteCommit]
@[simp] theorem byteCommit_mpr : (byteCommit P byte s).mpr = s.mpr := by simp [byteCommit]
@[simp] theorem byteCommit_apm : (byteCommit P byte s).apm = s.apm := by simp [byteCommit]
@[simp] theorem byteCommit_aidx : (byteCommit P byte s).aidx = s.aidx := by simp [byteCommit]
@[simp] theorem byteCommit_states : (byteCommit P byte s).states = s.states := by simp [byteCommit]
@[simp] theorem byteCommit_status : (byteCommit P byte s).status = s.status := by simp [byteCommit]
@[simp] theorem byteCommit_cmds : (byteCommit P byte s).cmds = s.cmds := by simp [byteCommit]
@[simp] theorem byteCommit_resp : (byteCommit P byte s).resp = s.resp := by simp [byteCommit]
@[simp] theorem byteCommit_c0 : (byteCommit P byte s).c0 = 1 := by simp [byteCommit]
@[simp] theorem byteCommit_bpos : (byteCommit P byte s).bpos = 0 := by simp [byteCommit]
@[simp] theorem byteCommit_pos : (byteCommit P byte s).pos = s.pos + 1 := by simp [byteCommit]
@[simp] theorem byteCommit_c4 : (byteCommit P byte s).c4 = (s.c4 <<< 8) ||| byte.setWidth 32 := by
  simp [byteCommit]
@[simp] theorem byteCommit_hash :
    (byteCommit P byte s).hash = rollHash s.hash (byteCommit P byte s).c4 := by
  simp [byteCommit]
@[simp] theorem byteCommit_buffer :
    (byteCommit P byte s).buffer = (bufferWrite P s s.pos byte).buffer := by
  simp [byteCommit]
theorem byteCommit_ctxm : (byteCommit P byte s).ctxm =
    ((byteCommit P byte s).c4 &&& BitVec.ofNat 32 (Config.mixerRows - 1)).setWidth 12 := by
  simp [byteCommit]
theorem byteCommit_hashes : (byteCommit P byte s).hashes =
    (hashesWrite s (byteCommit P byte s).hash (byteCommit P byte s).pos).hashes := by
  simp [byteCommit, hashesWrite]
end

/-- A context value depends only on `c4`, `hash`, `pos` and the ring. -/
theorem contextValue_congr (P : Params) {s t : State} (h1 : s.c4 = t.c4) (h2 : s.hash = t.hash)
    (h3 : s.pos = t.pos) (h4 : s.buffer = t.buffer) (i : Fin 7) :
    contextValue P s i = contextValue P t i := by
  have hp : packedBytes P s = packedBytes P t := by simp [packedBytes, bufferRead, h3, h4]
  unfold contextValue
  split <;> simp [h1, h2, hp]

/-- The contexts after a commit, from the registers and the ring after it (R139). -/
theorem byteCommit_ctx (P : Params) (byte : Byte) (s : State) (i : Fin 7) :
    (byteCommit P byte s).ctx[i] =
      contextBase P i.val (contextValue P (byteCommit P byte s) i) := by
  have h : (byteCommit P byte s).ctx =
      (contextsRebuild P (countByte byte (bufferWrite P s s.pos byte))).ctx := by
    simp [byteCommit]
  rw [h, contextsRebuild_ctx]
  simp only [Fin.getElem_fin, Vector.getElem_ofFn]
  congr 1
  apply contextValue_congr <;> simp

/-- The match after a commit: continued, or looked up under the new hash (R155, R156). -/
theorem byteCommit_match (P : Params) (byte : Byte) (s : State) :
    let t := byteCommit P byte s
    (s.matchLen.toNat > 0 ∧ t.matchPos = s.matchPos + 1 ∧
      t.matchLen.toNat = min (s.matchLen.toNat + 1) 160) ∨
    (s.matchLen.toNat = 0 ∧ t.matchPos = hashesRead s t.hash ∧
      t.matchLen.toNat =
        if candidateUsable P t t.matchPos then measuredLength P t t.matchPos else 0) := by
  have hscan : ∀ (u v : State) (cand : W32) (fuel r : Nat), u.pos = v.pos → u.buffer = v.buffer →
      scanMatch P u cand fuel r = scanMatch P v cand fuel r := by
    intro u v cand fuel r hp hb
    induction fuel generalizing r with
    | zero => rfl
    | succ fuel ih =>
      have hr : ∀ x, bufferRead P u x = bufferRead P v x := fun x => by rw [bufferRead, hb, bufferRead]
      rw [scanMatch, scanMatch, hp, hr, hr, ih]
  intro t
  have hc := matchBoundary_cases P (mixerSetContext (countByte byte (bufferWrite P s s.pos byte)).c4
    (contextsRebuild P (countByte byte (bufferWrite P s s.pos byte))))
  set u := mixerSetContext (countByte byte (bufferWrite P s s.pos byte)).c4
    (contextsRebuild P (countByte byte (bufferWrite P s s.pos byte))) with hu
  have e1 : t.matchPos = (matchBoundary P u).matchPos := by simp [t, byteCommit, hu]
  have e2 : t.matchLen = (matchBoundary P u).matchLen := by simp [t, byteCommit, hu]
  have e3 : u.matchPos = s.matchPos := by simp [hu]
  have e4 : u.matchLen = s.matchLen := by simp [hu]
  have e5 : u.hash = t.hash := by simp [hu, t]
  have e6 : u.pos = t.pos := by simp [hu, t]
  have e7 : u.buffer = t.buffer := by simp [hu, t]
  have e8 : hashesRead u t.hash = hashesRead s t.hash := by simp [hashesRead, hu]
  rcases hc with ⟨h1, h2, h3⟩ | ⟨h1, h2, h3⟩
  · left
    rw [e1, e2, ← e3, ← e4]
    exact ⟨h1, h2, h3⟩
  · right
    rw [e5, e8] at h2 h3
    refine ⟨by rw [← e4]; exact h1, by rw [e1]; exact h2, ?_⟩
    have e9 : ∀ c, candidateUsable P u c = candidateUsable P t c := fun c => by
      rw [candidateUsable, e6, candidateUsable]
    have e10 : ∀ c, measuredLength P u c = measuredLength P t c := fun c => by
      rw [measuredLength, hscan u t c _ _ e6 e7, measuredLength]
    rw [e2, h3, e1, h2, e9, e10]

/-- A commit keeps the canonical form of the arrays. -/
theorem wf_byteCommit {P : Params} {s : State} (h : Memory.wf P s = true) (byte : Byte) :
    Memory.wf P (byteCommit P byte s) = true := by
  have h1 := wf_iff.mp (wf_bufferWrite h s.pos byte)
  have h2 := wf_iff.mp (wf_hashesWrite h (byteCommit P byte s).hash (byteCommit P byte s).pos)
  rw [wf_iff, byteCommit_buffer, byteCommit_states, byteCommit_hashes, byteCommit_mixer,
    byteCommit_apm]
  refine ⟨h1.1, ?_⟩
  simpa using h2.2

end Sys2Proof.Laws
end

