-- ==== Sys2Proof/Laws/Decode.lean ====
section
/-! SUPPORT. The fields of a command word in plain arithmetic, and what the decoder answers by the
operation field. -/

namespace Sys2Proof.Laws

theorem opField_toNat (w : Word) : (opField w).toNat = w.toNat / 4096 := by
  have := w.isLt
  rw [opField, BitVec.extractLsb'_toNat, Nat.shiftRight_eq_div_pow]
  omega

theorem argField_toNat (w : Word) : (argField w).toNat = w.toNat % 4096 := by
  rw [argField, BitVec.extractLsb'_toNat, Nat.shiftRight_zero]

/-- A word is its operation field above its argument. -/
theorem word_fields (w : Word) : w.toNat = 4096 * (opField w).toNat + (argField w).toNat := by
  rw [opField_toNat, argField_toNat]
  omega

/-- Everything the decoder can answer (30_encoding.md R72, R77, R78). -/
theorem decode_cases (w : Word) :
    (w.toNat = 0 ∧ decode w = .ok .get) ∨
    (∃ b : Bit, w.toNat = 0x1000 + b.toNat ∧ decode w = .ok (.update b)) ∨
    (∃ x : BitVec 12, w.toNat = 0x2000 + x.toNat ∧ decode w = .ok (.squash x)) ∨
    (∃ p : BitVec 12, w.toNat = 0x3000 + p.toNat ∧ decode w = .ok (.stretch p)) ∨
    (w.toNat = 0x4000 ∧ decode w = .ok .reset) ∨
    ((w.toNat ≠ 0 ∧ w.toNat ≠ 0x4000 ∧ ¬ (0x1000 ≤ w.toNat ∧ w.toNat ≤ 0x1001) ∧
        ¬ (0x2000 ≤ w.toNat ∧ w.toNat ≤ 0x3FFF)) ∧ ∃ e, decode w = .error e) := by
  have hf := word_fields w
  have hlt := (argField w).isLt
  have hz : argField w = 0 ↔ (argField w).toNat = 0 := by
    rw [← BitVec.toNat_inj]
    rfl
  have hu : (argField w).extractLsb' 1 11 = 0 ↔ (argField w).toNat < 2 := by
    rw [← BitVec.toNat_inj, BitVec.extractLsb'_toNat, Nat.shiftRight_eq_div_pow]
    simp
    omega
  have hb : ((argField w).extractLsb' 0 1).toNat = (argField w).toNat % 2 := by
    rw [BitVec.extractLsb'_toNat, Nat.shiftRight_zero]
  unfold decode
  split
  · next h =>
    by_cases h0 : argField w = 0
    · exact .inl ⟨by have := hz.mp h0; omega, if_pos h0⟩
    · rw [if_neg h0]
      rw [hz] at h0
      exact .inr (.inr (.inr (.inr (.inr ⟨by omega, _, rfl⟩))))
  · next h =>
    by_cases h0 : (argField w).extractLsb' 1 11 = 0
    · rw [if_pos h0]
      rw [hu] at h0
      exact .inr (.inl ⟨_, by omega, rfl⟩)
    · rw [if_neg h0]
      rw [hu] at h0
      exact .inr (.inr (.inr (.inr (.inr ⟨by omega, _, rfl⟩))))
  · exact .inr (.inr (.inl ⟨_, by omega, rfl⟩))
  · exact .inr (.inr (.inr (.inl ⟨_, by omega, rfl⟩)))
  · next h =>
    by_cases h0 : argField w = 0
    · rw [if_pos h0]
      rw [hz] at h0
      exact .inr (.inr (.inr (.inr (.inl ⟨by omega, rfl⟩))))
    · rw [if_neg h0]
      rw [hz] at h0
      exact .inr (.inr (.inr (.inr (.inr ⟨by omega, _, rfl⟩))))
  · next h1 h2 h3 h4 h5 =>
    replace h1 : (opField w).toNat ≠ 0 := h1
    replace h2 : (opField w).toNat ≠ 1 := h2
    replace h3 : (opField w).toNat ≠ 2 := h3
    replace h4 : (opField w).toNat ≠ 3 := h4
    replace h5 : (opField w).toNat ≠ 4 := h5
    exact .inr (.inr (.inr (.inr (.inr ⟨by omega, _, rfl⟩))))

end Sys2Proof.Laws
end

