-- ==== Sys2Proof/Laws/PerInstr.lean ====
section
/-! SUPPORT. Families of statements about the instruction as syntax, one lemma per constructor. -/

namespace Sys2Proof.Laws

/-- The row of spec/opcode_table.json of a command: its mask, its match, and the operand field as a
number with its width. -/
def tableRow : Instr → Nat × Nat × Nat × Nat
  | .get => (0xFFFF, 0x0000, 0, 0)
  | .update bit => (0xFFFE, 0x1000, bit.toNat, 1)
  | .squash x => (0xF000, 0x2000, x.toNat, 12)
  | .stretch p => (0xF000, 0x3000, p.toNat, 12)
  | .reset => (0xFFFF, 0x4000, 0, 0)

/-- The encoding of a command is its table row: masked with the row's mask it is the row's match, and
its low bits are the operand. -/
def EncodingMatchesTable.Statement (i : Instr) : Prop :=
  (encode i).toNat &&& (tableRow i).1 = (tableRow i).2.1 ∧
    (encode i).toNat = (tableRow i).2.1 + (tableRow i).2.2.1 ∧
    (encode i).toNat % 2 ^ (tableRow i).2.2.2 = (tableRow i).2.2.1

/-- A 12-bit operand below an operation code. -/
theorem appended_operand (op : BitVec 4) (x : BitVec 12) :
    (op ++ x).toNat &&& 0xF000 = 4096 * op.toNat ∧ (op ++ x).toNat = 4096 * op.toNat + x.toNat ∧
      (op ++ x).toNat % 2 ^ 12 = x.toNat := by
  have hx := x.isLt
  have ho := op.isLt
  have h : (op ++ x).toNat = 4096 * op.toNat + x.toNat := by
    rw [BitVec.toNat_append, Nat.shiftLeft_eq, Nat.mul_comm,
      ← Nat.two_pow_add_eq_or_of_lt (i := 12) hx]
  refine ⟨?_, h, by rw [h]; omega⟩
  rw [h]
  apply Nat.eq_of_testBit_eq
  intro k
  rw [Nat.testBit_and, show (0xF000 : Nat) = 2 ^ 12 * (2 ^ 4 - 1) from rfl,
    show (4096 : Nat) = 2 ^ 12 from rfl, Nat.testBit_two_pow_mul_add _ hx, Nat.testBit_two_pow_mul,
    Nat.testBit_two_pow_mul, Nat.testBit_two_pow_sub_one]
  by_cases hk : k < 12
  · simp [hk, show ¬ 12 ≤ k by omega]
  · by_cases hk4 : k - 12 < 4
    · simp [hk, hk4, show 12 ≤ k by omega]
    · have : op.toNat.testBit (k - 12) = false := by
        apply Nat.testBit_lt_two_pow
        calc op.toNat < 2 ^ 4 := ho
          _ ≤ 2 ^ (k - 12) := Nat.pow_le_pow_right (by norm_num) (by omega)
      simp [hk, this]

theorem EncodingMatchesTable.get : Statement .get := by unfold Statement; decide

theorem EncodingMatchesTable.update (bit : Bit) : Statement (.update bit) := by
  unfold Statement
  revert bit
  decide

theorem EncodingMatchesTable.squash (x : BitVec 12) : Statement (.squash x) :=
  appended_operand 2 x

theorem EncodingMatchesTable.stretch (p : BitVec 12) : Statement (.stretch p) :=
  appended_operand 3 p

theorem EncodingMatchesTable.reset : Statement .reset := by unfold Statement; decide

end Sys2Proof.Laws
end

