-- ==== Sys2Proof/Laws/Reference.lean ====
section
/-! SUPPORT. The laws of the reference LUT candidate: the squash rises and stays in its range, and what
the loop that builds the stretch table leaves, said once for any part of it. -/

namespace Sys2Proof.Laws

open Sys2Proof.Machine

/-- The values of R117 lie in [1, 4094] and never fall, over its domain counted as 63·i + j - 2047. -/
theorem refSquash_checked :
    ∀ i < 65, ∀ j < 63, ∀ x ∈ [((63 * i + j : Nat) : Int) - 2047],
      (1 ≤ refSquash x ∧ refSquash x ≤ 4094) ∧ (x < 2047 → refSquash x ≤ refSquash (x + 1)) := by
  decide +kernel

/-- The values of R117 lie in [1, 4094] and never fall, over its domain. -/
theorem refSquash_domain {x : Int} (h0 : -2047 ≤ x) (h1 : x ≤ 2047) :
    (1 ≤ refSquash x ∧ refSquash x ≤ 4094) ∧ (x < 2047 → refSquash x ≤ refSquash (x + 1)) :=
  refSquash_checked ((x + 2047).toNat / 63) (by omega) ((x + 2047).toNat % 63)
    (by omega) x (List.mem_singleton.mpr (by omega))

theorem refSquash_bounds {x : Int} (h0 : -2047 ≤ x) (h1 : x ≤ 2047) :
    1 ≤ refSquash x ∧ refSquash x ≤ 4094 :=
  (refSquash_domain h0 h1).1

theorem refSquash_step {x : Int} (h0 : -2047 ≤ x) (h1 : x < 2047) :
    refSquash x ≤ refSquash (x + 1) :=
  (refSquash_domain h0 (by omega)).2 h1

/-- The loop fills the table up to its 4096 entries. -/
theorem refStretchLoop_length (n : Nat) (x : Int) (filled : Nat) (h0 : -2047 ≤ x)
    (hx : x + n = 2048) (hf : filled ≤ 4096) (hv : x ≤ 2047 → (filled : Int) ≤ refSquash x + 1) :
    (refStretchLoop n x filled).length = 4096 - filled := by
  induction n generalizing x filled with
  | zero => simp [refStretchLoop]
  | succ n ih =>
    have hb := refSquash_bounds h0 (by omega)
    have hle := hv (by omega)
    have hrest := ih (x + 1) ((refSquash x).toNat + 1) (by omega) (by omega) (by omega) (by
      intro hx1
      have := refSquash_step h0 (by omega)
      omega)
    rw [refStretchLoop, List.length_append, List.length_replicate, hrest]
    omega

/-- `e` is the least of the values from `x` to 2047 whose squash reaches `p`, or 2047 if none does. -/
def LeastReaching (x : Int) (p : Nat) (e : Int) : Prop :=
  (x ≤ e ∧ e ≤ 2047 ∧ (p : Int) ≤ refSquash e ∧ ∀ y, x ≤ y → y < e → refSquash y < p) ∨
    (e = 2047 ∧ ∀ y, x ≤ y → y ≤ 2047 → refSquash y < p)

/-- What the loop leaves in entry `p`, counted from the first one it fills. -/
theorem refStretchLoop_least (n : Nat) (x : Int) (filled p : Nat) (h0 : -2047 ≤ x)
    (hx : x + n = 2048) (hv : x ≤ 2047 → (filled : Int) ≤ refSquash x + 1) (hp : filled ≤ p) :
    LeastReaching x p ((refStretchLoop n x filled).getD (p - filled) 2047) := by
  induction n generalizing x filled with
  | zero =>
    refine .inr ⟨?_, fun y _ _ => by omega⟩
    rw [refStretchLoop, List.getD_eq_getElem?_getD, List.getElem?_replicate]
    split <;> rfl
  | succ n ih =>
    have hb := refSquash_bounds h0 (by omega)
    have hle := hv (by omega)
    rw [refStretchLoop]
    by_cases hpv : (p : Int) ≤ refSquash x
    · refine .inl ?_
      rw [List.getD_append _ _ _ _ (by rw [List.length_replicate]; omega),
        List.getD_eq_getElem?_getD, List.getElem?_replicate, if_pos (by omega),
        Option.getD_some]
      exact ⟨le_rfl, by omega, hpv, fun y _ _ => by omega⟩
    · have hrest := ih (x + 1) ((refSquash x).toNat + 1) (by omega) (by omega) (by
        intro hx1
        have := refSquash_step h0 (by omega)
        omega) (by omega)
      rw [List.getD_append_right _ _ _ _ (by rw [List.length_replicate]; omega),
        List.length_replicate, show p - filled - ((refSquash x).toNat + 1 - filled) =
          p - ((refSquash x).toNat + 1) by omega]
      have hall : ∀ e : Int, (∀ y, x + 1 ≤ y → y < e → refSquash y < p) →
          ∀ y, x ≤ y → y < e → refSquash y < p := by
        intro e h y hy hye
        rcases eq_or_lt_of_le hy with rfl | hlt
        · omega
        · exact h y (by omega) hye
      rcases hrest with ⟨h1, h2, h3, h4⟩ | ⟨h1, h2⟩
      · exact .inl ⟨by omega, h2, h3, hall _ h4⟩
      · refine .inr ⟨h1, fun y hy hy2 => ?_⟩
        exact hall 2048 (fun y hy hlt => h2 y hy (by omega)) y hy (by omega)

end Sys2Proof.Laws
end

