-- ==== Sys2Proof/Laws/Update.lean ====
section
/-! SUPPORT. The one lemma of UPDATE's eight steps (40_commands.md R93): they always answer, and what
they leave in each register and array, in terms of the state before and of the fold of the bit. -/

namespace Sys2Proof.Laws

open Sys2Proof.Machine

/-! ## The fold (steps 2 and 3) -/

theorem foldedByte_toNat (b : Bit) (s : State) :
    (foldedByte b s).toNat = 2 * s.c0.toNat + b.toNat := by
  have := b.isLt
  rw [foldedByte, BitVec.toNat_append, Nat.shiftLeft_eq, Nat.mul_comm,
    ← Nat.two_pow_add_eq_or_of_lt (i := 1) (by omega)]

/-- Inside a byte the bit is folded in and counted. -/
theorem foldBit_inside (P : Params) (b : Bit) {s : State} (h : s.c0.toNat < 128) :
    foldBit P b s = s.withPartial ((foldedByte b s).setWidth 8) (s.bpos + 1) := by
  have hf := foldedByte_toNat b s
  have hb := b.isLt
  rw [foldBit, if_neg (by omega)]

/-- The bit that completes a byte commits it. -/
theorem foldBit_completes (P : Params) (b : Bit) {s : State} (h : 128 ≤ s.c0.toNat) :
    foldBit P b s = byteCommit P ((foldedByte b s).setWidth 8) s := by
  have hf := foldedByte_toNat b s
  rw [foldBit, if_pos (by omega)]

section
variable (P : Params) (b : Bit) (s : State)
@[simp] theorem foldBit_pr : (foldBit P b s).pr = s.pr := by unfold foldBit; split <;> simp
@[simp] theorem foldBit_cp : (foldBit P b s).cp = s.cp := by unfold foldBit; split <;> simp
@[simp] theorem foldBit_mixer : (foldBit P b s).mixer = s.mixer := by unfold foldBit; split <;> simp
@[simp] theorem foldBit_mcur : (foldBit P b s).mcur = s.mcur := by unfold foldBit; split <;> simp
@[simp] theorem foldBit_mpr : (foldBit P b s).mpr = s.mpr := by unfold foldBit; split <;> simp
@[simp] theorem foldBit_apm : (foldBit P b s).apm = s.apm := by unfold foldBit; split <;> simp
@[simp] theorem foldBit_aidx : (foldBit P b s).aidx = s.aidx := by unfold foldBit; split <;> simp
@[simp] theorem foldBit_states : (foldBit P b s).states = s.states := by unfold foldBit; split <;> simp
@[simp] theorem foldBit_status : (foldBit P b s).status = s.status := by unfold foldBit; split <;> simp
@[simp] theorem foldBit_cmds : (foldBit P b s).cmds = s.cmds := by unfold foldBit; split <;> simp
@[simp] theorem foldBit_resp : (foldBit P b s).resp = s.resp := by unfold foldBit; split <;> simp
end

/-- Only the ring, the registers and `hashes` matter to the fold's results. -/
theorem wf_foldBit {P : Params} {s : State} (h : Memory.wf P s = true) (b : Bit) :
    Memory.wf P (foldBit P b s) = true := by
  unfold foldBit
  split
  · exact wf_byteCommit h _
  · exact (wf_congr (by simp) (by simp) (by simp) (by simp) (by simp)).trans h

/-! ## The match bit (step 5) -/

/-- Everything step 5 and the padding of step 6 do: the match is kept or dropped, and slot 7 of the
selected row holds its input or PAD. -/
structure MatchBitDone (P : Params) (s t : State) : Prop where
  frame : t = (s.withMixer t.mixer t.mcur).withMatch t.matchLen s.matchPos
  matchLen : t.matchLen = if prefixHolds (predictedByte P s) s.bpos s.c0 then s.matchLen else 0
  other : ∀ a, a ≠ inputIndex s.ctxm 7 → mixerRead t.mixer a = mixerRead s.mixer a
  cursor : 7 ≤ t.mcur.val
  last : mixerRead (padRow s.ctxm t.mcur.val t.mixer) (inputIndex s.ctxm 7) =
    if t.matchLen = 0 then Config.pad
    else matchInput t.matchLen (predictedBit (predictedByte P s) s.bpos)
  wf : Memory.wf P s = true → Memory.wf P t = true

theorem matchBit_spec (P : Params) {s : State} (h : s.mcur.val = 7) :
    ∃ t, matchBit P s = some t ∧ MatchBitDone P s t := by
  rcases matchBit_cases P (s := s) (by omega) with ⟨hl, hp, e⟩ | ⟨hl, hp, e⟩ | ⟨hl, e⟩
  · refine ⟨_, e, ?_, by simp [hp], ?_, by simp [h], ?_, ?_⟩
    · cases s; rfl
    · intro a ha
      rw [withMixer_mixer, h, mixerRead_mixerWrite, if_neg ha]
    · have hne : s.matchLen ≠ 0 := by
        intro h0
        rw [h0] at hl
        exact absurd hl (by decide)
      simp only [withMixer_mixer, withMixer_mcur, withMixer_matchLen, h]
      rw [padRow_input _ _ _ _ (by omega), if_neg (by omega), mixerRead_mixerWrite, if_pos rfl,
        if_neg hne]
    · intro hw
      exact wf_withMixer hw (canonical_mixerWrite (wf_iff.mp hw).2.2.2.1
        (inputIndex_lt _ (by omega)) _) _
  · refine ⟨_, e, ?_, by simp [hp], ?_, by simp [h], ?_, ?_⟩
    · cases s; rfl
    · intro a _
      simp
    · simp only [withMatch_mixer, withMatch_mcur, withMatch_matchLen, h]
      rw [padRow_input _ _ _ _ (by omega)]
      simp
    · intro hw
      exact (wf_congr (by simp) (by simp) (by simp) (by simp) (by simp)).trans hw
  · have hz : s.matchLen = 0 := BitVec.eq_of_toNat_eq (by simpa using hl)
    refine ⟨_, e, ?_, by simp [hz], ?_, by simp [h], ?_, id⟩
    · cases s; rfl
    · intro a _
      rfl
    · rw [h, padRow_input _ _ _ _ (by omega), if_pos ⟨rfl, le_rfl⟩, if_pos hz]

/-! ## Mixing, the SSE stage and the clamp (steps 6, 7 and 8) -/

theorem predict_mixer (P : Params) (b : Bit) (v : State) :
    (predict P b v).mixer = padRow v.ctxm v.mcur.val v.mixer := by
  simp [predict, mixerGet_mixer]

theorem predict_mpr (P : Params) (b : Bit) (v : State) :
    (predict P b v).mpr = mixerOutput P (dotRow v.ctxm (predict P b v).mixer) := by
  rw [predict_mixer]
  simp [predict, mixerGet_mpr, mixerGet_mixer]

theorem predict_apmRead (P : Params) (b : Bit) (v : State) (a : Nat) :
    apmRead P (predict P b v) a =
      if a = v.aidx.val ∨ a = v.aidx.val + 1 then adaptedCell (apmTarget b) (apmRead P v a)
      else apmRead P v a := by
  have h1 : apmRead P (predict P b v) a = apmRead P (apmUpdate P b (mixerGet P v)) a := by
    simp [apmRead, predict]
  have h2 : apmRead P (mixerGet P v) a = apmRead P v a := by simp [apmRead]
  rw [h1, apmUpdate_read, h2, mixerGet_aidx]

theorem predict_aidx (P : Params) (b : Bit) (v : State) :
    (predict P b v).aidx =
      cellIndex (knotOf (stretch P (predict P b v).mpr)) (apmContext v.c0 v.c4) := by
  simp [predict]

theorem predict_pr (P : Params) (b : Bit) (v : State) :
    (predict P b v).pr =
      BitVec.ofInt 12 (clamp (apmResult P (predict P b v).mpr (predict P b v))) := by
  have h : ∀ (t : State) (r : BitVec 12) (q : BitVec 12),
      apmResult P q (t.withPr r) = apmResult P q t := by
    intro t r q
    simp [apmResult, apmRead]
  simp only [predict, withPr_pr, withPr_mpr, h]

/-! ## The eight steps -/

/-- What UPDATE's steps leave. `f` is the state after steps 1 to 3; the registers and arrays of the byte
boundary are those of `f`. -/
structure UpdateDone (P : Params) (b : Bit) (s f t : State) : Prop where
  c0 : t.c0 = f.c0
  bpos : t.bpos = f.bpos
  c4 : t.c4 = f.c4
  pos : t.pos = f.pos
  hash : t.hash = f.hash
  ctx : t.ctx = f.ctx
  ctxm : t.ctxm = f.ctxm
  buffer : t.buffer = f.buffer
  hashes : t.hashes = f.hashes
  status : t.status = s.status
  cmds : t.cmds = s.cmds
  resp : t.resp = s.resp
  matchPos : t.matchPos = f.matchPos
  matchLen : t.matchLen =
    if prefixHolds (predictedByte P t) t.bpos t.c0 then f.matchLen else 0
  mcur : t.mcur = 8
  cp : ∀ i : Fin 7, t.cp[i] = slotPointer P t.ctx[i] t.c0
  states : ∀ v, statesRead P t v = advanced P b (pointingAt P s slotOrder v) (statesRead P s v)
  input : ∀ i : Fin 7, mixerInput t t.ctxm (6 - i.val) =
    stateMap P i (advanced P b (pointingAt P s (slotOrder.take (7 - i.val)) t.cp[i])
      (statesRead P s t.cp[i]))
  lastInput : mixerInput t t.ctxm 7 =
    if t.matchLen = 0 then Config.pad
    else matchInput t.matchLen (predictedBit (predictedByte P t) t.bpos)
  otherInput : ∀ (c : BitVec 12) (k : Nat), k < 8 → c ≠ t.ctxm → mixerInput t c k = mixerInput s c k
  weight : ∀ (c : BitVec 12) (k : Nat), k < 8 → mixerWeight t c k =
    if c = s.ctxm then
      trainedWeight (mixerWeight s c k) (mixerInput s c k) (scaledError b s.mpr)
    else mixerWeight s c k
  mpr : t.mpr = mixerOutput P (dotRow t.ctxm t.mixer)
  apm : ∀ a, apmRead P t a =
    if a = s.aidx.val ∨ a = s.aidx.val + 1 then adaptedCell (apmTarget b) (apmRead P s a)
    else apmRead P s a
  aidx : t.aidx = cellIndex (knotOf (stretch P t.mpr)) (apmContext t.c0 t.c4)
  pr : t.pr = BitVec.ofInt 12 (clamp (apmResult P t.mpr t))
  wf : Memory.wf P s = true → Memory.wf P t = true

theorem wf_mixerUpdate {P : Params} {s : State} (h : Memory.wf P s = true) (b : Bit) :
    Memory.wf P (mixerUpdate b s) = true := by
  have hm := (wf_iff.mp h).2.2.2.1
  refine wf_withMixer h ?_ _
  split
  · exact hm
  · exact canonical_trainRow hm _ _

theorem wf_predict {P : Params} {s : State} (h : Memory.wf P s = true) (b : Bit) :
    Memory.wf P (predict P b s) = true := by
  have hm := (wf_iff.mp h).2.2.2.1
  have h1 : Memory.wf P (mixerGet P s) = true := by
    have := wf_withMixer h (canonical_padRow hm s.ctxm s.mcur.val) 8
    exact (wf_congr (by simp [mixerGet]) (by simp [mixerGet]) (by simp [mixerGet])
      (by simp [mixerGet]) (by simp [mixerGet])).trans this
  have hlt := aidx_lt (mixerGet P s)
  have h2 : Memory.wf P (apmUpdate P b (mixerGet P s)) = true :=
    wf_apmWrite (wf_apmWrite h1 (by omega) _) (by simpa using hlt) _
  exact (wf_congr (by simp [predict]) (by simp [predict]) (by simp [predict]) (by simp [predict])
    (by simp [predict])).trans h2

theorem updateSteps_spec (P : Params) (b : Bit) (s : State) :
    ∃ t, updateSteps P b s = some t ∧
      UpdateDone P b s (foldBit P b (mixerUpdate b s)) t := by
  set f := foldBit P b (mixerUpdate b s) with hf
  have fcur : f.mcur.val = 0 := by simp [hf]
  obtain ⟨u, hu, hs⟩ := slotSteps_spec P b slotOrder (by decide) f (by rw [fcur]; decide)
  have ucur : u.mcur.val = 7 := by rw [hs.cursor, fcur]; rfl
  obtain ⟨v, hv, hm⟩ := matchBit_spec P ucur
  have h0 : updateSteps P b s = some (predict P b v) := by
    rw [updateSteps, feedMixer, ← hf, hu, Option.bind_some, hv]
    rfl
  obtain ⟨uf, uc, um, us, ui, uo, uw⟩ := hs
  obtain ⟨vf, vl, vo, vc, vlast, vw⟩ := hm
  -- the fields of `u` and `v` that the feeding leaves alone
  have g : v = ((((f.withStates u.states).withCp u.cp).withMixer v.mixer v.mcur).withMatch
      v.matchLen f.matchPos) := by
    generalize v.mixer = vm, v.mcur = vr, v.matchLen = vml at vf
    rw [vf]
    generalize u.states = a1, u.cp = a2, u.mixer = a3, u.mcur = a4 at uf
    rw [uf]
    cases f
    rfl
  have gctxm : v.ctxm = f.ctxm := by rw [g]; simp
  have gc0 : v.c0 = f.c0 := by rw [g]; simp
  have gc4 : v.c4 = f.c4 := by rw [g]; simp
  have gbpos : v.bpos = f.bpos := by rw [g]; simp
  have gctx : v.ctx = f.ctx := by rw [g]; simp
  have gcp : v.cp = u.cp := by rw [g]; simp
  have gbuf : v.buffer = f.buffer := by rw [g]; simp
  have gmp : v.matchPos = f.matchPos := by rw [g]; simp
  have gst : v.states = u.states := by rw [g]; simp
  have gapm : v.apm = s.apm := by rw [g]; simp [hf]
  have gaidx : v.aidx = s.aidx := by rw [g]; simp [hf]
  have ubuf : u.buffer = f.buffer := by rw [uf]; simp
  have ump : u.matchPos = f.matchPos := by rw [uf]; simp
  have uctxm : u.ctxm = f.ctxm := by rw [uf]; simp
  have uml : u.matchLen = f.matchLen := by rw [uf]; simp
  have ubpos : u.bpos = f.bpos := by rw [uf]; simp
  have uc0 : u.c0 = f.c0 := by rw [uf]; simp
  have upb : predictedByte P u = predictedByte P (predict P b v) := by
    simp [predictedByte, bufferRead, ubuf, ump, gbuf, gmp]
  have tmix : (predict P b v).mixer = padRow f.ctxm v.mcur.val v.mixer := by
    rw [predict_mixer, gctxm]
  have hord : ∀ i : Fin 7, i ∈ slotOrder := by decide
  have hlen : slotOrder.length = 7 := rfl
  have hpoint : ∀ (l : List (Fin 7)) (x : BitVec 28), pointingAt P f l x = pointingAt P s l x := by
    intro l x
    simp [pointingAt, hf]
  have hread : ∀ x, statesRead P f x = statesRead P s x := by
    intro x
    simp [statesRead, hf]
  have tcp : ∀ i : Fin 7, (predict P b v).cp[i] = slotPointer P f.ctx[i] f.c0 := by
    intro i
    have h1 : (predict P b v).cp = u.cp := by rw [predict_cp, gcp]
    rw [h1, um i, if_pos (hord i)]
  -- the elements of the mixer that steps 4 to 6 leave alone
  have mixSame : ∀ a, (∀ k < 8, a ≠ inputIndex f.ctxm k) →
      mixerRead (predict P b v).mixer a = mixerRead (mixerUpdate b s).mixer a := by
    intro a ha
    rw [tmix, padRow_other _ _ _ fun k _ hk => ha k hk, vo a (by rw [uctxm]; exact ha 7 (by omega)),
      uo a fun k hk => by rw [fcur, Nat.zero_add]; exact ha k (by omega), hf, foldBit_mixer]
  refine ⟨_, h0, ?_⟩
  constructor
  case c0 => rw [predict_c0, gc0]
  case bpos => rw [predict_bpos, gbpos]
  case c4 => rw [predict_c4, gc4]
  case pos => rw [predict_pos, g]; simp
  case hash => rw [predict_hash, g]; simp
  case ctx => rw [predict_ctx, gctx]
  case ctxm => rw [predict_ctxm, gctxm]
  case buffer => rw [predict_buffer, gbuf]
  case hashes => rw [predict_hashes, g]; simp
  case status => rw [predict_status, g]; simp [hf]
  case cmds => rw [predict_cmds, g]; simp [hf]
  case resp => rw [predict_resp, g]; simp [hf]
  case matchPos => rw [predict_matchPos, gmp]
  case matchLen =>
    rw [← upb, predict_matchLen, predict_bpos, predict_c0, gbpos, gc0, vl, uml, ubpos, uc0]
  case mcur => exact predict_mcur v P b
  case cp =>
    intro i
    rw [tcp, predict_ctx, gctx, predict_c0, gc0]
  case states =>
    intro x
    have h1 : statesRead P (predict P b v) x = statesRead P u x := by
      simp [statesRead, gst]
    rw [h1, us, hpoint, hread]
  case input =>
    intro i
    have hi := i.isLt
    have hget : slotOrder[6 - i.val]? = some i := by revert i; decide
    have hslot : ∀ (k : Nat) (j : Fin 7), slotOrder[k]? = some j →
        mixerInput u f.ctxm (f.mcur.val + k) =
          stateMap P j (advanced P b
            (pointingAt P f (slotOrder.take (k + 1)) (slotPointer P f.ctx[j] f.c0))
            (statesRead P f (slotPointer P f.ctx[j] f.c0))) := by
      intro k j hj
      obtain ⟨hk, rfl⟩ := List.getElem?_eq_some_iff.mp hj
      exact ui k hk
    have := hslot (6 - i.val) i hget
    rw [fcur, Nat.zero_add, hpoint, hread, show 6 - i.val + 1 = 7 - i.val by omega] at this
    rw [tcp, ← this, mixerInput, tmix, predict_ctxm, gctxm, padRow_input _ _ _ _ (by omega),
      if_neg (by omega), vo _ ?_, mixerInput]
    rw [uctxm]
    intro h
    have := ((inputIndex_inj (by omega) (by omega)).mp h).2
    omega
  case lastInput =>
    rw [mixerInput, tmix, predict_ctxm, gctxm, ← upb, predict_matchLen, predict_bpos, gbpos, ← uctxm,
      vlast, ubpos]
  case otherInput =>
    intro c k hk hc
    rw [predict_ctxm, gctxm] at hc
    rw [mixerInput, mixSame _ fun j hj he => hc ((inputIndex_inj hk hj).mp he).1]
    exact mixerUpdate_input b s hk c
  case weight =>
    intro c k hk
    rw [mixerWeight, mixSame _ fun j hj he => inputIndex_ne_weightIndex hj hk he.symm]
    exact mixerUpdate_weight b s hk c
  case mpr => rw [predict_ctxm, predict_mpr]
  case apm =>
    intro a
    have h : ∀ a, apmRead P v a = apmRead P s a := by
      intro a
      rw [apmRead, gapm, apmRead]
    rw [predict_apmRead, h, gaidx]
  case aidx => rw [predict_aidx, predict_c0, predict_c4]
  case pr => exact predict_pr P b v
  case wf =>
    intro hw
    exact wf_predict (vw (uw (wf_foldBit (wf_mixerUpdate hw b) b))) b

end Sys2Proof.Laws
end

