-- ==== Sys2Proof/Laws/Step.lean ====
section
/-! SUPPORT. Everything a command and a step can do, said once: the proofs about runs cite these and
never unfold the meanings. -/

namespace Sys2Proof.Laws

open Sys2Proof.Machine

/-! ## The dispatch, and a run step by step -/

theorem exec_get (s : State) : exec .get s = getCommand s := rfl
theorem exec_update (b : Bit) (s : State) : exec (.update b) s = updateCommand Config.params b s := rfl
theorem exec_squash (x : BitVec 12) (s : State) :
    exec (.squash x) s = squashCommand Config.params x s := rfl
theorem exec_stretch (p : BitVec 12) (s : State) :
    exec (.stretch p) s = stretchCommand Config.params p s := rfl
theorem exec_reset (s : State) : exec .reset s = .next (resetCore Config.params s) := rfl

theorem coreRun_succ {M : Host.Core} {s t : M.State} (h : M.step s = .next t) (n : Nat) :
    M.run (n + 1) s = M.run n t := by
  simp [Host.Core.run, h]

/-- One more step of a run, after a step that answers a next state. -/
theorem run_succ {s t : State} (h : step s = .next t) (n : Nat) :
    core.run (n + 1) s = core.run n t := coreRun_succ (M := core) h n

/-! ## What the checks, the commands and a step can do -/

/-- A check that passes (60_exceptions.md R201). -/
theorem unlessFaulted_ok {s : State} (h : s.status.fault = .none) (k : Result) :
    unlessFaulted s k = k := if_pos h

theorem unlessFaulted_faulted {s : State} (h : s.status.fault ≠ .none) (k : Result) :
    unlessFaulted s k = .next (respondFaulted s) := if_neg h

theorem ifInitialised_ok {s : State} (h : s.status.init = true) (k : Result) :
    ifInitialised s k = k := by simp [ifInitialised, h]

theorem ifInitialised_not {s : State} (h : s.status.init = false) (k : Result) :
    ifInitialised s k = .next (raiseFault .notInitialised s) := by simp [ifInitialised, h]

/-- Everything UPDATE can do (40_commands.md R90, R93; 60_exceptions.md R205). -/
theorem updateCommand_cases (P : Params) (b : Bit) (s : State) :
    (s.status.fault ≠ .none ∧ updateCommand P b s = .next (respondFaulted s)) ∨
    (s.status.fault = .none ∧ s.status.init = false ∧
      updateCommand P b s = .next (raiseFault .notInitialised s)) ∨
    (s.status.fault = .none ∧ s.status.init = true ∧ posOverflows s = true ∧
      updateCommand P b s = .next (raiseFault .posOverflow s)) ∨
    (s.status.fault = .none ∧ s.status.init = true ∧ posOverflows s = false ∧
      ∃ t, updateSteps P b s = some t ∧ UpdateDone P b s (foldBit P b (mixerUpdate b s)) t ∧
        updateCommand P b s = .next (respondOk t)) := by
  by_cases hf : s.status.fault = .none
  · cases hi : s.status.init
    · refine .inr (.inl ⟨hf, rfl, ?_⟩)
      rw [updateCommand, unlessFaulted_ok hf, ifInitialised_not hi]
    · cases hp : posOverflows s
      · obtain ⟨t, ht, hd⟩ := updateSteps_spec P b s
        refine .inr (.inr (.inr ⟨hf, rfl, rfl, t, ht, hd, ?_⟩))
        rw [updateCommand, unlessFaulted_ok hf, ifInitialised_ok hi, hp, if_neg Bool.false_ne_true, ht]
      · refine .inr (.inr (.inl ⟨hf, rfl, rfl, ?_⟩))
        rw [updateCommand, unlessFaulted_ok hf, ifInitialised_ok hi, hp, if_pos rfl]
  · exact .inl ⟨hf, unlessFaulted_faulted hf _⟩

/-- Everything GET can do (40_commands.md R90, R91). -/
theorem getCommand_cases (s : State) :
    (s.status.fault ≠ .none ∧ getCommand s = .next (respondFaulted s)) ∨
    (s.status.fault = .none ∧ s.status.init = false ∧
      getCommand s = .next (raiseFault .notInitialised s)) ∨
    (s.status.fault = .none ∧ s.status.init = true ∧
      getCommand s = .next (respondData s (zext16 s.pr))) := by
  by_cases hf : s.status.fault = .none
  · cases hi : s.status.init
    · exact .inr (.inl ⟨hf, rfl, by rw [getCommand, unlessFaulted_ok hf, ifInitialised_not hi]⟩)
    · exact .inr (.inr ⟨hf, rfl, by rw [getCommand, unlessFaulted_ok hf, ifInitialised_ok hi]⟩)
  · exact .inl ⟨hf, unlessFaulted_faulted hf _⟩

/-- Everything a LUT read can do (40_commands.md R90, R96, R97). -/
theorem squashCommand_cases (P : Params) (x : BitVec 12) (s : State) :
    (s.status.fault ≠ .none ∧ squashCommand P x s = .next (respondFaulted s)) ∨
    (s.status.fault = .none ∧
      squashCommand P x s = .next (respondData s (zext16 (squash P x.toInt)))) := by
  by_cases hf : s.status.fault = .none
  · exact .inr ⟨hf, unlessFaulted_ok hf _⟩
  · exact .inl ⟨hf, unlessFaulted_faulted hf _⟩

theorem stretchCommand_cases (P : Params) (p : BitVec 12) (s : State) :
    (s.status.fault ≠ .none ∧ stretchCommand P p s = .next (respondFaulted s)) ∨
    (s.status.fault = .none ∧
      stretchCommand P p s = .next (respondData s (sext16 (stretch P p)))) := by
  by_cases hf : s.status.fault = .none
  · exact .inr ⟨hf, unlessFaulted_ok hf _⟩
  · exact .inl ⟨hf, unlessFaulted_faulted hf _⟩

/-- Everything an illegal word does (60_exceptions.md R201, R204). -/
theorem illegalCommand_cases (s : State) :
    (s.status.fault ≠ .none ∧ illegalCommand s = .next (respondFaulted s)) ∨
    (s.status.fault = .none ∧ illegalCommand s = .next (raiseFault .illegalCommand s)) := by
  by_cases hf : s.status.fault = .none
  · exact .inr ⟨hf, unlessFaulted_ok hf _⟩
  · exact .inl ⟨hf, unlessFaulted_faulted hf _⟩

/-- Everything a step can do (40_commands.md R90). -/
theorem step_cases (s : State) :
    (s.cmds = [] ∧ step s = .next s) ∨
    ∃ w rest, s.cmds = w :: rest ∧
      ((∃ i, decode w = .ok i ∧ step s = exec i (s.withCmds rest)) ∨
        ((∃ e, decode w = .error e) ∧ step s = illegalCommand (s.withCmds rest))) := by
  cases hc : s.cmds with
  | nil => exact .inl ⟨rfl, by simp [step, takeCommand, hc]⟩
  | cons w rest =>
    refine .inr ⟨w, rest, rfl, ?_⟩
    cases hd : decode w with
    | ok i => exact .inl ⟨i, rfl, by simp [step, takeCommand, hc, hd]⟩
    | error e => exact .inr ⟨⟨e, rfl⟩, by simp [step, takeCommand, hc, hd]⟩

end Sys2Proof.Laws
end

