-- ==== Sys2Proof/Tests/Reference.lean ====
section
/-! SUPPORT. The instance Z of spec 95_test_vectors.md, used by the tests as ONE choice of the
parameters. Nothing of the model uses it. -/

namespace Sys2Proof.Tests

open Sys2Proof.Machine

/-- Instance Z of 95_test_vectors.md: the reference LUT candidate of 41_squash_stretch.md R117 and R118,
the illustrative salts, tables of zeros, and the defaults of R6. -/
def instanceZ : Params := withReferenceLut {
  squashTable := fun _ => 0
  stretchTable := fun _ => 0
  stateTable := fun _ _ => 0
  stateMap := fun _ _ => 0
  c1 := 0x01234567
  c2 := 0x89ABCDEF
  c3 := 0x13579BDF
  c4 := 0x2468ACE0
  c5 := 0xFEDCBA98
  hash1 := 0x9E3779B1
  hash2 := 0x85EBCA77
  hash3 := 0xC2B2AE3D }

end Sys2Proof.Tests
end

