-- ==== Sys2Proof/Tests/Slice0.lean ====
section
/-! SUPPORT. Tests. Every expected value is the spec's own (the rule or vector stands in the comment),
never the model's answer. Then, for each statement with hypotheses, a witness: a concrete state and
operands that meet them together, clause by clause at the ends of their ranges. -/

namespace Sys2Proof.Tests

open Sys2Proof.Machine Sys2Proof.Safety Sys2Proof.Laws

/-! ## WellFormed: an ill-formed line for each check (30_encoding.md R81, R82, R83) -/

theorem test_wf_update_two : (AsmLine.update 2).wf = false := by decide
theorem test_wf_update_negative : (AsmLine.update (-1)).wf = false := by decide
theorem test_wf_squash_high : (AsmLine.squash 2048).wf = false := by decide
theorem test_wf_squash_low : (AsmLine.squash (-2049)).wf = false := by decide
theorem test_wf_stretch_high : (AsmLine.stretch 4096).wf = false := by decide
theorem test_wf_stretch_negative : (AsmLine.stretch (-1)).wf = false := by decide
theorem test_wf_byte_high : (AsmLine.byte 256).wf = false := by decide
theorem test_wf_byte_negative : (AsmLine.byte (-1)).wf = false := by decide
theorem test_wf_bytes_not_ascii : (AsmLine.bytes [Char.ofNat 128]).wf = false := by decide
theorem test_wf_ends_accepted : (AsmLine.squash (-2048)).wf = true ∧ (AsmLine.stretch 4095).wf = true ∧
    (AsmLine.byte 255).wf = true := by decide

/-! ## Decode: words written out from the encodings of 30_encoding.md R71, R72 (OP then ARG) -/

theorem test_decode_get : decode 0b0000_000000000000 = .ok .get := by decide
theorem test_decode_update : decode 0b0001_000000000001 = .ok (.update 1) := by decide
theorem test_decode_squash : decode 0b0010_111111111111 = .ok (.squash (BitVec.ofInt 12 (-1))) := by
  decide
theorem test_decode_stretch : decode 0b0011_100000000000 = .ok (.stretch 2048) := by decide
theorem test_decode_reset : decode 0b0100_000000000000 = .ok .reset := by decide
/-- R77 and R78: reserved operations and must-be-zero bits, refused by name. -/
theorem test_decode_illegal :
    decode 0x5000 = .error (.reservedOpcode 5) ∧ decode 0xFFFF = .error (.reservedOpcode 15) ∧
      decode 0x0001 = .error (.nonzeroArg 0 1) ∧ decode 0x1002 = .error (.nonzeroArg 1 2) ∧
      decode 0x4800 = .error (.nonzeroArg 4 0x800) := by decide
theorem test_decode_table_word : decodeTableWord 16 0x1001 = some (.update 1) := by decide

/-! ## The assembler (R81: text; R82 and R83: their examples) -/

theorem test_parse_comment : parseLine "SQUASH -2048 ; lowest".toList = some (.squash (-2048)) := by
  decide
theorem test_parse_hex : parseLine "STRETCH 0xFFF".toList = some (.stretch 4095) := by decide
theorem test_parse_text : parseLine "BYTES \"AB\"".toList = some (.bytes ['A', 'B']) := by decide
theorem test_parse_missing_operand : parseLine "UPDATE".toList = none := by decide
/-- The readings of R83's text that log entry 13 chooses: a semicolon inside the quotes is text, the first
double quote ends the text, and a text may be empty. -/
theorem test_parse_quotes : parseLine "BYTES \"A;B\" ; C".toList = some (.bytes ['A', ';', 'B']) ∧
    parseLine "BYTES \"A\"B\"".toList = none ∧ parseLine "BYTES \"\"".toList = some (.bytes []) := by
  decide
theorem test_byte_example : assembleProgram [.byte 0x41] =
    some [0x1000, 0x1001, 0x1000, 0x1000, 0x1000, 0x1000, 0x1000, 0x1001] := by decide

/-! ## One step of each command -/

/-- What a test reads of an outcome. -/
def outcomeOf {α : Type} (f : State → α) (r : Result) : Option α :=
  match r with
  | .next t => some (f t)
  | .fault _ => none
  | .refused _ => none

/-- The core after RESET with the given word waiting. -/
def waiting (w : Nat) : State := State.reset.withFetchWord 16 w

/-- The state of the instance Z right after RESET, with the registers of a byte in progress. -/
def midByte (c0 : BitVec 8) (bpos : BitVec 3) : State :=
  (State.constructed instanceZ).withPartial c0 bpos

/-- R91: RESET, then GET gives RDATA = 2048. -/
theorem test_get_after_reset : outcomeOf State.resp (step (waiting 0x0000)) = some ⟨1, 2048⟩ := by
  decide
/-- R205: 0x0001 before any RESET raises ILLEGAL_COMMAND, not NOT_INITIALISED. -/
theorem test_get_illegal_before_reset :
    outcomeOf State.resp (step (waiting 0x0001).powerUp) = some ⟨2, 1⟩ := by decide
/-- R93: RESET, then UPDATE 0 gives c0 = 2, bpos = 1, matchLen = 0, pos = 0, and with the reference LUT
pr = 2048. -/
theorem test_update_first :
    outcomeOf (fun t => (t.c0, t.bpos, t.matchLen, t.pos, t.pr))
      (updateCommand instanceZ 0 (State.constructed instanceZ)) = some (2, 1, 0, 0, 2048) := by
  decide +kernel
/-- R135: the eighth UPDATE 0 gives buffer[0] = 0, pos = 1, c4 = 0, hash = 0, hashes[0] = 1, c0 = 1,
bpos = 0. -/
theorem test_update_eighth :
    outcomeOf (fun t => (bufferRead instanceZ t 0, t.pos, t.c4, t.hash, hashesRead t 0, t.c0, t.bpos))
      (updateCommand instanceZ 0 (midByte 128 7)) = some (0, 1, 0, 0, 1, 1, 0) := by decide
/-- R96: SQUASH -2048 (0x2800) returns 0 by saturation. -/
theorem test_squash_saturates : outcomeOf State.resp (step (waiting 0x2800)) = some ⟨1, 0⟩ := by decide
/-- R96: SQUASH 0 gives 2047 with the reference candidate. -/
theorem test_squash_reference : outcomeOf State.resp (squashCommand instanceZ 0 State.reset) =
    some ⟨1, 2047⟩ := by decide
/-- R97: STRETCH 0 gives RDATA 0xF801 with the reference candidate. -/
theorem test_stretch_negative : outcomeOf State.resp (stretchCommand instanceZ 0 State.reset) =
    some ⟨1, 0xF801⟩ := by decide
/-- R113: Stretch(2048) = 1 with the reference candidate. -/
theorem test_stretch_reference : outcomeOf State.resp (stretchCommand instanceZ 2048 State.reset) =
    some ⟨1, 1⟩ := by decide +kernel
/-- R92 and R187: after RESET knot 32 is 65520, and with the reference candidate aidx = 49. -/
theorem test_reset_template :
    outcomeOf (fun t => (apmRead instanceZ t 32, t.aidx.val))
      (resetCommand instanceZ (midByte 128 7)) = some (65520, 49) := by decide +kernel
/-- R208: RESET is the way out of the faulted state. -/
theorem test_reset_leaves_fault :
    outcomeOf (fun t => (t.status, t.resp))
      (step ((waiting 0x4000).withStatus ⟨true, .posOverflow⟩)) = some (⟨true, .none⟩, ⟨0, 0⟩) := by
  decide

/-! ## The sub-blocks at the spec's own examples -/

/-- The vectors of R117 and of 95_test_vectors.md for the candidate, saturation included. -/
theorem test_reference_squash :
    [-2048, -2047, -1024, -128, -1, 0, 1, 127, 128, 1024, 2047, 2048].map refSquash =
      [0, 1, 73, 1546, 2043, 2047, 2051, 2545, 2549, 4022, 4094, 4095] := by decide
/-- The vectors of R118 and of 95_test_vectors.md for the candidate. -/
theorem test_reference_stretch :
    [0, 1, 2, 100, 1000, 2043, 2044, 2047, 2048, 2051, 2052, 3000, 4094, 4095].map refStretch =
      [-2047, -2047, -1984, -951, -292, -1, 0, 0, 1, 1, 2, 258, 1984, 2047] := by decide +kernel
/-- R119: the SSE template row of the candidate. -/
theorem test_reference_template :
    (List.range 33).map (fun j => (knotTemplate instanceZ j).toNat) =
      [0, 32, 48, 96, 160, 256, 432, 720, 1168, 1920, 3104, 4960, 7808, 11952, 17616, 24736, 32752,
       40784, 47904, 53568, 57712, 60560, 62416, 63600, 64352, 64800, 65088, 65264, 65360, 65424, 65472,
       65488, 65520] := by decide +kernel
/-- R136. -/
theorem test_rollHash : rollHash 0 0x41 = 0x41 ∧ rollHash 0x41 0x4141 = 0x35D8F1 := by decide
/-- R138: addContext(0, 0x4141_0000), unmasked and as stored. -/
theorem test_addContext : whiten 0 0x41410000 = 0x2CA5D955 ∧
    contextBase instanceZ 0 0x41410000 = 0x0CA5D955 := by decide
/-- R140. -/
theorem test_binShift : binShift instanceZ 0x41414141 = 0 ∧ binShift instanceZ 0x80 = 16 ∧
    binShift instanceZ 0x80000000 = 16 := by decide
/-- R155: matchLen 160 at matchPos 100 stays 160 and moves to 101. -/
theorem test_match_capped :
    (fun t => (t.matchLen, t.matchPos)) (matchBoundary instanceZ (State.reset.withMatch 160 100)) =
      (160, 101) := by decide
/-- R157: matchLen 7 and predicted byte 0x41 at bpos 0 give -448. -/
theorem test_match_input : (matchInput 7 (predictedBit 0x41 0)).toInt = -448 := by decide
/-- The table of R159. -/
theorem test_match_strength :
    [1, 31, 32, 35, 36, 100, 159, 160].map matchStrength = [1, 31, 32, 32, 33, 49, 63, 64] := by decide
/-- R172: X = 100 and -100 with mpr = 2047 and bit 1. -/
theorem test_training : trainedWeight 0 100 (scaledError 1 2047) = 21 ∧
    (trainedWeight 0 (-100) (scaledError 1 2047)).toInt = -22 := by decide
/-- R187: the two cells of the first UPDATE 1. -/
theorem test_adapted : adaptedCell (apmTarget 1) 32752 = 33009 ∧
    adaptedCell (apmTarget 1) 40784 = 40978 := by decide
/-- R188 and R189: s = 0 selects knot 16; in row 3 that is 115, and 32752 there gives 2047. -/
theorem test_selected : (cellIndex (knotOf 0) 3).val = 115 ∧ interpolate 32752 40784 0 = 2047 := by
  decide
/-- R95. -/
theorem test_clamp : [0, 2047, 2048, 4095].map clamp = [1, 2048, 2048, 4095] := by decide

/-! ## Witnesses

The small states below differ from `State.reset` in the fields their names say. -/

/-- `State.reset` with these words waiting. -/
def queued (l : List Word) : State := State.reset.withCmds l

/-- `State.reset` with a fault recorded and these words waiting. -/
def faulted (code : FaultCode) (l : List Word) : State := (queued l).withStatus ⟨true, code⟩

/-- `State.reset` with this partial byte and byte count. -/
def midStream (c0 : BitVec 8) (bpos : BitVec 3) (pos : W32) : State :=
  (State.reset.withPartial c0 bpos).withCounted pos 0 0

theorem witness_DecodeEncodeAgree :
    ([.get, .update 0, .update 1, .squash 0x800, .squash 0x7FF, .stretch 0, .stretch 0xFFF, .reset] :
      List Instr).all Instr.wf = true ∧ decode 0x3FFF = .ok (.stretch 0xFFF) := by decide
theorem witness_DecodingIsTotal :
    (∀ w ∈ [0x0001, 0x0FFF, 0x1002, 0x1FFF, 0x4001, 0x4FFF, 0x5000, 0xFFFF],
      (decode (BitVec.ofNat 16 w)).toOption = none) ∧
    (queued [0x1002]).status.fault = .none ∧ (queued [0x1002]).cmds = 0x1002 :: [] := by decide
theorem witness_ByteLinesExpandMsbFirst :
    0 ≤ 255 ∧ 255 ≤ 255 ∧ (Char.ofNat 0).toNat < 128 ∧ (Char.ofNat 127).toNat < 128 := by decide
theorem witness_AssemblerChecksRanges :
    ¬ (0 ≤ (-1 : Int) ∧ (-1 : Int) ≤ 255) ∧ ¬ (0 ≤ (256 : Int) ∧ (256 : Int) ≤ 255) := by decide
theorem witness_StepRunsDecodedCommand :
    (queued [0x2800, 0x0000]).cmds = 0x2800 :: [0x0000] ∧ decode 0x2800 = .ok (.squash 0x800) := by
  decide
theorem witness_IdleCoreHoldsItsState : State.reset.cmds = [] := rfl
theorem witness_FaultedCoreRefusesAllButReset :
    (faulted .illegalCommand [0x4000, 0x4001]).status.fault ≠ .none ∧
    (faulted .illegalCommand [0x4000, 0x4001]).cmds = 0x4000 :: [0x4001] ∧
    (faulted .posOverflow [0x4001]).status.fault ≠ .none ∧
    (faulted .posOverflow [0x4001]).cmds = 0x4001 :: [] ∧ (0x4001 : Word) ≠ 0x4000 := by decide
theorem witness_FaultPriority_faulted :
    (faulted .posOverflow [0x1002]).cmds = 0x1002 :: [] ∧
    (faulted .posOverflow [0x1002]).status.fault ≠ .none ∧ (0x1002 : Word) ≠ 0x4000 := by decide
theorem witness_FaultPriority_illegal :
    (queued [0x0001]).powerUp.cmds = 0x0001 :: [] ∧ (queued [0x0001]).powerUp.status.fault = .none ∧
    (decode 0x0001).toOption = none := by decide
theorem witness_FaultPriority_notInitialised :
    (queued [0x1001]).powerUp.cmds = 0x1001 :: [] ∧ (queued [0x1001]).powerUp.status.fault = .none ∧
    (queued [0x1001]).powerUp.status.init = false ∧ decode 0x1001 = .ok (.update 1) ∧
    decode 0x0000 = .ok .get := by decide
theorem witness_FaultPriority_posOverflow :
    ((midStream 128 7 0xFFFFFFFF).withCmds [0x1000]).cmds = 0x1000 :: [] ∧
    ((midStream 128 7 0xFFFFFFFF).withCmds [0x1000]).status = ⟨true, .none⟩ ∧
    decode 0x1000 = .ok (.update 0) ∧ (midStream 128 7 0xFFFFFFFF).bpos = 7 ∧
    (midStream 128 7 0xFFFFFFFF).pos = 0xFFFFFFFF := by decide
theorem witness_FaultsArePrecise :
    State.reset.status.fault = .none ∧
    outcomeOf (fun t => t.status.fault) (step (queued [0x5000])) = some .illegalCommand ∧
    outcomeOf (fun t => t.status.fault) (step (queued [0x1000]).powerUp) = some .notInitialised ∧
    outcomeOf (fun t => t.status.fault)
      (step ((midStream 255 7 0xFFFFFFFF).withCmds [0x1001])) = some .posOverflow := by decide
theorem witness_OnlyResetSetsInitOrClearsFault :
    outcomeOf (fun t => t.status) (step (faulted .posOverflow [0x2000])) = some ⟨true, .posOverflow⟩ ∧
    (faulted .posOverflow [0x2000]).cmds.head? ≠ some 0x4000 ∧
    (faulted .posOverflow [0x2000]).status.fault ≠ .none := by decide
theorem witness_GetReturnsThePrediction : Running State.reset ∧ Running (State.reset.withPr 4095) :=
  ⟨⟨rfl, rfl⟩, rfl, rfl⟩
theorem witness_GetAndUpdateNeedReset :
    State.reset.powerUp.status.fault = .none ∧ State.reset.powerUp.status.init = false := by decide
theorem witness_SquashReadsItsTable :
    State.reset.status.fault = .none ∧ (0x800 : BitVec 12).toInt = -2048 ∧
    (0x801 : BitVec 12).toInt = ((0 : Fin 4095).val : Int) - 2047 ∧
    (0x7FF : BitVec 12).toInt = ((4094 : Fin 4095).val : Int) - 2047 := by decide
theorem witness_StretchReadsItsTable : State.reset.powerUp.status.fault = .none := rfl
theorem witness_SquashSaturates :
    (-2048 : Int) < -2047 ∧ (2048 : Int) > 2047 ∧ (-2047 : Int) = ((0 : Fin 4095).val : Int) - 2047 ∧
    (2047 : Int) = ((4094 : Fin 4095).val : Int) - 2047 := by decide
theorem witness_ResetConstructsThePredictor : 0 < 65536 ∧ 65535 < 65536 ∧ 0 < 33 ∧ 32 < 33 := by decide
theorem witness_ResetTwiceIsResetOnce :
    ∃ t, exec .reset (faulted .posOverflow [0x0000]) = .next t := ⟨_, rfl⟩

/-- UPDATE is taken right after RESET, at the last byte that can complete, and at the seven bits that
follow it. -/
theorem witness_TakesUpdate :
    TakesUpdate State.reset ∧ TakesUpdate (midStream 255 7 0xFFFFFFFE) ∧
      TakesUpdate (midStream 127 6 0xFFFFFFFF) :=
  ⟨⟨⟨rfl, rfl⟩, by decide⟩, ⟨⟨rfl, rfl⟩, by decide⟩, ⟨⟨rfl, rfl⟩, by decide⟩⟩
/-- Bits inside a byte, its first and its last but one, and bits that complete one. -/
theorem witness_CompletesByte :
    ¬ CompletesByte State.reset ∧ ¬ CompletesByte (midStream 127 6 0xFFFFFFFF) ∧
      CompletesByte (midStream 128 7 0) ∧ CompletesByte (midStream 255 7 0xFFFFFFFE) :=
  ⟨by unfold CompletesByte; decide, by unfold CompletesByte; decide, by unfold CompletesByte; decide,
    by unfold CompletesByte; decide⟩
theorem witness_UpdateCompletes : TakesUpdate (midStream 255 7 0xFFFFFFFE) := witness_TakesUpdate.2.1
theorem witness_PosOverflowWritesNothing :
    Running (midStream 255 7 0xFFFFFFFF) ∧ (midStream 255 7 0xFFFFFFFF).bpos = 7 ∧
    (midStream 255 7 0xFFFFFFFF).pos = 0xFFFFFFFF ∧ Running (midStream 127 6 0xFFFFFFFF) ∧
    ¬ ((midStream 127 6 0xFFFFFFFF).bpos = 7 ∧ (midStream 127 6 0xFFFFFFFF).pos = 0xFFFFFFFF) ∧
    Running (midStream 128 7 0xFFFFFFFE) ∧
    ¬ ((midStream 128 7 0xFFFFFFFE).bpos = 7 ∧ (midStream 128 7 0xFFFFFFFE).pos = 0xFFFFFFFF) :=
  ⟨⟨rfl, rfl⟩, rfl, rfl, ⟨rfl, rfl⟩, by decide, ⟨rfl, rfl⟩, by decide⟩
theorem witness_UpdateFoldsBitInsideByte :
    (TakesUpdate State.reset ∧ ¬ CompletesByte State.reset) ∧
      TakesUpdate (midStream 127 6 0xFFFFFFFF) ∧ ¬ CompletesByte (midStream 127 6 0xFFFFFFFF) :=
  ⟨⟨witness_TakesUpdate.1, witness_CompletesByte.1⟩, witness_TakesUpdate.2.2,
    witness_CompletesByte.2.1⟩
theorem witness_UpdateCommitsTheByte :
    (TakesUpdate (midStream 128 7 0) ∧ CompletesByte (midStream 128 7 0)) ∧
      TakesUpdate (midStream 255 7 0xFFFFFFFE) ∧ CompletesByte (midStream 255 7 0xFFFFFFFE) :=
  ⟨⟨⟨⟨rfl, rfl⟩, by decide⟩, witness_CompletesByte.2.2.1⟩, witness_TakesUpdate.2.1,
    witness_CompletesByte.2.2.2⟩
theorem witness_UpdateRebuildsTheContexts :
    TakesUpdate (midStream 255 7 0xFFFFFFFE) ∧ CompletesByte (midStream 255 7 0xFFFFFFFE) :=
  witness_UpdateCommitsTheByte.2
theorem witness_UpdateMovesThePointers : TakesUpdate State.reset := witness_TakesUpdate.1
theorem witness_UpdateAdvancesBitHistories : TakesUpdate State.reset := witness_TakesUpdate.1
/-- The two clauses about slot 7: without a match, and with one that the bit keeps. -/
theorem witness_UpdateFeedsTheSelectedRow :
    TakesUpdate State.reset ∧
    outcomeOf State.matchLen (exec (.update 0) State.reset) = some 0 ∧
    TakesUpdate (State.reset.withMatch 160 0) ∧
    outcomeOf State.matchLen (exec (.update 0) (State.reset.withMatch 160 0)) = some 160 :=
  ⟨witness_TakesUpdate.1, by decide, ⟨⟨rfl, rfl⟩, by decide⟩, by decide⟩
/-- The row trained is not the row selected after it, and other rows exist. -/
theorem witness_UpdateTrainsOnlyTheOldRow :
    TakesUpdate ((midStream 128 7 0).withCtxm 4095) ∧
    outcomeOf State.ctxm (exec (.update 1) ((midStream 128 7 0).withCtxm 4095)) = some 1 ∧
    (4095 : BitVec 12) ≠ 1 ∧ 7 < 8 := ⟨⟨⟨rfl, rfl⟩, by decide⟩, by decide, by decide, by decide⟩
theorem witness_UpdateMixesTheSelectedRow : TakesUpdate State.reset := witness_TakesUpdate.1
theorem witness_UpdateAdaptsTheQueriedCell :
    TakesUpdate State.reset ∧
      TakesUpdate (State.reset.withAidx ⟨65535 * 33 + 31, by decide⟩) :=
  ⟨witness_TakesUpdate.1, ⟨⟨rfl, rfl⟩, by decide⟩⟩
theorem witness_UpdatePredictsFromTheNewCell : TakesUpdate (midStream 255 7 0xFFFFFFFE) :=
  witness_TakesUpdate.2.1

theorem partialByteOk_first (s : State) (h0 : s.c0 = 1) (h1 : s.bpos = 0) : PartialByteOk s := by
  unfold PartialByteOk
  rw [h0, h1]
  decide
theorem partialByteOk_seventh (s : State) (h0 : s.c0 = 127) (h1 : s.bpos = 6) : PartialByteOk s := by
  unfold PartialByteOk
  rw [h0, h1]
  decide

/-- A match inside a byte that the next bit keeps, and one that it drops. -/
theorem witness_UpdateChecksTheMatchInsideByte :
    (TakesUpdate (State.reset.withMatch 160 0) ∧ PartialByteOk (State.reset.withMatch 160 0) ∧
      ¬ CompletesByte (State.reset.withMatch 160 0)) ∧
    TakesUpdate (midStream 127 6 0xFFFFFFFF) ∧ PartialByteOk (midStream 127 6 0xFFFFFFFF) ∧
      ¬ CompletesByte (midStream 127 6 0xFFFFFFFF) :=
  ⟨⟨⟨⟨rfl, rfl⟩, by decide⟩, partialByteOk_first _ rfl rfl, by unfold CompletesByte; decide⟩,
    witness_TakesUpdate.2.2, partialByteOk_seventh _ rfl rfl, witness_CompletesByte.2.1⟩
theorem witness_UpdateContinuesTheMatch :
    TakesUpdate ((midStream 128 7 9).withMatch 160 8) ∧
      CompletesByte ((midStream 128 7 9).withMatch 160 8) ∧
      ((midStream 128 7 9).withMatch 160 8).matchLen ≠ 0 :=
  ⟨⟨⟨rfl, rfl⟩, by decide⟩, by unfold CompletesByte; decide, by decide⟩

/-- A byte about to complete, with one position published at the hash it leads to. -/
def published (at_ pos : W32) : State := hashesWrite (midStream 128 7 pos) 0 at_

theorem published_taken {at_ pos : W32} (h : posOverflows (published at_ pos) = false) :
    TakesUpdate (published at_ pos) ∧ CompletesByte (published at_ pos) ∧
      (published at_ pos).matchLen = 0 :=
  ⟨⟨⟨rfl, rfl⟩, h⟩, by unfold CompletesByte; exact Nat.le_refl 128, rfl⟩

theorem published_searched {at_ pos : W32} (h : posOverflows (published at_ pos) = false) :
    ∃ t, exec (.update 0) (published at_ pos) = .next t ∧
      t.matchPos = (foldBit Config.params 0 (mixerUpdate 0 (published at_ pos))).matchPos ∧
      t.pos = (foldBit Config.params 0 (mixerUpdate 0 (published at_ pos))).pos := by
  obtain ⟨u, hu, d⟩ := updateSteps_spec Config.params 0 (published at_ pos)
  refine ⟨respondOk u, ?_, by rw [respondOk_matchPos, d.matchPos], by rw [respondOk_pos, d.pos]⟩
  rw [exec_update, updateCommand, unlessFaulted_ok rfl, ifInitialised_ok rfl, h,
    if_neg Bool.false_ne_true, hu]

/-- The three cases of a search: the sentinel, a position too old, and one that starts a match. -/
theorem witness_UpdateSearchesForAMatch :
    (∀ s ∈ [published 0 1, published 1 0xFFFFFFFE, published 1 1],
      TakesUpdate s ∧ CompletesByte s ∧ s.matchLen = 0) ∧
    (∃ t, exec (.update 0) (published 0 1) = .next t ∧ t.matchPos = 0) ∧
    (∃ t, exec (.update 0) (published 1 0xFFFFFFFE) = .next t ∧ t.matchPos ≠ 0 ∧
      (t.pos - t.matchPos).toNat > Config.params.ringSize - 1) ∧
    ∃ t, exec (.update 0) (published 1 1) = .next t ∧ t.matchPos ≠ 0 ∧
      (t.pos - t.matchPos).toNat ≤ Config.params.ringSize - 1 := by
  refine ⟨?_, ?_, ?_, ?_⟩
  · intro s hs
    simp only [List.mem_cons, List.not_mem_nil, or_false] at hs
    rcases hs with rfl | rfl | rfl <;> exact published_taken (by decide)
  · obtain ⟨t, h, h1, _⟩ := published_searched (at_ := 0) (pos := 1) (by decide)
    exact ⟨t, h, h1.trans (by decide)⟩
  · obtain ⟨t, h, h1, h2⟩ := published_searched (at_ := 1) (pos := 0xFFFFFFFE) (by decide)
    have e1 : t.matchPos = 1 := h1.trans (by decide)
    have e2 : t.pos = 0xFFFFFFFF := h2.trans (by decide)
    refine ⟨t, h, by rw [e1]; decide, ?_⟩
    rw [e1, e2]
    rcases ringSize_cases Config.params with h | h <;> rw [h] <;> decide
  · obtain ⟨t, h, h1, h2⟩ := published_searched (at_ := 1) (pos := 1) (by decide)
    have e1 : t.matchPos = 1 := h1.trans (by decide)
    have e2 : t.pos = 2 := h2.trans (by decide)
    refine ⟨t, h, by rw [e1]; decide, ?_⟩
    rw [e1, e2]
    rcases ringSize_cases Config.params with h | h <;> rw [h] <;> decide

/-- One bit into a byte after RESET, with a word waiting: a state in good order other than the reset
state. -/
def oneBitIn : State := (State.reset.withPartial 3 1).withCmds [0x1001]

theorem oneBitIn_predictorOk : PredictorOk Config.params oneBitIn := by
  intro _
  refine ⟨by unfold PartialByteOk; decide, by unfold PredictionOk; decide,
    by unfold MatchLenOk; decide, .inl rfl, ⟨by decide, fun h => absurd rfl h⟩, fun h => ?_,
    fun a _ => ?_⟩
  · exact Nat.zero_le _
  · have h := knotTemplate_bounds Config.params (a % Config.apmKnots)
    have e : apmRead Config.params oneBitIn a = knotTemplate Config.params (a % Config.apmKnots) := rfl
    rw [e]
    omega

theorem oneBitIn_unqueriedRowsOk : UnqueriedRowsOk Config.params oneBitIn := by
  intro _
  refine ⟨by decide, ⟨1, knotOf (stretch Config.params 2048), by decide, rfl⟩, fun r _ _ j hj => ?_⟩
  exact apmTemplate_row Config.params r hj

theorem oneBitIn_takesUpdate : TakesUpdate oneBitIn := ⟨⟨rfl, rfl⟩, by decide⟩

theorem oneBitIn_steps : ∃ t, step oneBitIn = .next t := by
  obtain ⟨t, h, _⟩ := updateSteps_spec Config.params 1 (oneBitIn.withCmds [])
  refine ⟨respondOk t, ?_⟩
  rcases updateCommand_cases Config.params 1 (oneBitIn.withCmds []) with
    ⟨h0, _⟩ | ⟨_, h0, _⟩ | ⟨_, _, h0, _⟩ | ⟨_, _, _, u, h0, _, h1⟩
  · exact absurd rfl h0
  · exact absurd h0 (by decide)
  · exact absurd h0 (by decide)
  · rw [h] at h0
    injection h0 with h0
    rw [h0]
    exact h1

theorem witness_PredictionIsNeverZero :
    PredictorOk Config.params oneBitIn ∧ TakesUpdate oneBitIn :=
  ⟨oneBitIn_predictorOk, oneBitIn_takesUpdate⟩
theorem witness_StepKeepsThePredictorInvariant :
    PredictorOk Config.params oneBitIn ∧ oneBitIn.status.init = true ∧ ∃ t, step oneBitIn = .next t :=
  ⟨oneBitIn_predictorOk, rfl, oneBitIn_steps⟩
theorem witness_StepKeepsUnqueriedRows :
    UnqueriedRowsOk Config.params oneBitIn ∧ oneBitIn.status.init = true ∧
      ∃ t, step oneBitIn = .next t :=
  ⟨oneBitIn_unqueriedRowsOk, rfl, oneBitIn_steps⟩

/-- A state with an entry in each byte array and in `hashes`, in canonical form. -/
def written : State :=
  hashesWrite (bufferWrite Config.params oneBitIn 5 0x41) 0x41 1

theorem written_wf : Memory.wf Config.params written = true := by
  have h : Memory.wf Config.params oneBitIn = true :=
    (wf_congr rfl rfl rfl rfl rfl).trans (wf_constructed Config.params)
  exact wf_hashesWrite (wf_bufferWrite h 5 0x41) 0x41 1

theorem witness_StepKeepsCanonicalArrays :
    Memory.wf Config.params written = true ∧
      ∃ t, step (written.withCmds [0x0000]) = .next t :=
  ⟨written_wf, _, rfl⟩
theorem witness_CanonicalArraysAreTheirContents :
    Memory.wf Config.params written = true ∧ Memory.wf Config.params (written.withPr 1) = true ∧
      ∀ a, readCell zeroCell written.buffer a = readCell zeroCell (written.withPr 1).buffer a :=
  ⟨written_wf, (wf_congr rfl rfl rfl rfl rfl).trans written_wf, fun _ => rfl⟩
theorem witness_UpdatesAreCounted :
    Instr.reset ∉ [Instr.get, .update 1, .squash 0, .stretch 0] ∧
      [Instr.get, .update 1, .squash 0, .stretch 0].countP isUpdate < 2 ^ 35 := by decide
theorem witness_PowerUpContentsNeverShow :
    State.reset.cmds = (State.reset.withPr 7).cmds ∧ State.reset.resp = (State.reset.withPr 7).resp ∧
      State.reset ≠ State.reset.withPr 7 :=
  ⟨rfl, rfl, fun h => absurd (congrArg State.pr h) (by decide)⟩

/-- `State.reset` with a stored input in a row that is not selected. -/
def otherRowFed : State := State.reset.withMixer (mixerWrite [] (inputIndex 4095 7) 5) 0

theorem witness_UnusedInputsNeverShow :
    SameButUnusedInputs (State.reset.withCmds [0x0000]) (otherRowFed.withCmds [0x0000]) ∧
      mixerInput otherRowFed 4095 7 ≠ mixerInput State.reset 4095 7 ∧
      ∃ t, step (State.reset.withCmds [0x0000]) = .next t := by
  refine ⟨⟨rfl, fun c k hk => ?_, fun k hk => ?_⟩, by decide, _, rfl⟩
  · have h : mixerRead otherRowFed.mixer (weightIndex c k) = mixerRead [] (weightIndex c k) := by
      show mixerRead (mixerWrite [] (inputIndex 4095 7) 5) (weightIndex c k) = _
      rw [mixerRead_mixerWrite, if_neg fun e => inputIndex_ne_weightIndex (by decide) hk e.symm]
    exact h.symm
  · have h : mixerRead otherRowFed.mixer (inputIndex 0 k) = mixerRead [] (inputIndex 0 k) := by
      show mixerRead (mixerWrite [] (inputIndex 4095 7) 5) (inputIndex 0 k) = _
      rw [mixerRead_mixerWrite,
        if_neg fun e => absurd ((inputIndex_inj hk (by decide)).mp e).1 (by decide)]
    exact h.symm

theorem witness_ClampAddsOneBelowHalf :
    (-2147483648 : Int) ≤ -2147481600 - 2048 ∧ (2147483647 : Int) ≤ 2147483647 ∧ (0 : Int) ≤ 4095 := by
  decide
theorem witness_MatchInputIsBounded :
    (1 ≤ (1 : BitVec 8).toNat ∧ (1 : BitVec 8).toNat < 32) ∧ (31 : BitVec 8).toNat < 32 ∧
      32 ≤ (32 : BitVec 8).toNat ∧ 32 ≤ (160 : BitVec 8).toNat ∧ (160 : BitVec 8).toNat ≤ 160 := by
  decide
theorem witness_BinShiftSeesTopBits :
    (∃ k < 4, 128 ≤ (0x80000000 : W32).toNat / 256 ^ k % 256) ∧
      ∀ k < 4, (0x7F7F7F7F : W32).toNat / 256 ^ k % 256 < 128 := by decide
theorem witness_HashingShiftsAreAsNamed :
    instanceZ.hashShr = .arithmetic ∧ { instanceZ with hashShr := .logical }.hashShr = .logical :=
  ⟨rfl, rfl⟩

/-- An instance whose tables hold zeros, and nothing else that R6 does not ask for. -/
def zeroInstance : ParamInstance where
  squashTable := List.replicate 4095 0
  stretchTable := List.replicate 4096 0
  stateTable := List.replicate 256 (0, 0)
  stateMap := List.replicate 8 (List.replicate 256 0)
  salts := [0, 0, 0, 0, 0]
  hashSalts := [0, 0, 0]
  roundtripTol := 0

theorem witness_PaddingRowsAreZero :
    253 ≤ (253 : Byte).toNat ∧ 253 ≤ (255 : Byte).toNat ∧
      ∃ r ∈ { zeroInstance with
        stateTable := List.replicate 255 (0, 0) ++ [(0, 1)] }.stateTable.drop 253, r ≠ (0, 0) :=
  ⟨by decide, by decide, (0, 1), by decide, by decide⟩
theorem witness_BadTablesAreRefused :
    (∃ v ∈ { zeroInstance with squashTable := [4096] }.squashTable, v < 0 ∨ 4095 < v) ∧
      (∃ v ∈ { zeroInstance with squashTable := [-1] }.squashTable, v < 0 ∨ 4095 < v) ∧
      (∃ v ∈ { zeroInstance with stretchTable := [2048] }.stretchTable, v < -2048 ∨ 2047 < v) ∧
      (∃ v ∈ { zeroInstance with stretchTable := [-2049] }.stretchTable, v < -2048 ∨ 2047 < v) := by
  decide
theorem witness_AcceptedInstanceIsReadAsWritten :
    loadParams zeroInstance = .ok (paramsOf zeroInstance) := by
  have h1 : tablesShaped zeroInstance = true := by
    simp [tablesShaped, zeroInstance, allWithin, -List.reduceReplicate]
  have h2 : allWithin 0 4095 zeroInstance.squashTable = true := by
    simp [zeroInstance, allWithin, -List.reduceReplicate]
  have h3 : allWithin (-2048) 2047 zeroInstance.stretchTable = true := by
    simp [zeroInstance, allWithin, -List.reduceReplicate]
  have h4 : paddingZero zeroInstance = true := by
    simp [zeroInstance, paddingZero, -List.reduceReplicate]
  simp [loadParams, h1, h2, h3, h4]
theorem witness_ReferenceStretchIsTheLeastInverse :
    4095 ≤ 4095 ∧ 0 ≤ 4094 ∧ 4094 ≤ 4094 ∧ (-2047 : Int) ≤ -2047 ∧ (-2047 : Int) < refStretch 4095 ∧
      (2047 : Int) ≤ 2047 := by decide +kernel

/-- Each clause of the count: RESET, an UPDATE that is taken inside a byte and at its end, and steps that
are none of these (no word, GET, an illegal word, an UPDATE before RESET). -/
theorem witness_StepCountsItsUpdates :
    PartialByteOk State.reset ∧
    (∀ l ∈ [[], [0x4000], [0x0000], [0x1002], [0x1000], [(0x1001 : Word)]],
      PartialByteOk (queued l) ∧ (outcomeOf id (step (queued l))).isSome) ∧
    TakesUpdate (queued [0x1001]) ∧ (queued [0x1001]).cmds.head? = some 0x1001 ∧
    PartialByteOk ((midStream 255 7 0xFFFFFFFE).withCmds [0x1000]) ∧
    TakesUpdate ((midStream 255 7 0xFFFFFFFE).withCmds [0x1000]) ∧
    ¬ TakesUpdate (queued [0x1000]).powerUp ∧ (queued [0x4000]).cmds.head? = some 0x4000 ∧
    (queued [0x1002]).cmds.head? ≠ some 0x4000 := by
  refine ⟨partialByteOk_first _ rfl rfl,
    fun l hl => ⟨partialByteOk_first _ rfl rfl, ?_⟩, ⟨⟨rfl, rfl⟩, by decide⟩, rfl, ?_,
    ⟨⟨rfl, rfl⟩, by decide⟩, fun h => absurd h.1.1 (by decide), rfl, by decide⟩
  · revert l
    decide
  · unfold PartialByteOk
    decide
/-- Two powered-up cores with different contents, and two equal ones once RESET. -/
theorem witness_StepKeepsWhatResetHides :
    SameOnceReset (queued [0x0000]).powerUp ((queued [0x0000]).withPr 7).powerUp ∧
    (queued [0x0000]).powerUp ≠ ((queued [0x0000]).withPr 7).powerUp ∧
    (∃ t, step (queued [0x0000]).powerUp = .next t) ∧
    SameOnceReset (queued [0x0000]) (queued [0x0000]) ∧ ∃ t, step (queued [0x0000]) = .next t :=
  ⟨⟨rfl, rfl, rfl, fun h => absurd h (by decide)⟩,
    fun h => absurd (congrArg State.pr h) (by decide), ⟨_, rfl⟩, ⟨rfl, rfl, rfl, fun _ => rfl⟩, _, rfl⟩

end Sys2Proof.Tests
end

/-! The lines BYTE and BYTES of the assembler (30_encoding.md R82, R83): the words of a BYTE by the bits
of its value, and a text as the BYTE lines of its characters. -/

namespace Sys2Proof.Proofs

open Sys2Proof Sys2Proof.Machine

/-! ## The words of a byte (R73, R82) -/

/-- The word of UPDATE by its bit, with no fields (R72, R73). -/
theorem encode_update_ofBool (b : Bool) :
    encode (.update (BitVec.ofBool b)) = if b then 0x1001 else 0x1000 := by
  cases b <;> rfl

theorem extractLsb'_one_eq_ofBool (v : Byte) (k : Nat) :
    v.extractLsb' k 1 = BitVec.ofBool (v.getLsbD k) := by
  ext i hi
  simp [show i = 0 by omega]

theorem byteUpdates_map_encode (v : Byte) :
    (byteUpdates v).map encode =
      [7, 6, 5, 4, 3, 2, 1, 0].map fun k => if v.getLsbD k then (0x1001 : Word) else 0x1000 := by
  simp only [byteUpdates, List.map_map]
  refine List.map_congr_left fun k _ => ?_
  rw [Function.comp_apply, extractLsb'_one_eq_ofBool, encode_update_ofBool]

/-! ## The lines -/

theorem assembleLine_byte {v : Nat} (hv : v ≤ 255) :
    assembleLine (.byte (v : Int)) = some (byteUpdates (BitVec.ofNat 8 v)) := by
  have hwf : (AsmLine.byte (v : Int)).wf = true := by
    simp only [AsmLine.wf, Bool.and_eq_true, decide_eq_true_eq]
    omega
  rw [assembleLine, if_pos hwf, BitVec.ofInt_natCast]

theorem assembleLine_bytes {text : List Char} (htext : ∀ c ∈ text, c.toNat < 128) :
    assembleLine (.bytes text) =
      some (text.flatMap fun c => byteUpdates (BitVec.ofNat 8 c.toNat)) := by
  have hwf : (AsmLine.bytes text).wf = true := by
    simpa only [AsmLine.wf, List.all_eq_true, decide_eq_true_eq] using htext
  rw [assembleLine, if_pos hwf]

/-! ## The programs -/

/-- A line that assembles puts its words before those of the rest. -/
theorem assembleProgram_cons {l : AsmLine} {is : List Instr} (h : assembleLine l = some is)
    (rest : List AsmLine) :
    assembleProgram (l :: rest) = (assembleProgram rest).map (is.map encode ++ ·) := by
  rw [assembleProgram, h, Option.bind_some]

theorem assembleProgram_singleton {l : AsmLine} {is : List Instr} (h : assembleLine l = some is) :
    assembleProgram [l] = some (is.map encode) := by
  rw [assembleProgram_cons h, assembleProgram, Option.map_some, List.append_nil]

theorem assembleProgram_map_byte (text : List Char) (htext : ∀ c ∈ text, c.toNat < 128) :
    assembleProgram (text.map fun c => .byte (c.toNat : Int)) =
      some ((text.flatMap fun c => byteUpdates (BitVec.ofNat 8 c.toNat)).map encode) := by
  induction text with
  | nil => rfl
  | cons c text ih =>
    obtain ⟨hc, hrest⟩ := List.forall_mem_cons.mp htext
    have hline := assembleLine_byte (v := c.toNat) (by omega)
    rw [List.map_cons, assembleProgram_cons hline, ih hrest, Option.map_some, List.flatMap_cons,
      List.map_append]

/-- R82 in full: the words of a BYTE in range, by the bits of its value. -/
theorem assembleProgram_byte {v : Nat} (hv : v ≤ 255) :
    assembleProgram [.byte (v : Int)] =
      some ([7, 6, 5, 4, 3, 2, 1, 0].map fun k =>
        if v.testBit k then (0x1001 : Word) else 0x1000) := by
  rw [assembleProgram_singleton (assembleLine_byte hv), byteUpdates_map_encode]
  refine congrArg some (List.map_congr_left fun k hk => ?_)
  have hk8 : k < 8 := by
    revert k
    decide
  have hbit : (BitVec.ofNat 8 v).getLsbD k = v.testBit k := by
    rw [BitVec.getLsbD_ofNat, decide_eq_true hk8, Bool.true_and]
  rw [hbit]

/-- R83 in full: a text of ASCII characters is the BYTE lines of its characters. -/
theorem assembleProgram_bytes {text : List Char} (htext : ∀ c ∈ text, c.toNat < 128) :
    assembleProgram [.bytes text] =
      assembleProgram (text.map fun c => .byte (c.toNat : Int)) := by
  rw [assembleProgram_singleton (assembleLine_bytes htext), assembleProgram_map_byte text htext]

/-- Settles O4: BYTE by the bits of its value, BYTES by induction on the text; the rules' two examples
follow from the two general laws. -/
theorem byteLinesExpandMsbFirst : Obligations.ByteLinesExpandMsbFirst :=
  ⟨fun _ hv => assembleProgram_byte hv,
    assembleProgram_byte (v := 0x41) (by decide),
    fun _ htext => assembleProgram_bytes htext,
    assembleProgram_bytes (text := ['A', 'B']) (by simp)⟩

end Sys2Proof.Proofs

/-! The two tables of the LUT (41_squash_stretch.md): Squash at every integer (R112), and the refusal of
an instance with an entry out of range (R114). -/

namespace Sys2Proof.Proofs

open Sys2Proof Sys2Proof.Machine Sys2Proof.Laws

/-! ## Squash -/

/-- Settles O17: R112's three ranges, each by its own equation of Squash. -/
theorem squashSaturates : Obligations.SquashSaturates :=
  fun _ _ => ⟨squash_of_lt, squash_of_gt, squash_of_index⟩

/-! ## The loading of an instance -/

theorem allWithin_eq_true_iff {lo hi : Int} {l : List Int} :
    allWithin lo hi l = true ↔ ∀ v ∈ l, lo ≤ v ∧ v ≤ hi := by
  simp only [allWithin, List.all_eq_true, Bool.and_eq_true, decide_eq_true_eq]

/-- An instance is refused, or it has passed every check and is read as written. -/
theorem loadParams_cases (q : ParamInstance) :
    (∃ e, loadParams q = .error e) ∨
      (tablesShaped q = true ∧ allWithin 0 4095 q.squashTable = true ∧
        allWithin (-2048) 2047 q.stretchTable = true ∧ paddingZero q = true ∧
        loadParams q = .ok (paramsOf q)) := by
  rw [loadParams]
  split_ifs with hshape hsquash hstretch hpad
  · exact .inl ⟨_, rfl⟩
  · exact .inl ⟨_, rfl⟩
  · exact .inl ⟨_, rfl⟩
  · exact .inl ⟨_, rfl⟩
  · rw [Bool.not_eq_false] at hshape hsquash hstretch hpad
    exact .inr ⟨hshape, hsquash, hstretch, hpad, rfl⟩

/-- R114 (a). -/
theorem loadParams_error_of_squash_entry {q : ParamInstance} {v : Int} (hmem : v ∈ q.squashTable)
    (hout : v < 0 ∨ 4095 < v) : ∃ e, loadParams q = .error e := by
  obtain herror | ⟨-, hsquash, -⟩ := loadParams_cases q
  · exact herror
  · have hin := allWithin_eq_true_iff.mp hsquash v hmem
    omega

/-- R114 (b). -/
theorem loadParams_error_of_stretch_entry {q : ParamInstance} {v : Int} (hmem : v ∈ q.stretchTable)
    (hout : v < -2048 ∨ 2047 < v) : ∃ e, loadParams q = .error e := by
  obtain herror | ⟨-, -, hstretch, -⟩ := loadParams_cases q
  · exact herror
  · have hin := allWithin_eq_true_iff.mp hstretch v hmem
    omega

/-- Settles O55: an accepted instance has passed both range checks, which the entry out of range fails. -/
theorem badTablesAreRefused : Obligations.BadTablesAreRefused :=
  fun _ => ⟨fun ⟨_, hmem, hout⟩ => loadParams_error_of_squash_entry hmem hout,
    fun ⟨_, hmem, hout⟩ => loadParams_error_of_stretch_entry hmem hout⟩

end Sys2Proof.Proofs

/-! The padding rows of the state table (42_bit_history.md R127): what Next reads there, and the refusal
of an instance that holds something else. -/

namespace Sys2Proof.Proofs

open Sys2Proof Sys2Proof.Machine Sys2Proof.Laws

theorem paddingZero_eq_true_iff {q : ParamInstance} :
    paddingZero q = true ↔ ∀ r ∈ q.stateTable.drop 253, r = (0, 0) := by
  simp only [paddingZero, List.all_eq_true, beq_iff_eq]

/-- R127, its second sentence. -/
theorem loadParams_error_of_padding_row {q : ParamInstance} {r : Nat × Nat}
    (hmem : r ∈ q.stateTable.drop 253) (hne : r ≠ (0, 0)) : ∃ e, loadParams q = .error e := by
  obtain herror | ⟨-, -, -, hpad, -⟩ := loadParams_cases q
  · exact herror
  · exact absurd (paddingZero_eq_true_iff.mp hpad r hmem) hne

/-- Settles O54: Next has no table entry to read from 253 on, and an accepted instance has passed the
check of its padding rows, which a nonzero row fails. -/
theorem paddingRowsAreZero : Obligations.PaddingRowsAreZero :=
  ⟨fun _ _ b hq => nextState_padding hq b,
    fun _ ⟨_, hmem, hne⟩ => loadParams_error_of_padding_row hmem hne⟩

end Sys2Proof.Proofs

/-! The size of the match input (44_match_finder.md §2, R159): the strength of a length up to 160 is at
most 64, so the product with 64 does not wrap in the 32-bit word. -/

namespace Sys2Proof.Proofs

open Sys2Proof Sys2Proof.Machine Sys2Proof.Laws

theorem matchStrength_of_lt {n : Nat} (h : n < 32) : matchStrength n = n := by
  rw [matchStrength_eq, if_pos h]

theorem matchStrength_of_le {n : Nat} (h : 32 ≤ n) : matchStrength n = 32 + (n - 32) / 4 := by
  rw [matchStrength_eq, if_neg (Nat.not_lt.mpr h)]

theorem matchStrength_pos {n : Nat} (h : 1 ≤ n) : 1 ≤ matchStrength n := by
  rw [matchStrength_eq]
  split_ifs <;> omega

theorem matchStrength_le {n : Nat} (h : n ≤ 160) : matchStrength n ≤ 64 := by
  rw [matchStrength_eq]
  split_ifs <;> omega

/-- The word of the match input holds its number unwrapped (R159). -/
theorem matchInput_toInt {len : BitVec 8} (h : len.toNat ≤ 160) (pb : Bool) :
    (matchInput len pb).toInt =
      64 * (if pb then (matchStrength len.toNat : Int) else -(matchStrength len.toNat : Int)) := by
  have hle := matchStrength_le h
  rw [matchInput_eq]
  exact toInt_ofInt32 (by split_ifs <;> omega) (by split_ifs <;> omega)

theorem matchInput_true_toInt {len : BitVec 8} (h : len.toNat ≤ 160) :
    (matchInput len true).toInt = 64 * (matchStrength len.toNat : Int) :=
  matchInput_toInt h true

theorem matchInput_false_toInt {len : BitVec 8} (h : len.toNat ≤ 160) :
    (matchInput len false).toInt = -(matchInput len true).toInt := by
  rw [matchInput_true_toInt h, ← mul_neg]
  exact matchInput_toInt h false

/-- Settles O48: the input is 64 times the strength, which is given on each side of 32 and lies in
[1, 64]. -/
theorem matchInputIsBounded : Obligations.MatchInputIsBounded := by
  intro len hpos hle
  have hlow := matchStrength_pos hpos
  have hhigh := matchStrength_le hle
  refine ⟨fun hlt => ?below, fun hge => ?above, matchInput_false_toInt hle, ?lower, ?upper⟩
  case below => rw [matchInput_true_toInt hle, matchStrength_of_lt hlt]
  case above => rw [matchInput_true_toInt hle, matchStrength_of_le hge, Nat.cast_add, Nat.cast_ofNat]
  case lower => rw [matchInput_true_toInt hle]; omega
  case upper => rw [matchInput_true_toInt hle]; omega

end Sys2Proof.Proofs

/-! The faults (60_exceptions.md): what a step answers when one of R90's checks fails, the order of the
checks (R205) and the commands that need a RESET (R202). -/

namespace Sys2Proof.Proofs

open Sys2Proof Sys2Proof.Machine Sys2Proof.Laws

/-! ## The step by what the decoder answers -/

theorem step_of_decode_ok {s : State} {w : Word} {rest : List Word} {i : Instr}
    (hcmds : s.cmds = w :: rest) (hw : decode w = .ok i) : step s = exec i (s.withCmds rest) := by
  simp only [step, takeCommand, hcmds, hw]

theorem step_of_decode_error {s : State} {w : Word} {rest : List Word} {e : IllegalWord}
    (hcmds : s.cmds = w :: rest) (hw : decode w = .error e) :
    step s = illegalCommand (s.withCmds rest) := by
  simp only [step, takeCommand, hcmds, hw]

/-- A word is legal or illegal (R79). -/
theorem exists_decode_error_of_forall_ne_ok {w : Word} (h : ∀ i, decode w ≠ .ok i) :
    ∃ e, decode w = .error e := by
  cases hw : decode w with
  | ok i => exact absurd hw (h i)
  | error e => exact ⟨e, rfl⟩

/-- RESET has one word (R72). -/
theorem decode_ne_reset {w : Word} (hw : w ≠ 0x4000) : decode w ≠ .ok .reset := by
  intro hreset
  have hnum : w.toNat ≠ 0x4000 := fun h => hw (BitVec.eq_of_toNat_eq h)
  obtain ⟨-, h⟩ | ⟨b, -, h⟩ | ⟨x, -, h⟩ | ⟨p, -, h⟩ | ⟨h, -⟩ | ⟨-, e, h⟩ := decode_cases w
  case inr.inr.inr.inr.inl => exact hnum h
  all_goals
    rw [h] at hreset
    cases hreset

/-! ## The first check: the recorded fault (R201) -/

theorem exec_of_faulted {i : Instr} {s : State} (hi : i ≠ .reset) (hf : s.status.fault ≠ .none) :
    exec i s = .next (respondFaulted s) := by
  cases i with
  | get => exact unlessFaulted_faulted hf _
  | update b => exact unlessFaulted_faulted hf _
  | squash x => exact unlessFaulted_faulted hf _
  | stretch p => exact unlessFaulted_faulted hf _
  | reset => exact absurd rfl hi

/-- A faulted core refuses every word but RESET's, a legal one and an illegal one alike. -/
theorem step_of_faulted {s : State} {w : Word} {rest : List Word} (hcmds : s.cmds = w :: rest)
    (hf : s.status.fault ≠ .none) (hw : w ≠ 0x4000) :
    step s = .next (respondFaulted (s.withCmds rest)) := by
  cases hd : decode w with
  | ok i =>
    rw [step_of_decode_ok hcmds hd]
    exact exec_of_faulted (fun hi => decode_ne_reset hw (hi ▸ hd)) hf
  | error e =>
    rw [step_of_decode_error hcmds hd]
    exact unlessFaulted_faulted (s := s.withCmds rest) hf _

/-! ## The later checks -/

/-- `raise Fault` field by field: STATUS.FAULT and the response, nothing else (R200, R207). -/
theorem raiseFault_eq (code : FaultCode) (s : State) :
    raiseFault code s = { s with
      status := { init := s.status.init, fault := code }
      resp := { rstat := 2, rdata := zext16 (FaultCode.code code) } } := rfl

theorem illegalCommand_of_unfaulted {s : State} (hf : s.status.fault = .none) :
    illegalCommand s = .next (raiseFault .illegalCommand s) :=
  unlessFaulted_ok hf _

theorem getCommand_of_not_init {s : State} (hf : s.status.fault = .none)
    (hinit : s.status.init = false) : getCommand s = .next (raiseFault .notInitialised s) := by
  rw [getCommand, unlessFaulted_ok hf, ifInitialised_not hinit]

theorem updateCommand_of_not_init {s : State} (P : Params) (b : Bit) (hf : s.status.fault = .none)
    (hinit : s.status.init = false) :
    updateCommand P b s = .next (raiseFault .notInitialised s) := by
  rw [updateCommand, unlessFaulted_ok hf, ifInitialised_not hinit]

theorem posOverflows_iff {s : State} :
    posOverflows s = true ↔ s.bpos = 7 ∧ s.pos = 0xFFFFFFFF := by
  rw [posOverflows, Bool.and_eq_true, beq_iff_eq, beq_iff_eq]

theorem updateCommand_of_posOverflows {s : State} (P : Params) (b : Bit)
    (hf : s.status.fault = .none) (hinit : s.status.init = true) (hpos : posOverflows s = true) :
    updateCommand P b s = .next (raiseFault .posOverflow s) := by
  rw [updateCommand, unlessFaulted_ok hf, ifInitialised_ok hinit, if_pos hpos]

/-- A step that raises a fault records its code and answers (2, code), the word being taken. -/
theorem step_raised {s : State} {rest : List Word} {code : FaultCode}
    (h : step s = .next (raiseFault code (s.withCmds rest))) :
    ∃ t, step s = .next t ∧ t.status.fault = code ∧ t.resp = ⟨2, zext16 (FaultCode.code code)⟩ :=
  ⟨_, h, congrArg Status.fault (raiseFault_status _ code), raiseFault_resp _ code⟩

/-! ## The statements -/

/-- Settles O9: each clause passes the checks above its own and fails that one. -/
theorem faultPriority : Obligations.FaultPriority := by
  intro s w rest hcmds
  refine ⟨?faulted, ?illegal, ?notInitialised, ?posOverflow⟩
  case faulted =>
    intro hf hw
    exact ⟨_, step_of_faulted hcmds hf hw, respondFaulted_status _, rfl⟩
  case illegal =>
    intro hf hillegal
    obtain ⟨e, he⟩ := exists_decode_error_of_forall_ne_ok hillegal
    exact step_raised ((step_of_decode_error hcmds he).trans (illegalCommand_of_unfaulted hf))
  case notInitialised =>
    rintro hf hinit (hget | ⟨b, hupdate⟩)
    · exact step_raised ((step_of_decode_ok hcmds hget).trans (getCommand_of_not_init hf hinit))
    · exact step_raised
        ((step_of_decode_ok hcmds hupdate).trans (updateCommand_of_not_init _ b hf hinit))
  case posOverflow =>
    rintro hf hinit ⟨b, hupdate⟩ hbpos hpos
    have hoverflow : posOverflows (s.withCmds rest) = true := posOverflows_iff.mpr ⟨hbpos, hpos⟩
    exact step_raised
      ((step_of_decode_ok hcmds hupdate).trans (updateCommand_of_posOverflows _ b hf hinit hoverflow))

/-- Settles O14: GET and UPDATE fail the check of INIT; the two LUT reads make no such check. -/
theorem getAndUpdateNeedReset : Obligations.GetAndUpdateNeedReset := by
  intro s b x hf hinit
  have hraise : raiseFault .notInitialised s = { s with
      status := { init := false, fault := .notInitialised }, resp := { rstat := 2, rdata := 2 } } := by
    rw [raiseFault_eq, hinit]
    rfl
  refine ⟨?get, ?update, ?squash, ?stretch⟩
  case get => rw [exec_get, getCommand_of_not_init hf hinit, hraise]
  case update => rw [exec_update, updateCommand_of_not_init _ b hf hinit, hraise]
  case squash => exact ⟨_, unlessFaulted_ok hf _, respondData_status .., rfl⟩
  case stretch => exact ⟨_, unlessFaulted_ok hf _, respondData_status .., rfl⟩

end Sys2Proof.Proofs

/-! The command words (30_encoding.md): decode and encode are inverse on the legal words (R72),
every other word is illegal (R79), and the assembler's lines with one operand (R81). -/

namespace Sys2Proof.Proofs

open Sys2Proof Sys2Proof.Machine Sys2Proof.Laws

/-! ## The fields of an encoded command -/

theorem opField_append (op : BitVec 4) (x : BitVec 12) : opField (op ++ x) = op := by
  obtain ⟨-, hnum, -⟩ := appended_operand op x
  apply BitVec.eq_of_toNat_eq
  rw [opField_toNat, hnum]
  omega

theorem argField_append (op : BitVec 4) (x : BitVec 12) : argField (op ++ x) = x := by
  obtain ⟨-, -, hlow⟩ := appended_operand op x
  apply BitVec.eq_of_toNat_eq
  rw [argField_toNat]
  exact hlow

/-- The number of a command's word: its row's pattern plus its operand (R72). -/
theorem encode_toNat (i : Instr) :
    (encode i).toNat = (tableRow i).2.1 + (tableRow i).2.2.1 := by
  cases i with
  | get => exact EncodingMatchesTable.get.2.1
  | update b => exact (EncodingMatchesTable.update b).2.1
  | squash x => exact (EncodingMatchesTable.squash x).2.1
  | stretch p => exact (EncodingMatchesTable.stretch p).2.1
  | reset => exact EncodingMatchesTable.reset.2.1

/-! ## Decode and encode -/

theorem decode_encode (i : Instr) : decode (encode i) = .ok i := by
  cases i with
  | get => decide
  | update b => revert b; decide
  | squash x => simp [decode, encode, opField_append, argField_append]
  | stretch p => simp [decode, encode, opField_append, argField_append]
  | reset => decide

/-- A word is a command's, or it is outside the five patterns and the decoder names why (R79). -/
theorem exists_encode_or_illegal (w : Word) :
    (∃ i, w = encode i) ∨
      ((w.toNat ≠ 0 ∧ w.toNat ≠ 0x4000 ∧ ¬ (0x1000 ≤ w.toNat ∧ w.toNat ≤ 0x1001) ∧
        ¬ (0x2000 ≤ w.toNat ∧ w.toNat ≤ 0x3FFF)) ∧ ∃ e, decode w = .error e) := by
  have hword : ∀ i : Instr, w.toNat = (tableRow i).2.1 + (tableRow i).2.2.1 → ∃ i, w = encode i :=
    fun i h => ⟨i, BitVec.eq_of_toNat_eq (h.trans (encode_toNat i).symm)⟩
  obtain ⟨h, -⟩ | ⟨b, h, -⟩ | ⟨x, h, -⟩ | ⟨p, h, -⟩ | ⟨h, -⟩ | h := decode_cases w
  · exact .inl (hword .get h)
  · exact .inl (hword (.update b) h)
  · exact .inl (hword (.squash x) h)
  · exact .inl (hword (.stretch p) h)
  · exact .inl (hword .reset h)
  · exact .inr h

theorem encode_of_decode {w : Word} {i : Instr} (h : decode w = .ok i) : encode i = w := by
  obtain ⟨j, rfl⟩ | ⟨-, e, he⟩ := exists_encode_or_illegal w
  · rw [decode_encode] at h
    cases h
    rfl
  · rw [he] at h
    cases h

theorem decode_eq_ok_iff {w : Word} {i : Instr} :
    decode w = .ok i ↔ w.toNat = (tableRow i).2.1 + (tableRow i).2.2.1 := by
  rw [← encode_toNat, BitVec.toNat_inj]
  exact ⟨fun h => (encode_of_decode h).symm, fun h => h ▸ decode_encode i⟩

/-- Settles O1: each command's fields are read back from its word, and every word that decodes is
some command's. -/
theorem decodeEncodeAgree : Obligations.DecodeEncodeAgree :=
  ⟨fun i _ => decode_encode i, fun _ _ => encode_of_decode⟩

/-- Settles O3: each legal word has the number of its command's encoding; the last four have a
reserved operation or a must-be-zero bit. -/
theorem specWordsDecode : Obligations.SpecWordsDecode :=
  ⟨decode_eq_ok_iff.mpr rfl, decode_eq_ok_iff.mpr rfl, decode_eq_ok_iff.mpr rfl,
    decode_eq_ok_iff.mpr rfl, decode_eq_ok_iff.mpr rfl, decode_eq_ok_iff.mpr rfl,
    decode_eq_ok_iff.mpr rfl, decode_eq_ok_iff.mpr rfl,
    by decide, by decide, by decide, by decide⟩

/-! ## The illegal words -/

theorem forall_decode_ne_ok_iff (w : Word) :
    (∀ i, decode w ≠ .ok i) ↔
      w.toNat ≠ 0x0000 ∧ w.toNat ≠ 0x4000 ∧ ¬ (0x1000 ≤ w.toNat ∧ w.toNat ≤ 0x1001) ∧
        ¬ (0x2000 ≤ w.toNat ∧ w.toNat ≤ 0x3FFF) := by
  obtain ⟨i, rfl⟩ | ⟨hout, e, he⟩ := exists_encode_or_illegal w
  · refine iff_of_false (fun h => h i (decode_encode i)) fun hout => ?_
    rw [encode_toNat] at hout
    cases i with
    | get => exact hout.1 rfl
    | update b => have := b.isLt; simp [tableRow] at hout; omega
    | squash x => have := x.isLt; simp [tableRow] at hout; omega
    | stretch p => have := p.isLt; simp [tableRow] at hout; omega
    | reset => exact hout.2.1 rfl
  · exact iff_of_true (fun i hi => by rw [he] at hi; cases hi) hout

theorem step_of_illegal {s : State} {w : Word} {rest : List Word} (hw : ∀ i, decode w ≠ .ok i)
    (hf : s.status.fault = .none) (hcmds : s.cmds = w :: rest) :
    step s = .next (raiseFault .illegalCommand (s.withCmds rest)) := by
  obtain ⟨e, he⟩ := exists_decode_error_of_forall_ne_ok hw
  rw [step_of_decode_error hcmds he]
  exact illegalCommand_of_unfaulted (s := s.withCmds rest) hf

/-- Settles O2: the five patterns are the numbers of the encodings, and a word outside them raises
ILLEGAL_COMMAND. -/
theorem decodingIsTotal : Obligations.DecodingIsTotal := by
  intro w
  refine ⟨decode_eq_ok_iff, fun _ => decode_eq_ok_iff, fun _ => decode_eq_ok_iff,
    fun _ => decode_eq_ok_iff, decode_eq_ok_iff, forall_decode_ne_ok_iff w, ?illegal⟩
  case illegal =>
    intro s rest hw hf hcmds
    rw [step_of_illegal hw hf hcmds, raiseFault_eq]
    rfl

/-! ## One step of a waiting word -/

theorem instr_wf (i : Instr) : i.wf = true := by
  cases i with
  | get => rfl
  | update b => have := b.isLt; simp only [Instr.wf, decide_eq_true_eq]; omega
  | squash x =>
    have hlo := BitVec.le_toInt x
    have hhi := BitVec.toInt_lt (x := x)
    simp only [Instr.wf, Bool.and_eq_true, decide_eq_true_eq]
    omega
  | stretch p => have := p.isLt; simp only [Instr.wf, decide_eq_true_eq]; omega
  | reset => rfl

/-- Settles O6: every command is well formed, and the step is its meaning on the state that has
taken the word. -/
theorem stepRunsDecodedCommand : Obligations.StepRunsDecodedCommand :=
  fun _ _ _ i hcmds hw => ⟨instr_wf i, step_of_decode_ok hcmds hw⟩

theorem step_of_idle {s : State} (h : s.cmds = []) : step s = .next s := by
  simp only [step, takeCommand, h]

/-- Settles O7. -/
theorem idleCoreHoldsItsState : Obligations.IdleCoreHoldsItsState :=
  fun _ => step_of_idle

/-! ## The assembler's ranges (R81, R82) -/

theorem assembleProgram_of_not_wf {l : AsmLine} (h : l.wf = false) :
    assembleProgram [l] = none := by
  simp [assembleProgram, assembleLine, h]

/-- A line of one command is that command's word. -/
theorem assembleProgram_of_word {l : AsmLine} {i : Instr} {w : Word}
    (hl : assembleLine l = some [i]) (hw : (encode i).toNat = w.toNat) :
    assembleProgram [l] = some [w] := by
  rw [assembleProgram_singleton hl, ← BitVec.eq_of_toNat_eq hw]
  rfl

theorem assembleProgram_update (b : Int) :
    assembleProgram [.update b] =
      if b = 0 then some [0x1000] else if b = 1 then some [0x1001] else none := by
  split_ifs with h0 h1
  · subst h0; decide
  · subst h1; decide
  · exact assembleProgram_of_not_wf (by simp [AsmLine.wf, h0, h1])

theorem ofInt12_toNat (x : Int) : (BitVec.ofInt 12 x).toNat = (x % 4096).toNat :=
  BitVec.toNat_ofInt x

theorem assembleProgram_squash (x : Int) :
    assembleProgram [.squash x] =
      if -2048 ≤ x ∧ x ≤ 2047 then some [BitVec.ofNat 16 (0x2000 + (x % 4096).toNat)]
      else none := by
  have hwf : (AsmLine.squash x).wf = decide (-2048 ≤ x ∧ x ≤ 2047) := (Bool.decide_and _ _).symm
  split_ifs with h
  · refine assembleProgram_of_word (if_pos (hwf.trans (decide_eq_true h))) ?_
    rw [encode_toNat, BitVec.toNat_ofNat]
    simp only [tableRow, ofInt12_toNat]
    omega
  · exact assembleProgram_of_not_wf (hwf.trans (decide_eq_false h))

theorem assembleProgram_stretch (p : Int) :
    assembleProgram [.stretch p] =
      if 0 ≤ p ∧ p ≤ 4095 then some [BitVec.ofNat 16 (0x3000 + p.toNat)] else none := by
  have hwf : (AsmLine.stretch p).wf = decide (0 ≤ p ∧ p ≤ 4095) := (Bool.decide_and _ _).symm
  split_ifs with h
  · refine assembleProgram_of_word (if_pos (hwf.trans (decide_eq_true h))) ?_
    rw [encode_toNat, BitVec.toNat_ofNat]
    simp only [tableRow, ofInt12_toNat]
    omega
  · exact assembleProgram_of_not_wf (hwf.trans (decide_eq_false h))

theorem assembleProgram_byte_out {v : Int} (h : ¬ (0 ≤ v ∧ v ≤ 255)) :
    assembleProgram [.byte v] = none :=
  assembleProgram_of_not_wf ((Bool.decide_and _ _).symm.trans (decide_eq_false h))

/-- Settles O5: the range check of each line decides between its word and no program. -/
theorem assemblerChecksRanges : Obligations.AssemblerChecksRanges :=
  ⟨assembleProgram_update, assembleProgram_squash, assembleProgram_stretch,
    fun _ => assembleProgram_byte_out, by decide, by decide⟩

end Sys2Proof.Proofs

/-! What one step leaves, said once with its cases (40_commands.md R90), and the statements about
faults that follow from it (60_exceptions.md). A property of the predictor is then kept by every
step when UPDATE keeps it. -/

namespace Sys2Proof.Proofs

open Sys2Proof Sys2Proof.Machine Sys2Proof.Safety Sys2Proof.Laws

/-! ## What a step leaves -/

/-- The word is an UPDATE's and the core takes it. -/
def TakesWordAsUpdate (s : State) (w : Word) : Prop := (w = 0x1000 ∨ w = 0x1001) ∧ TakesUpdate s

/-- Everything a step can leave. -/
inductive StepDone (s : State) : State → Prop
  /-- No word waits. -/
  | idle (hcmds : s.cmds = []) : StepDone s s
  /-- RESET constructs the core anew. -/
  | reset {rest : List Word} (hcmds : s.cmds = 0x4000 :: rest) :
      StepDone s (resetCore Config.params (s.withCmds rest))
  /-- UPDATE's eight steps have run. -/
  | updated {w : Word} {rest : List Word} {b : Bit} {u : State} (hcmds : s.cmds = w :: rest)
      (hw : w = encode (.update b)) (htake : TakesUpdate s)
      (hdone : UpdateDone Config.params b (s.withCmds rest)
        (foldBit Config.params b (mixerUpdate b (s.withCmds rest))) u) :
      StepDone s (respondOk u)
  /-- A read, or the refusal of a faulted core: only the response is given. -/
  | answered {w : Word} {rest : List Word} (r : Response) (hcmds : s.cmds = w :: rest)
      (hreset : w ≠ 0x4000) (hupdate : ¬ TakesWordAsUpdate s w) :
      StepDone s ((s.withCmds rest).withResp r)
  /-- A fault is taken. -/
  | raised {w : Word} {rest : List Word} {code : FaultCode} (hcmds : s.cmds = w :: rest)
      (hreset : w ≠ 0x4000) (hupdate : ¬ TakesWordAsUpdate s w) (hf : s.status.fault = .none)
      (hcode : code ≠ .none) :
      StepDone s (raiseFault code (s.withCmds rest))

theorem encode_update_cases (b : Bit) :
    encode (.update b) = 0x1000 ∨ encode (.update b) = 0x1001 := by
  obtain rfl | rfl := bit_cases b
  · exact .inl rfl
  · exact .inr rfl

theorem encode_injective : Function.Injective encode := by
  intro i j h
  have hi := decode_encode i
  rw [h, decode_encode] at hi
  exact (Except.ok.inj hi).symm

theorem encode_ne_reset {i : Instr} (hi : i ≠ .reset) : encode i ≠ 0x4000 :=
  fun h => hi (encode_injective (h : encode i = encode .reset))

theorem encode_ne_update {i : Instr} (hi : isUpdate i = false) :
    ¬ (encode i = 0x1000 ∨ encode i = 0x1001) := by
  rintro (h | h)
  · obtain rfl : i = .update 0 := encode_injective h
    cases hi
  · obtain rfl : i = .update 1 := encode_injective h
    cases hi

theorem decode_reset : decode 0x4000 = .ok .reset := decode_encode .reset

/-- UPDATE in a core that passes the checks: the eight steps run (R90, R93). -/
theorem exec_update_of_takes (b : Bit) {s : State} (h : TakesUpdate s) :
    ∃ u, exec (.update b) s = .next (respondOk u) ∧
      UpdateDone Config.params b s (foldBit Config.params b (mixerUpdate b s)) u := by
  obtain ⟨⟨hinit, hf⟩, hpos⟩ := h
  obtain ⟨u, hu, hdone⟩ := updateSteps_spec Config.params b s
  refine ⟨u, ?_, hdone⟩
  rw [exec_update, updateCommand, unlessFaulted_ok hf, ifInitialised_ok hinit, hpos,
    if_neg Bool.false_ne_true, hu]

theorem getCommand_of_running {s : State} (h : Running s) :
    getCommand s = .next (respondData s (zext16 s.pr)) := by
  rw [getCommand, unlessFaulted_ok h.2, ifInitialised_ok h.1]

/-- The step of an unfaulted core that takes a command's word. -/
theorem exists_stepDone_of_unfaulted {s : State} {rest : List Word} (i : Instr)
    (hcmds : s.cmds = encode i :: rest) (hf : s.status.fault = .none) :
    ∃ t, step s = .next t ∧ StepDone s t := by
  have hstep := step_of_decode_ok hcmds (decode_encode i)
  cases i with
  | get =>
    have hno : ¬ TakesWordAsUpdate s (encode .get) := fun h => encode_ne_update rfl h.1
    have hne := encode_ne_reset (i := .get) (by decide)
    cases hinit : s.status.init with
    | false =>
      exact ⟨_, hstep.trans (getCommand_of_not_init hf hinit),
        .raised hcmds hne hno hf (by decide)⟩
    | true => exact ⟨_, hstep.trans (getCommand_of_running ⟨hinit, hf⟩), .answered _ hcmds hne hno⟩
  | update b =>
    have hne := encode_ne_reset (i := .update b) (by simp)
    cases hinit : s.status.init with
    | false =>
      exact ⟨_, hstep.trans (updateCommand_of_not_init _ b hf hinit),
        .raised hcmds hne (fun h => by simp [h.2.1.1] at hinit) hf (by decide)⟩
    | true =>
      cases hpos : posOverflows s with
      | true =>
        exact ⟨_, hstep.trans (updateCommand_of_posOverflows _ b hf hinit hpos),
          .raised hcmds hne (fun h => by simp [h.2.2] at hpos) hf (by decide)⟩
      | false =>
        obtain ⟨u, hexec, hdone⟩ :=
          exec_update_of_takes b (s := s.withCmds rest) ⟨⟨hinit, hf⟩, hpos⟩
        exact ⟨_, hstep.trans hexec, .updated hcmds rfl ⟨⟨hinit, hf⟩, hpos⟩ hdone⟩
  | squash x =>
    exact ⟨_, hstep.trans (unlessFaulted_ok (s := s.withCmds rest) hf _),
      .answered _ hcmds (encode_ne_reset (by simp)) fun h => encode_ne_update rfl h.1⟩
  | stretch p =>
    exact ⟨_, hstep.trans (unlessFaulted_ok (s := s.withCmds rest) hf _),
      .answered _ hcmds (encode_ne_reset (by simp)) fun h => encode_ne_update rfl h.1⟩
  | reset => exact ⟨_, hstep, .reset hcmds⟩

/-- Every step answers a next state, with one of the cases. -/
theorem exists_stepDone (s : State) : ∃ t, step s = .next t ∧ StepDone s t := by
  cases hcmds : s.cmds with
  | nil => exact ⟨s, step_of_idle hcmds, .idle hcmds⟩
  | cons w rest =>
    by_cases hreset : w = 0x4000
    · exact ⟨_, (step_of_decode_ok hcmds (hreset ▸ decode_reset)).trans (exec_reset _),
        .reset (hreset ▸ hcmds)⟩
    by_cases hf : s.status.fault = .none
    · obtain ⟨i, rfl⟩ | ⟨hout, e, he⟩ := exists_encode_or_illegal w
      · exact exists_stepDone_of_unfaulted i hcmds hf
      · refine ⟨_, (step_of_decode_error hcmds he).trans (illegalCommand_of_unfaulted hf),
          .raised hcmds hreset ?_ hf (by decide)⟩
        rintro ⟨rfl | rfl, -⟩ <;> exact hout.2.2.1 (by decide)
    · exact ⟨_, step_of_faulted hcmds hf hreset,
        .answered _ hcmds hreset fun h => hf h.2.1.2⟩

theorem stepDone_of_step {s t : State} (h : step s = .next t) : StepDone s t := by
  obtain ⟨u, hu, hdone⟩ := exists_stepDone s
  rw [h] at hu
  cases hu
  exact hdone

/-- A property that does not see the command port or FAULT, holds after RESET and is kept by UPDATE
is kept by every step. -/
theorem step_keeps {Inv : State → Prop}
    (hport : ∀ (s : State) (l : List Word) (st : Status) (r : Response),
      st.init = s.status.init → Inv s → Inv (((s.withCmds l).withStatus st).withResp r))
    (hreset : Inv State.reset)
    (hupdate : ∀ (b : Bit) (s u : State), TakesUpdate s →
      UpdateDone Config.params b s (foldBit Config.params b (mixerUpdate b s)) u → Inv s → Inv u)
    {s t : State} (hs : Inv s) (h : step s = .next t) : Inv t := by
  cases stepDone_of_step h with
  | idle hcmds => exact hs
  | @reset rest hcmds => exact hport State.reset rest State.reset.status ⟨0, 0⟩ rfl hreset
  | @updated w rest b u hcmds hw htake hdone =>
    have hu := hupdate b (s.withCmds rest) u htake hdone
      (hport s rest s.status s.resp rfl hs)
    exact hport u u.cmds u.status ⟨0, 0⟩ rfl hu
  | @answered w rest r hcmds hne hno => exact hport s rest s.status r rfl hs
  | @raised w rest code hcmds hne hno hf hcode =>
    exact hport s rest (s.status.withFault code) ⟨2, zext16 (FaultCode.code code)⟩ rfl hs

/-! ## The statements about steps and faults -/

/-- Settles O12. -/
theorem everyStepAnswersNext : Obligations.EveryStepAnswersNext := by
  intro s
  obtain ⟨t, h, -⟩ := exists_stepDone s
  exact ⟨t, h⟩

/-- Settles O8: RESET's word constructs the core, every other is refused with the recorded code. -/
theorem faultedCoreRefusesAllButReset : Obligations.FaultedCoreRefusesAllButReset := by
  intro s w rest hf hcmds
  refine ⟨fun hw => ?refused, fun hw => ?reset⟩
  case refused =>
    rw [step_of_faulted hcmds hf hw, respondFaulted, withCmds_status]
    cases s.status.fault <;> rfl
  case reset =>
    rw [step_of_decode_ok hcmds (hw ▸ decode_reset)]
    rfl

/-- Settles O10: of the cases of a step only a raised fault leaves one recorded. -/
theorem faultsArePrecise : Obligations.FaultsArePrecise := by
  intro s t hf hstep ht
  cases stepDone_of_step hstep with
  | idle hcmds => exact absurd hf ht
  | reset hcmds => exact absurd rfl ht
  | updated hcmds hw htake hdone =>
    exact absurd ((congrArg Status.fault hdone.status).trans hf) ht
  | answered r hcmds hreset hupdate => exact absurd hf ht
  | raised hcmds hreset hupdate _ hcode =>
    rw [hcmds]
    rfl

/-- Settles O11: a step that is no RESET keeps STATUS or records a fault where there was none. -/
theorem onlyResetSetsInitOrClearsFault : Obligations.OnlyResetSetsInitOrClearsFault := by
  intro s t hstep hhead
  cases stepDone_of_step hstep with
  | idle hcmds => exact ⟨rfl, fun _ => rfl⟩
  | reset hcmds => exact absurd (by rw [hcmds]; rfl) hhead
  | updated hcmds hw htake hdone =>
    exact ⟨congrArg Status.init hdone.status, fun _ => congrArg Status.fault hdone.status⟩
  | answered r hcmds hreset hupdate => exact ⟨rfl, fun _ => rfl⟩
  | raised hcmds hreset hupdate hf hcode => exact ⟨rfl, fun h => absurd hf h⟩

end Sys2Proof.Proofs

/-! What UPDATE does to each register and array (40_commands.md R93), read off the one lemma about
its eight steps: first the fold of the bit and the byte commit, then the sub-blocks in the order of
the steps. -/

namespace Sys2Proof.Proofs

open Sys2Proof Sys2Proof.Machine Sys2Proof.Safety Sys2Proof.Laws

/-! ## The answer of UPDATE -/

section
variable (P : Params) (s : State)
@[simp] theorem bufferRead_respondOk (v : W32) :
    bufferRead P (respondOk s) v = bufferRead P s v := rfl
@[simp] theorem apmRead_respondOk (a : Nat) : apmRead P (respondOk s) a = apmRead P s a := rfl
@[simp] theorem mixerWeight_respondOk (c : BitVec 12) (k : Nat) :
    mixerWeight (respondOk s) c k = mixerWeight s c k := rfl
end

theorem bufferRead_congr {P : Params} {s t : State} (h : s.buffer = t.buffer) (v : W32) :
    bufferRead P s v = bufferRead P t v := by rw [bufferRead, h, bufferRead]

theorem hashesRead_congr {s t : State} (h : s.hashes = t.hashes) (g : BitVec 23) :
    hashesRead s g = hashesRead t g := by rw [hashesRead, h, hashesRead]

/-- What UPDATE leaves, for a property of its answer. -/
theorem exec_update_answers {s : State} (b : Bit) (h : TakesUpdate s) {Q : State → Prop}
    (hQ : ∀ u, UpdateDone Config.params b s (foldBit Config.params b (mixerUpdate b s)) u →
      Q (respondOk u)) : ∃ t, exec (.update b) s = .next t ∧ Q t := by
  obtain ⟨u, hexec, hdone⟩ := exec_update_of_takes b h
  exact ⟨_, hexec, hQ u hdone⟩

/-- Settles O20. -/
theorem updateCompletes : Obligations.UpdateCompletes :=
  fun _ b h => exec_update_answers b h fun _ d =>
    ⟨respondOk_resp _, d.status, d.cmds, congrArg Fin.val d.mcur⟩

/-- Settles O21: the overflow fails the last check, which every other running core passes. -/
theorem posOverflowWritesNothing : Obligations.PosOverflowWritesNothing := by
  intro s b hrun
  refine ⟨fun hbpos hpos => ?overflow, fun hno => ?completes⟩
  case overflow =>
    have hover : posOverflows s = true := posOverflows_iff.mpr ⟨hbpos, hpos⟩
    rw [exec_update, updateCommand_of_posOverflows _ b hrun.2 hrun.1 hover, raiseFault_eq]
    rfl
  case completes =>
    have hpos : posOverflows s = false :=
      Bool.eq_false_iff.mpr fun h => hno (posOverflows_iff.mp h)
    exact exec_update_answers b ⟨hrun, hpos⟩ fun u d =>
      (congrArg Status.fault d.status).trans hrun.2

/-! ## The fold -/

section
variable {P : Params} {b : Bit} {s : State}

theorem foldedByte_mixerUpdate : foldedByte b (mixerUpdate b s) = foldedByte b s := by
  simp [foldedByte]

/-- Inside a byte, steps 1 to 3. -/
theorem fold_inside (h : ¬ CompletesByte s) :
    foldBit P b (mixerUpdate b s) =
      (mixerUpdate b s).withPartial ((foldedByte b s).setWidth 8) (s.bpos + 1) := by
  rw [foldBit_inside P b (by simpa [CompletesByte] using h), foldedByte_mixerUpdate,
    mixerUpdate_bpos]

/-- At the end of a byte, steps 1 to 3. -/
theorem fold_completes (h : CompletesByte s) :
    foldBit P b (mixerUpdate b s) =
      byteCommit P ((foldedByte b s).setWidth 8) (mixerUpdate b s) := by
  rw [foldBit_completes P b (by simpa [CompletesByte] using h), foldedByte_mixerUpdate]

theorem partialByte_toNat (h : ¬ CompletesByte s) :
    ((foldedByte b s).setWidth 8).toNat = 2 * s.c0.toNat + b.toNat := by
  have hb := b.isLt
  unfold CompletesByte at h
  rw [BitVec.toNat_setWidth, foldedByte_toNat]
  omega

theorem committedByte_eq :
    (foldedByte b s).setWidth 8 = BitVec.ofNat 8 (2 * s.c0.toNat + b.toNat) := by
  apply BitVec.eq_of_toNat_eq
  rw [BitVec.toNat_setWidth, foldedByte_toNat, BitVec.toNat_ofNat]

end

/-- Settles O22. -/
theorem updateFoldsBitInsideByte : Obligations.UpdateFoldsBitInsideByte := by
  intro s b htake hin
  refine exec_update_answers b htake fun u d => ?_
  rw [fold_inside hin] at d
  refine ⟨?c0, ?rest⟩
  case c0 => rw [respondOk_c0, d.c0, withPartial_c0, partialByte_toNat hin]
  case rest =>
    simp [d.bpos, d.pos, d.c4, d.hash, d.ctx, d.ctxm, d.matchPos, d.buffer, d.hashes]

/-! ## The byte commit (R135, R136, R170) -/

theorem shiftedIn_toNat (c4 : W32) (byte : Byte) :
    (c4 <<< 8 ||| byte.setWidth 32).toNat = (c4.toNat * 256 + byte.toNat) % 2 ^ 32 := by
  have hbyte := byte.isLt
  have hhigh : c4.toNat <<< 8 % 2 ^ 32 = 2 ^ 8 * (c4.toNat % 2 ^ 24) := by
    rw [Nat.shiftLeft_eq]
    omega
  rw [BitVec.toNat_or, BitVec.toNat_shiftLeft, BitVec.toNat_setWidth,
    Nat.mod_eq_of_lt (by omega : byte.toNat < 2 ^ 32), hhigh, ← Nat.two_pow_add_eq_or_of_lt hbyte]
  omega

theorem rollHash_toNat (h : BitVec 23) (c4 : W32) :
    (rollHash h c4).toNat = (h.toNat * 43707 * 16 + c4.toNat) % 2 ^ 23 := by
  have hh := h.isLt
  simp only [rollHash, BitVec.toNat_setWidth, BitVec.toNat_add, BitVec.toNat_shiftLeft,
    BitVec.toNat_mul, Config.hashShl, Nat.shiftLeft_eq, show Config.hashMul.toNat = 43707 from rfl]
  omega

theorem selectedRow_toNat (c : W32) :
    ((c &&& BitVec.ofNat 32 (Config.mixerRows - 1)).setWidth 12).toNat = c.toNat % 4096 := by
  have h : c.toNat &&& (2 ^ 12 - 1) = c.toNat % 2 ^ 12 := Nat.and_two_pow_sub_one_eq_mod _ _
  rw [BitVec.toNat_setWidth, BitVec.toNat_and,
    show (BitVec.ofNat 32 (Config.mixerRows - 1)).toNat = 2 ^ 12 - 1 from rfl, h]
  omega

/-- A commit publishes the new position at the new hash and nowhere else. -/
theorem hashesRead_of_completes {P : Params} {b : Bit} {s u : State} (hfull : CompletesByte s)
    (d : UpdateDone P b s (foldBit P b (mixerUpdate b s)) u) (g : BitVec 23) :
    hashesRead u g = if g = u.hash then u.pos else hashesRead s g := by
  rw [fold_completes hfull] at d
  rw [hashesRead_congr (d.hashes.trans (byteCommit_hashes ..)), hashesRead_hashesWrite, ← d.hash,
    ← d.pos, hashesRead_congr (mixerUpdate_hashes ..)]

/-- Settles O23: the fold is the byte commit, whose registers and two writes are given in numbers.
-/
theorem updateCommitsTheByte : Obligations.UpdateCommitsTheByte := by
  intro s b htake hfull
  refine exec_update_answers b htake fun u d => ?_
  have hhashes := hashesRead_of_completes hfull d
  rw [fold_completes hfull, committedByte_eq] at d
  have hc4 : u.c4.toNat = (s.c4.toNat * 256 + (2 * s.c0.toNat + b.toNat) % 256) % 2 ^ 32 := by
    rw [d.c4, byteCommit_c4, shiftedIn_toNat, mixerUpdate_c4, BitVec.toNat_ofNat]
  have hhash : u.hash = rollHash s.hash u.c4 := by
    rw [d.hash, byteCommit_hash, mixerUpdate_hash, d.c4]
  have hpos : u.pos = s.pos + 1 := by rw [d.pos, byteCommit_pos, mixerUpdate_pos]
  refine ⟨?c0, ?bpos, hpos, hc4, ?hash, ?ctxm, fun v => ?buffer, hhashes⟩
  case c0 => rw [respondOk_c0, d.c0, byteCommit_c0]
  case bpos => rw [respondOk_bpos, d.bpos, byteCommit_bpos]
  case hash => rw [respondOk_hash, hhash, rollHash_toNat, respondOk_c4]
  case ctxm => rw [respondOk_ctxm, d.ctxm, byteCommit_ctxm, selectedRow_toNat, respondOk_c4, d.c4]
  case buffer =>
    rw [bufferRead_respondOk, bufferRead_congr (d.buffer.trans (byteCommit_buffer ..)),
      bufferRead_bufferWrite, mixerUpdate_pos, bufferRead_congr (mixerUpdate_buffer ..)]

end Sys2Proof.Proofs

/-! The rest of UPDATE: the contexts and pointers (43_context_store.md), the bit histories, the
mixer (45_mixer.md), the SSE stage (46_apm.md) and the match (44_match_finder.md). -/

namespace Sys2Proof.Proofs

open Sys2Proof Sys2Proof.Machine Sys2Proof.Safety Sys2Proof.Laws

/-! ## The contexts (R139) -/

theorem packed_eq (x y z : Byte) :
    x.setWidth 32 ||| (y.setWidth 32 <<< 8) ||| (z.setWidth 32 <<< 16) =
      BitVec.ofNat 32 (x.toNat + 256 * y.toNat + 65536 * z.toNat) := by
  have hx := x.isLt
  have hy := y.isLt
  have hz := z.isLt
  have hlow : x.toNat ||| 2 ^ 8 * y.toNat = 2 ^ 8 * y.toNat + x.toNat := by
    rw [Nat.or_comm, ← Nat.two_pow_add_eq_or_of_lt hx]
  have hall : 2 ^ 8 * y.toNat + x.toNat ||| 2 ^ 16 * z.toNat =
      2 ^ 16 * z.toNat + (2 ^ 8 * y.toNat + x.toNat) := by
    rw [Nat.or_comm, ← Nat.two_pow_add_eq_or_of_lt (by omega)]
  apply BitVec.eq_of_toNat_eq
  simp only [BitVec.toNat_or, BitVec.toNat_shiftLeft, BitVec.toNat_setWidth, BitVec.toNat_ofNat,
    Nat.shiftLeft_eq]
  rw [Nat.mod_eq_of_lt (by omega : x.toNat < 2 ^ 32),
    show y.toNat % 2 ^ 32 * 2 ^ 8 % 2 ^ 32 = 2 ^ 8 * y.toNat by omega,
    show z.toNat % 2 ^ 32 * 2 ^ 16 % 2 ^ 32 = 2 ^ 16 * z.toNat by omega, hlow, hall]
  omega

theorem packedBytes_eq (P : Params) (s : State) :
    packedBytes P s = BitVec.ofNat 32 ((bufferRead P s (s.pos - 6)).toNat
      + 256 * (bufferRead P s (s.pos - 7)).toNat + 65536 * (bufferRead P s (s.pos - 8)).toNat) :=
  packed_eq _ _ _

theorem xor_and_self (x m : W32) : x ^^^ (x &&& m) = x &&& ~~~m := by
  ext i hi
  cases hx : x[i] <;> simp [hx]

/-- After a commit each base is made from the registers and the ring as UPDATE leaves them. -/
theorem ctx_of_completes {P : Params} {b : Bit} {s u : State} (hfull : CompletesByte s)
    (d : UpdateDone P b s (foldBit P b (mixerUpdate b s)) u) (i : Fin 7) :
    u.ctx[i] = contextBase P i.val (contextValue P u i) := by
  rw [fold_completes hfull] at d
  rw [d.ctx, byteCommit_ctx, contextValue_congr P d.c4 d.hash d.pos d.buffer]

/-- Settles O24: the seven cases of the context value, the first and the last in numbers. -/
theorem updateRebuildsTheContexts : Obligations.UpdateRebuildsTheContexts := by
  intro s b htake hfull
  refine exec_update_answers b htake fun u d => ?_
  have hctx := ctx_of_completes hfull d
  refine ⟨(hctx 0).trans ?first, hctx 1, hctx 2, hctx 3, hctx 4, (hctx 5).trans ?hash,
    (hctx 6).trans ?last⟩
  case first => exact congrArg (contextBase Config.params 0) (xor_and_self u.c4 0xFFFF)
  case hash =>
    rw [BitVec.ofNat_toNat]
    rfl
  case last =>
    rw [contextValue, packedBytes_eq]
    rfl

/-! ## The slots (R141, R142) -/

/-- Settles O25. -/
theorem updateMovesThePointers : Obligations.UpdateMovesThePointers :=
  fun _ b h => exec_update_answers b h fun _ d i =>
    (congrArg BitVec.toNat (d.cp i)).trans (slotPointer_toNat ..)

/-- Settles O26. -/
theorem updateAdvancesBitHistories : Obligations.UpdateAdvancesBitHistories :=
  fun _ b h => exec_update_answers b h fun _ d => d.states

theorem predictedBit_eq (e : Byte) (bpos : BitVec 3) :
    predictedBit e bpos = e.toNat.testBit (7 - bpos.toNat) := rfl

/-- Settles O27: the inputs of the slots, and in slot 7 PAD or the match input. -/
theorem updateFeedsTheSelectedRow : Obligations.UpdateFeedsTheSelectedRow := by
  intro s b htake
  refine exec_update_answers b htake fun u d => ⟨d.input, fun hnone => ?pad, fun hmatch => ?matched⟩
  case pad => exact d.lastInput.trans (if_pos hnone)
  case matched =>
    refine d.lastInput.trans ((if_neg hmatch).trans ?_)
    rw [matchInput_eq, predictedBit_eq]
    rfl

/-! ## The mixer (R172, R173) -/

theorem setWidth_eq_ofInt {n : Nat} (v : BitVec n) :
    v.setWidth 32 = BitVec.ofInt 32 (v.toNat : Int) := by
  rw [BitVec.ofInt_natCast, BitVec.ofNat_toNat]

theorem scaledError_eq (b : Bit) (mpr : BitVec 12) :
    scaledError b mpr = BitVec.ofInt 32 (((b.toNat : Int) * 4096 - (mpr.toNat : Int)) * 7) := by
  have hb : b.setWidth 32 <<< 12 = BitVec.ofInt 32 ((b.toNat : Int) * 4096) := by
    obtain rfl | rfl := bit_cases b <;> rfl
  have hsub : BitVec.ofInt 32 ((b.toNat : Int) * 4096) - BitVec.ofInt 32 (mpr.toNat : Int) =
      BitVec.ofInt 32 ((b.toNat : Int) * 4096 - (mpr.toNat : Int)) := by
    rw [sub_eq_iff_eq_add, ← BitVec.ofInt_add, sub_add_cancel]
  rw [scaledError, hb, setWidth_eq_ofInt, hsub, BitVec.ofInt_mul]
  rfl

theorem trainedWeight_eq (w x : W32) (e : Int) :
    trainedWeight w x (BitVec.ofInt 32 e) =
      BitVec.ofInt 32 (w.toInt + (BitVec.ofInt 32 (x.toInt * e)).toInt / 65536) := by
  rw [BitVec.ofInt_add, BitVec.ofInt_toInt, BitVec.ofInt_mul, BitVec.ofInt_toInt, trainedWeight,
    BitVec.sshiftRight, Int.shiftRight_eq_div_pow]
  rfl

/-- Settles O28. -/
theorem updateTrainsOnlyTheOldRow : Obligations.UpdateTrainsOnlyTheOldRow := by
  intro s b htake
  refine exec_update_answers b htake fun u d =>
    ⟨fun k hk => ?trained, fun c k hk hc => ?weight, d.otherInput⟩
  case trained =>
    rw [mixerWeight_respondOk, d.weight _ k hk, if_pos rfl, scaledError_eq, trainedWeight_eq]
  case weight => rw [mixerWeight_respondOk, d.weight c k hk, if_neg hc]

theorem mixerOutput_eq (P : Params) (dot : W32) :
    mixerOutput P dot = squash P (dot.toInt / 2 ^ 15) := by
  rw [mixerOutput, BitVec.toInt_sshiftRight, Int.shiftRight_eq_div_pow]
  rfl

/-- Settles O29. -/
theorem updateMixesTheSelectedRow : Obligations.UpdateMixesTheSelectedRow := by
  intro s b htake
  refine exec_update_answers b htake fun u d => ?_
  rw [respondOk_mpr, d.mpr, mixerOutput_eq, dotRow_eq]
  rfl

/-! ## The SSE stage (R187 to R190) and the clamp (R95) -/

/-- Settles O30. -/
theorem updateAdaptsTheQueriedCell : Obligations.UpdateAdaptsTheQueriedCell := by
  intro s b htake
  refine exec_update_answers b htake fun u d a => ?_
  rw [apmRead_respondOk, d.apm, adaptedCell_eq, apmTarget_eq]

/-- R95 on what the interpolation can give, whatever the cells hold. -/
theorem clamp_apmResult (P : Params) (p : BitVec 12) (s : State) :
    clamp (apmResult P p s) =
      if apmResult P p s < 2048 then apmResult P p s + 1 else apmResult P p s := by
  have h : -134217728 ≤ apmResult P p s ∧ apmResult P p s ≤ 134217728 :=
    interpolate_range _ _ (knotWeight_le _)
  exact clamp_eq (by omega) (by omega)

theorem apmResult_eq (P : Params) (p : BitVec 12) (s : State) :
    apmResult P p s =
      ((apmRead P s s.aidx.val).toInt * (128 - (stretch P p).toInt % 128)
        + (apmRead P s (s.aidx.val + 1)).toInt * ((stretch P p).toInt % 128)) / 2 ^ 11 := by
  rw [apmResult, interpolate_eq, knotWeight_val]

/-- Settles O31: the selected cell in numbers, and the clamp's sign test. -/
theorem updatePredictsFromTheNewCell : Obligations.UpdatePredictsFromTheNewCell := by
  intro s b htake
  refine exec_update_answers b htake fun u d => ⟨?aidx, _, _, rfl, rfl, ?pr⟩
  case aidx =>
    have hknot := knotOf_val (stretch Config.params u.mpr)
    have hrow := apmContext_toNat u.c0 u.c4
    simp only [respondOk_aidx, respondOk_mpr, respondOk_c0, respondOk_c4]
    rw [d.aidx, cellIndex_val]
    omega
  case pr =>
    refine d.pr.trans (congrArg _ ?_)
    rw [clamp_apmResult, apmResult_eq]
    rfl

/-! ## The match (R155 to R157) -/

/-- The test of R157 on the bits below the leading 1 of a sound partial byte. -/
theorem prefixHolds_iff_topBits {e : Byte} {bpos : BitVec 3} {c0 : BitVec 8}
    (h : 2 ^ bpos.toNat ≤ c0.toNat) :
    prefixHolds e bpos c0 = true ↔
      e.toNat / 2 ^ (8 - bpos.toNat) = c0.toNat - 2 ^ bpos.toNat := by
  have hb := bpos.isLt
  have hsplit : 256 = 2 ^ bpos.toNat * 2 ^ (8 - bpos.toNat) := by
    rw [← Nat.pow_add, show bpos.toNat + (8 - bpos.toNat) = 8 by omega]
  rw [prefixHolds_iff, Nat.add_comm, hsplit,
    Nat.add_mul_div_right _ _ (Nat.two_pow_pos (8 - bpos.toNat))]
  omega

/-- Inside a byte `bpos` is at most 6 (R47 (a)). -/
theorem bpos_lt_of_inside {s : State} (hok : PartialByteOk s) (hin : ¬ CompletesByte s) :
    s.bpos.toNat < 7 := by
  obtain ⟨hpos, -, hlog, -⟩ := hok
  rw [hlog]
  exact Nat.log_lt_of_lt_pow (by omega) (Nat.not_le.mp hin)

theorem two_pow_bpos_le {s : State} (hok : PartialByteOk s) : 2 ^ s.bpos.toNat ≤ s.c0.toNat := by
  obtain ⟨hpos, -, hlog, -⟩ := hok
  rw [hlog]
  exact Nat.pow_log_le_self 2 (by omega)

theorem bpos_succ_toNat {s : State} (hok : PartialByteOk s) (hin : ¬ CompletesByte s) :
    (s.bpos + 1).toNat = s.bpos.toNat + 1 := by
  have hlt := bpos_lt_of_inside hok hin
  rw [BitVec.toNat_add]
  exact Nat.mod_eq_of_lt (by simpa using (by omega : s.bpos.toNat + 1 < 8))

section
variable {P : Params} {b : Bit} {s u : State}

theorem c0_of_inside (hin : ¬ CompletesByte s)
    (d : UpdateDone P b s (foldBit P b (mixerUpdate b s)) u) :
    u.c0.toNat = 2 * s.c0.toNat + b.toNat := by
  rw [d.c0, fold_inside hin, withPartial_c0, partialByte_toNat hin]

theorem bpos_of_inside (hok : PartialByteOk s) (hin : ¬ CompletesByte s)
    (d : UpdateDone P b s (foldBit P b (mixerUpdate b s)) u) :
    u.bpos.toNat = s.bpos.toNat + 1 := by
  rw [d.bpos, fold_inside hin, withPartial_bpos, bpos_succ_toNat hok hin]

theorem matchPos_of_inside (hin : ¬ CompletesByte s)
    (d : UpdateDone P b s (foldBit P b (mixerUpdate b s)) u) : u.matchPos = s.matchPos := by
  simp [d.matchPos, fold_inside hin]

theorem matchLen_of_inside (hin : ¬ CompletesByte s)
    (d : UpdateDone P b s (foldBit P b (mixerUpdate b s)) u) :
    u.matchLen = if prefixHolds (predictedByte P u) u.bpos u.c0 then s.matchLen else 0 := by
  rw [d.matchLen, fold_inside hin, withPartial_matchLen, mixerUpdate_matchLen]

end

/-- Settles O32: the survival test on the folded bit. -/
theorem updateChecksTheMatchInsideByte : Obligations.UpdateChecksTheMatchInsideByte := by
  intro s b htake hok hin
  refine exec_update_answers b htake fun u d => ?_
  have hmatchPos := matchPos_of_inside hin d
  have hbyte : predictedByte Config.params u = bufferRead Config.params s s.matchPos := by
    rw [predictedByte, hmatchPos, bufferRead_congr]
    simp [d.buffer, fold_inside hin]
  have hbpos := bpos_of_inside hok hin d
  have hc0 := c0_of_inside hin d
  have hlead : 2 ^ u.bpos.toNat ≤ u.c0.toNat := by
    have := two_pow_bpos_le hok
    rw [hbpos, hc0, Nat.pow_succ]
    omega
  have htest := prefixHolds_iff_topBits (e := predictedByte Config.params u) hlead
  rw [hbyte, hbpos, hc0, show 8 - (s.bpos.toNat + 1) = 7 - s.bpos.toNat by omega] at htest
  refine ⟨hmatchPos, ?_⟩
  rw [respondOk_matchLen, matchLen_of_inside hin d, hbyte]
  exact if_congr htest rfl rfl

section
variable {P : Params} {b : Bit} {s u : State}

/-- At a byte boundary no match is dropped: the test of R157 holds for no bits. -/
theorem matchLen_of_completes (hfull : CompletesByte s)
    (d : UpdateDone P b s (foldBit P b (mixerUpdate b s)) u) :
    u.matchLen = (foldBit P b (mixerUpdate b s)).matchLen := by
  rw [fold_completes hfull] at d ⊢
  rw [d.matchLen, d.bpos, d.c0, byteCommit_bpos, byteCommit_c0, prefixHolds_start, if_pos rfl]

/-- What the boundary does to the match, in terms of what UPDATE leaves (R155, R156). -/
theorem match_of_completes (hfull : CompletesByte s)
    (d : UpdateDone P b s (foldBit P b (mixerUpdate b s)) u) :
    (s.matchLen ≠ 0 ∧ u.matchPos = s.matchPos + 1 ∧
      u.matchLen.toNat = min (s.matchLen.toNat + 1) 160) ∨
    (s.matchLen = 0 ∧ u.matchPos = hashesRead s u.hash ∧
      u.matchLen.toNat = if candidateUsable P u u.matchPos then
        measuredLength P (foldBit P b (mixerUpdate b s)) u.matchPos else 0) := by
  have hzero : s.matchLen = 0 ↔ s.matchLen.toNat = 0 := by
    rw [← BitVec.toNat_inj]
    rfl
  have hlen := matchLen_of_completes hfull d
  have hboundary := byteCommit_match P ((foldedByte b s).setWidth 8) (mixerUpdate b s)
  rw [← fold_completes hfull] at hboundary
  simp only [mixerUpdate_matchLen, mixerUpdate_matchPos, ← hlen, ← d.matchPos, ← d.hash,
    hashesRead_congr (mixerUpdate_hashes ..)] at hboundary
  obtain ⟨h0, hpos, hnew⟩ | ⟨h0, hpos, hnew⟩ := hboundary
  · exact .inl ⟨fun h => by have := hzero.mp h; omega, hpos, hnew⟩
  · refine .inr ⟨hzero.mpr h0, hpos, hnew.trans ?_⟩
    rw [candidateUsable, ← d.pos, candidateUsable]

end

/-- Settles O33. -/
theorem updateContinuesTheMatch : Obligations.UpdateContinuesTheMatch := by
  intro s b htake hfull hmatch
  refine exec_update_answers b htake fun u d => ?_
  obtain ⟨-, hcontinued⟩ | ⟨hnone, -⟩ := match_of_completes hfull d
  · exact hcontinued
  · exact absurd hnone hmatch

theorem bytesAgree_congr {P : Params} {s t : State} (hpos : s.pos = t.pos)
    (hbuffer : s.buffer = t.buffer) (cand : W32) (r : Nat) :
    BytesAgree P s cand r ↔ BytesAgree P t cand r := by
  rw [BytesAgree, hpos, bufferRead_congr hbuffer, bufferRead_congr hbuffer, BytesAgree]

theorem candidateUsable_iff {P : Params} {s : State} {cand : W32} :
    candidateUsable P s cand = true ↔ cand ≠ 0 ∧ (s.pos - cand).toNat ≤ P.ringSize - 1 := by
  simp [candidateUsable]

/-- Settles O34: an unusable candidate starts no match, a usable one is measured. -/
theorem updateSearchesForAMatch : Obligations.UpdateSearchesForAMatch := by
  intro s b htake hfull hnone
  refine exec_update_answers b htake fun u d => ?_
  obtain ⟨hmatch, -⟩ | ⟨-, hpos, hlen⟩ := match_of_completes hfull d
  · exact absurd hnone hmatch
  refine ⟨hpos, fun hbad => ?unusable, fun hne hnear => ?measured⟩
  case unusable =>
    have hno : ¬ candidateUsable Config.params u u.matchPos = true := by
      rw [candidateUsable_iff]
      rintro ⟨hne, hnear⟩
      exact hbad.elim hne (Nat.not_lt.mpr hnear)
    rw [if_neg hno] at hlen
    exact BitVec.eq_of_toNat_eq hlen
  case measured =>
    have husable : candidateUsable Config.params u u.matchPos = true :=
      candidateUsable_iff.mpr ⟨hne, hnear⟩
    rw [if_pos husable] at hlen
    obtain ⟨hle, hagree, hstop⟩ := measuredLength_spec Config.params
      (foldBit Config.params b (mixerUpdate b s)) u.matchPos
    simp only [← hlen, ← bytesAgree_congr d.pos d.buffer] at hle hagree hstop
    exact ⟨hle, hagree, hstop⟩

end Sys2Proof.Proofs

/-! The invariants of a core that has been RESET (10_state.md R47, 44_match_finder.md R158,
46_apm.md R190, R191) and the canonical form of the arrays: each part kept by UPDATE, then by every
step. -/

namespace Sys2Proof.Proofs

open Sys2Proof Sys2Proof.Machine Sys2Proof.Safety Sys2Proof.Laws

/-! ## The partial byte and the counters (R47 (a)) -/

section
variable {P : Params} {b : Bit} {s u : State}

theorem partialByteOk_start (hc0 : s.c0 = 1) (hbpos : s.bpos = 0) : PartialByteOk s := by
  rw [PartialByteOk, hc0, hbpos]
  decide

/-- The bit that completes a byte is its eighth. -/
theorem bpos_of_completes (hok : PartialByteOk s) (hfull : CompletesByte s) : s.bpos = 7 := by
  obtain ⟨hpos, hle, hlog, -⟩ := hok
  apply BitVec.eq_of_toNat_eq
  rw [hlog]
  exact Nat.log_eq_of_pow_le_of_lt_pow hfull (Nat.lt_succ_of_le hle)

theorem c0_of_completes (hfull : CompletesByte s)
    (d : UpdateDone P b s (foldBit P b (mixerUpdate b s)) u) : u.c0 = 1 := by
  rw [d.c0, fold_completes hfull, byteCommit_c0]

theorem bpos_zero_of_completes (hfull : CompletesByte s)
    (d : UpdateDone P b s (foldBit P b (mixerUpdate b s)) u) : u.bpos = 0 := by
  rw [d.bpos, fold_completes hfull, byteCommit_bpos]

theorem partialByteOk_update (hok : PartialByteOk s)
    (d : UpdateDone P b s (foldBit P b (mixerUpdate b s)) u) : PartialByteOk u := by
  by_cases hfull : CompletesByte s
  · exact partialByteOk_start (c0_of_completes hfull d) (bpos_zero_of_completes hfull d)
  · have hbit := b.isLt
    have hc0 := c0_of_inside hfull d
    have hbpos := bpos_of_inside hok hfull d
    obtain ⟨hpos, -, hlog, -⟩ := hok
    have hhalf : u.c0.toNat / 2 = s.c0.toNat := by omega
    have hlogu : Nat.log 2 u.c0.toNat = Nat.log 2 s.c0.toNat + 1 := by
      rw [Nat.log_of_one_lt_of_le (by omega) (by omega), hhalf]
    refine ⟨by omega, by have := u.c0.isLt; omega, by omega, ?_⟩
    refine iff_of_false (fun h => ?_) (fun h => ?_)
    · rw [h] at hbpos
      cases hbpos
    · rw [h] at hc0
      have : (1 : BitVec 8).toNat = 1 := rfl
      omega

/-- Below the overflow (R203) the byte count goes up by one as a number. -/
theorem pos_of_completes (hok : PartialByteOk s) (htake : TakesUpdate s) (hfull : CompletesByte s)
    (d : UpdateDone P b s (foldBit P b (mixerUpdate b s)) u) :
    u.pos.toNat = s.pos.toNat + 1 := by
  have hmax : s.pos ≠ 0xFFFFFFFF := by
    intro h
    have hover := posOverflows_iff.mpr ⟨bpos_of_completes hok hfull, h⟩
    rw [htake.2] at hover
    cases hover
  have hlt := s.pos.isLt
  have hne : s.pos.toNat ≠ 0xFFFFFFFF := fun h => hmax (BitVec.eq_of_toNat_eq h)
  rw [d.pos, fold_completes hfull, byteCommit_pos, mixerUpdate_pos, BitVec.toNat_add]
  exact Nat.mod_eq_of_lt (by simpa using (by omega : s.pos.toNat + 1 < 2 ^ 32))

theorem pos_of_inside (hin : ¬ CompletesByte s)
    (d : UpdateDone P b s (foldBit P b (mixerUpdate b s)) u) : u.pos = s.pos := by
  simp [d.pos, fold_inside hin]

/-! ## The match and the published positions (R47 (c) to (e), R158) -/

theorem matchLenOk_update (hlen : MatchLenOk s)
    (d : UpdateDone P b s (foldBit P b (mixerUpdate b s)) u) : MatchLenOk u := by
  by_cases hfull : CompletesByte s
  · obtain ⟨-, -, h⟩ | ⟨-, -, h⟩ := match_of_completes hfull d
    · exact h.trans_le (Nat.min_le_right ..)
    · rw [MatchLenOk, h]
      split
      · exact (measuredLength_spec ..).1
      · exact Nat.zero_le _
  · rw [MatchLenOk, matchLen_of_inside hfull d]
    split
    · exact hlen
    · exact Nat.zero_le _

/-- The match test of UPDATE leaves what R47 (d) says, whatever the match was before. -/
theorem matchPrefixOk_update (hok : PartialByteOk u)
    (d : UpdateDone P b s (foldBit P b (mixerUpdate b s)) u) : MatchPrefixOk P u := by
  by_cases h : prefixHolds (predictedByte P u) u.bpos u.c0 = true
  · exact .inr ((prefixHolds_iff_topBits (two_pow_bpos_le hok)).mp h)
  · exact .inl (d.matchLen.trans (if_neg h))

theorem hashesRead_of_inside (hin : ¬ CompletesByte s)
    (d : UpdateDone P b s (foldBit P b (mixerUpdate b s)) u) (g : BitVec 23) :
    hashesRead u g = hashesRead s g := by
  refine hashesRead_congr ?_ g
  simp [d.hashes, fold_inside hin]

theorem hashesOk_update (hok : PartialByteOk s) (htake : TakesUpdate s) (hhashes : HashesOk s)
    (d : UpdateDone P b s (foldBit P b (mixerUpdate b s)) u) : HashesOk u := by
  intro g
  by_cases hfull : CompletesByte s
  · have hpos := pos_of_completes hok htake hfull d
    have hold := hhashes g
    rw [hashesRead_of_completes hfull d]
    split <;> omega
  · rw [hashesRead_of_inside hfull d, pos_of_inside hfull d]
    exact hhashes g

theorem matchPosOk_update (hok : PartialByteOk s) (htake : TakesUpdate s) (hhashes : HashesOk s)
    (hmatch : MatchPosOk s) (d : UpdateDone P b s (foldBit P b (mixerUpdate b s)) u) :
    MatchPosOk u := by
  obtain ⟨hle, hlt⟩ := hmatch
  by_cases hfull : CompletesByte s
  · have hpos := pos_of_completes hok htake hfull d
    have hbelow : u.matchPos.toNat < u.pos.toNat := by
      obtain ⟨hne, h, -⟩ | ⟨-, h, -⟩ := match_of_completes hfull d
      · have hold := hlt hne
        have hmod : (s.matchPos + 1).toNat ≤ s.matchPos.toNat + 1 := by
          rw [BitVec.toNat_add]
          exact Nat.mod_le _ _
        rw [h]
        omega
      · have hold := hhashes u.hash
        rw [h]
        omega
    exact ⟨hbelow.le, fun _ => hbelow⟩
  · rw [MatchPosOk, matchPos_of_inside hfull d, pos_of_inside hfull d]
    refine ⟨hle, fun hne => hlt fun hzero => hne ?_⟩
    rw [matchLen_of_inside hfull d, hzero, ite_self]

/-! ## The SSE cells (R47 (f), R190, R191) -/

theorem cellsOk_update (hcells : CellsOk P s)
    (d : UpdateDone P b s (foldBit P b (mixerUpdate b s)) u) : CellsOk P u := by
  intro a ha
  obtain ⟨hlo, hhi⟩ := hcells a ha
  rw [d.apm]
  split
  · exact adaptedCell_bounds b hlo hhi
  · exact ⟨hlo, hhi⟩

theorem c0_ne_zero_update (hc0 : s.c0.toNat ≠ 0)
    (d : UpdateDone P b s (foldBit P b (mixerUpdate b s)) u) : u.c0.toNat ≠ 0 := by
  by_cases hfull : CompletesByte s
  · rw [c0_of_completes hfull d]
    decide
  · rw [c0_of_inside hfull d]
    omega

/-- The two knots of a queried cell lie in its row. -/
theorem knots_in_row {k : Fin 32} {row : BitVec 16} {r j : Nat} (hj : j < 33)
    (h : 33 * r + j = (cellIndex k row).val ∨ 33 * r + j = (cellIndex k row).val + 1) :
    r = row.toNat := by
  have hk := k.isLt
  rw [cellIndex_val] at h
  omega

end

/-! ## Every step (R47) -/

theorem apmRead_reset (a : Nat) :
    apmRead Config.params State.reset a = knotTemplate Config.params (a % 33) := rfl

/-- Settles O38: the registers by their values, the cells by the range of the template. -/
theorem resetMeetsThePredictorInvariant : Obligations.ResetMeetsThePredictorInvariant := by
  intro _
  refine ⟨partialByteOk_start rfl rfl, by unfold PredictionOk; decide, by unfold MatchLenOk; decide,
    .inl rfl, ⟨Nat.zero_le _, fun h => absurd rfl h⟩, fun _ => Nat.zero_le _, fun a _ => ?_⟩
  have h := knotTemplate_bounds Config.params (a % 33)
  rw [apmRead_reset]
  omega

/-- Settles O37: UPDATE keeps each part, RESET establishes them, and no other step touches them. -/
theorem stepKeepsThePredictorInvariant : Obligations.StepKeepsThePredictorInvariant := by
  intro s t hs hstep
  refine step_keeps (fun s l st r hinit h hi => h (hinit.symm.trans hi))
    resetMeetsThePredictorInvariant (fun b s u htake d h _ => ?_) hs hstep
  obtain ⟨hpartial, -, hlen, -, hmatch, hhashes, hcells⟩ := h htake.1.1
  have hpartial' := partialByteOk_update hpartial d
  exact ⟨hpartial', Nat.le_of_lt_succ u.pr.isLt, matchLenOk_update hlen d,
    matchPrefixOk_update hpartial' d, matchPosOk_update hpartial htake hhashes hmatch d,
    hashesOk_update hpartial htake hhashes d, cellsOk_update hcells d⟩

/-- Settles O40: the selected row is 1, and all rows are the template. -/
theorem resetLeavesUnqueriedRows : Obligations.ResetLeavesUnqueriedRows :=
  fun _ => ⟨by decide, ⟨1, knotOf (stretch Config.params 2048), by decide, rfl⟩,
    fun r _ _ _ hj => apmTemplate_row Config.params r hj⟩

/-- Settles O39: the new row has the nonzero partial byte as its low byte, so UPDATE adapts no knot
of an unqueried row. -/
theorem stepKeepsUnqueriedRows : Obligations.StepKeepsUnqueriedRows := by
  intro s t hs hstep
  refine step_keeps (fun s l st r hinit h hi => h (hinit.symm.trans hi))
    resetLeavesUnqueriedRows (fun b s u htake d h _ => ?_) hs hstep
  obtain ⟨hc0, ⟨row, knot, hrow, haidx⟩, hrest⟩ := h htake.1.1
  have hc0' := c0_ne_zero_update hc0 d
  refine ⟨hc0', ⟨_, _, ?selected, d.aidx⟩, fun r hr hzero j hj => ?kept⟩
  case selected =>
    have hlt := u.c0.isLt
    rw [apmContext_toNat]
    omega
  case kept =>
    rw [d.apm, if_neg, hrest r hr hzero j hj]
    rw [haidx]
    intro h
    rw [knots_in_row hj h] at hzero
    exact hrow hzero

/-- Settles O41: UPDATE writes inside the arrays only, and RESET's arrays are empty lists. -/
theorem stepKeepsCanonicalArrays : Obligations.StepKeepsCanonicalArrays := by
  intro s t hs hstep
  exact step_keeps (Inv := fun s => Memory.wf Config.params s = true)
    (fun s l st r _ h => (wf_congr rfl rfl rfl rfl rfl).trans h)
    (wf_constructed Config.params) (fun b s u _ d h => d.wf h) hs hstep

/-- Settles O42: array by array. -/
theorem canonicalArraysAreTheirContents : Obligations.CanonicalArraysAreTheirContents := by
  refine ⟨wf_constructed Config.params, fun s t hs ht hbuffer hstates hhashes hmixer hapm => ?_⟩
  obtain ⟨s1, s2, s3, s4, s5⟩ := wf_iff.mp hs
  obtain ⟨t1, t2, t3, t4, t5⟩ := wf_iff.mp ht
  exact ⟨canonical_ext s1 t1 hbuffer, canonical_ext s2 t2 hstates, canonical_ext s3 t3 hhashes,
    canonical_ext s4 t4 hmixer, canonical_ext s5 t5 hapm⟩

/-! ## The prediction (R24, R95, R191) -/

theorem clamp_bounds {p : Int} (h0 : 0 ≤ p) (h1 : p ≤ 4095) : 1 ≤ clamp p ∧ clamp p ≤ 4095 := by
  rw [clamp_eq (by omega) (by omega)]
  split_ifs <;> omega

theorem apmResult_bounds {P : Params} {s : State} (hcells : CellsOk P s) (p : BitVec 12) :
    0 ≤ apmResult P p s ∧ apmResult P p s ≤ 4095 := by
  have hlt := aidx_lt s
  exact interpolate_bounds (knotWeight_le _) (hcells _ (by omega)) (hcells _ hlt)

/-- Settles O35: the cells stay in range, so the interpolation does, and the clamp lifts it off 0.
-/
theorem predictionIsNeverZero : Obligations.PredictionIsNeverZero := by
  intro s b hs htake
  obtain ⟨-, -, -, -, -, -, hcells⟩ := hs htake.1.1
  refine exec_update_answers b htake fun u d => ?_
  obtain ⟨hlo, hhi⟩ := apmResult_bounds (cellsOk_update hcells d) u.mpr
  obtain ⟨hlo', hhi'⟩ := clamp_bounds hlo hhi
  have hpr : (u.pr.toNat : Int) = clamp (apmResult Config.params u.mpr u) := by
    rw [d.pr, BitVec.toNat_ofInt]
    omega
  rw [respondOk_pr]
  omega

end Sys2Proof.Proofs

/-! Counting UPDATEs (40_commands.md R98), as a step and along a run, and what power-up leaves
unspecified (10_state.md R49): the answers before the first RESET depend on STATUS and the word
only. -/

namespace Sys2Proof.Proofs

open Sys2Proof Sys2Proof.Machine Sys2Proof.Safety Sys2Proof.Laws

/-! ## One step -/

/-- The count of R98. -/
def bitsTaken (s : State) : Nat := 8 * s.pos.toNat + s.bpos.toNat

theorem bitsTaken_update {P : Params} {b : Bit} {s u : State} (hok : PartialByteOk s)
    (htake : TakesUpdate s) (d : UpdateDone P b s (foldBit P b (mixerUpdate b s)) u) :
    bitsTaken u = bitsTaken s + 1 := by
  unfold bitsTaken
  by_cases hfull : CompletesByte s
  · rw [pos_of_completes hok htake hfull d, bpos_zero_of_completes hfull d,
      bpos_of_completes hok hfull]
    change 8 * (s.pos.toNat + 1) + 0 = 8 * s.pos.toNat + 7 + 1
    omega
  · rw [pos_of_inside hfull d, bpos_of_inside hok hfull d]
    omega

/-- Settles O56, by the cases of a step. -/
theorem stepCountsItsUpdates : Obligations.StepCountsItsUpdates := by
  intro s t hok hstep
  have hhead : ∀ {w : Word} {rest : List Word}, s.cmds = w :: rest → s.cmds.head? = some w :=
    fun h => by rw [h]; rfl
  cases stepDone_of_step hstep with
  | idle hcmds =>
    rw [hcmds]
    exact ⟨hok, nofun, fun h => h.elim nofun nofun, fun _ _ => rfl⟩
  | reset hcmds =>
    rw [hhead hcmds]
    exact ⟨partialByteOk_start rfl rfl, fun _ => rfl,
      fun h => absurd h (by decide), fun h => absurd rfl h⟩
  | @updated w rest b u hcmds hw htake hdone =>
    simp only [hhead hcmds, Option.some.injEq]
    have hcount : bitsTaken u = bitsTaken s + 1 :=
      bitsTaken_update (s := s.withCmds rest) hok htake hdone
    refine ⟨partialByteOk_update (s := s.withCmds rest) (u := u) hok hdone,
      fun h => ?_, fun _ _ => hcount, fun _ hno => ?_⟩
    · exact absurd (hw.symm.trans h) (encode_ne_reset (by simp))
    · exact absurd ⟨hw ▸ encode_update_cases b, htake⟩ hno
  | answered r hcmds hreset hupdate =>
    simp only [hhead hcmds, Option.some.injEq]
    exact ⟨hok, fun h => absurd h hreset, fun hw htake => absurd ⟨hw, htake⟩ hupdate,
      fun _ _ => rfl⟩
  | raised hcmds hreset hupdate hf hcode =>
    simp only [hhead hcmds, Option.some.injEq]
    exact ⟨hok, fun h => absurd h hreset, fun hw htake => absurd ⟨hw, htake⟩ hupdate,
      fun _ _ => rfl⟩

/-! ## A run of commands -/

/-- What a command that is no RESET leaves in a running core with room for its bit. -/
theorem step_of_command {s : State} {i : Instr} {rest : List Word}
    (hcmds : s.cmds = encode i :: rest) (hi : i ≠ .reset) (hrun : Running s) (hok : PartialByteOk s)
    (hroom : isUpdate i = true → bitsTaken s + 1 < 2 ^ 35) :
    ∃ t, step s = .next t ∧ t.cmds = rest ∧ t.status = s.status ∧ PartialByteOk t ∧
      bitsTaken t = bitsTaken s + if isUpdate i = true then 1 else 0 := by
  have hstep := step_of_decode_ok hcmds (decode_encode i)
  cases i with
  | get =>
    exact ⟨_, hstep.trans (getCommand_of_running (s := s.withCmds rest) hrun), rfl, rfl, hok, rfl⟩
  | update b =>
    have htake : TakesUpdate (s.withCmds rest) := by
      refine ⟨hrun, Bool.eq_false_iff.mpr fun h => ?_⟩
      obtain ⟨hbpos, hpos⟩ := posOverflows_iff (s := s).mp h
      have hlt := hroom rfl
      rw [bitsTaken, hbpos, hpos] at hlt
      exact absurd hlt (by decide)
    obtain ⟨u, hexec, d⟩ := exec_update_of_takes b htake
    exact ⟨_, hstep.trans hexec, d.cmds, d.status,
      partialByteOk_update (s := s.withCmds rest) (u := u) hok d,
      bitsTaken_update (s := s.withCmds rest) (u := u) hok htake d⟩
  | squash x =>
    exact ⟨_, hstep.trans (unlessFaulted_ok (s := s.withCmds rest) hrun.2 _), rfl, rfl, hok, rfl⟩
  | stretch p =>
    exact ⟨_, hstep.trans (unlessFaulted_ok (s := s.withCmds rest) hrun.2 _), rfl, rfl, hok, rfl⟩
  | reset => exact absurd rfl hi

theorem run_of_commands (prog : List Instr) (hno : Instr.reset ∉ prog) {s : State}
    (hcmds : s.cmds = prog.map encode) (hrun : Running s) (hok : PartialByteOk s)
    (hroom : bitsTaken s + prog.countP isUpdate < 2 ^ 35) :
    ∃ t, core.run prog.length s = .next t ∧ t.cmds = [] ∧ t.status = s.status ∧
      bitsTaken t = bitsTaken s + prog.countP isUpdate := by
  induction prog generalizing s with
  | nil => exact ⟨s, rfl, hcmds, rfl, rfl⟩
  | cons i prog ih =>
    obtain ⟨hi, hno⟩ : Instr.reset ≠ i ∧ Instr.reset ∉ prog := by simpa using hno
    rw [List.countP_cons] at hroom ⊢
    obtain ⟨t, hstep, htcmds, htstatus, htok, htcount⟩ :=
      step_of_command hcmds (Ne.symm hi) hrun hok fun hu => by rw [if_pos hu] at hroom; omega
    obtain ⟨u, hu, hucmds, hustatus, hucount⟩ :=
      ih hno htcmds (by rw [Running, htstatus]; exact hrun) htok (by omega)
    exact ⟨u, (run_succ hstep _).trans hu, hucmds, hustatus.trans htstatus, by omega⟩

/-- Settles O44, by induction on the program from the reset state's count 0. -/
theorem updatesAreCounted : Obligations.UpdatesAreCounted := by
  intro prog hno hlt
  have hzero : bitsTaken { State.reset with cmds := prog.map encode } = 0 := rfl
  obtain ⟨t, hrun, hcmds, hstatus, hcount⟩ := run_of_commands prog hno
    (s := { State.reset with cmds := prog.map encode }) rfl ⟨rfl, rfl⟩ (partialByteOk_start rfl rfl)
    (by omega)
  have hbpos := t.bpos.isLt
  have hbpos0 : t.bpos = 0 ↔ t.bpos.toNat = 0 := by
    rw [← BitVec.toNat_inj]
    rfl
  rw [hzero, Nat.zero_add] at hcount
  unfold bitsTaken at hcount
  refine ⟨t, hrun, hcmds, hstatus, hcount, by omega, ?_⟩
  rw [hbpos0]
  omega

/-! ## Before the first RESET (R49, R202) -/

/-- STATUS and the response after a word other than RESET's, in a core that no RESET has reached. -/
def answerBeforeReset (st : Status) (w : Word) : Status × Response :=
  if st.fault = .none then
    match decode w with
    | .ok (.squash x) => (st, ⟨1, zext16 (squash Config.params (signedOperand x))⟩)
    | .ok (.stretch p) => (st, ⟨1, sext16 (stretch Config.params p)⟩)
    | .ok _ => (st.withFault .notInitialised, ⟨2, 2⟩)
    | .error _ => (st.withFault .illegalCommand, ⟨2, 1⟩)
  else (st, ⟨2, zext16 (FaultCode.code st.fault)⟩)

theorem step_before_reset {s : State} {w : Word} {rest : List Word} (hinit : s.status.init = false)
    (hcmds : s.cmds = w :: rest) (hw : w ≠ 0x4000) :
    step s = .next (((s.withCmds rest).withStatus (answerBeforeReset s.status w).1).withResp
      (answerBeforeReset s.status w).2) := by
  by_cases hf : s.status.fault = .none
  · cases hd : decode w with
    | error e =>
      rw [step_of_decode_error hcmds hd, illegalCommand_of_unfaulted (s := s.withCmds rest) hf,
        answerBeforeReset, if_pos hf, hd]
      rfl
    | ok i =>
      rw [step_of_decode_ok hcmds hd, answerBeforeReset, if_pos hf, hd]
      cases i with
      | get => exact getCommand_of_not_init (s := s.withCmds rest) hf hinit
      | update b => exact updateCommand_of_not_init (s := s.withCmds rest) _ b hf hinit
      | squash x => exact unlessFaulted_ok (s := s.withCmds rest) hf _
      | stretch p => exact unlessFaulted_ok (s := s.withCmds rest) hf _
      | reset => exact absurd hd (decode_ne_reset hw)
  · rw [step_of_faulted hcmds hf hw, answerBeforeReset, if_neg hf]
    rfl

theorem answerBeforeReset_init (st : Status) (w : Word) :
    (answerBeforeReset st w).1.init = st.init := by
  rw [answerBeforeReset]
  split_ifs
  · split <;> rfl
  · rfl

theorem sameOnceReset_refl (s : State) : SameOnceReset s s := ⟨rfl, rfl, rfl, fun _ => rfl⟩

/-- Settles O57: equal cores step alike; before RESET the answer is a function of what the cores
share, and RESET leaves nothing else. -/
theorem stepKeepsWhatResetHides : Obligations.StepKeepsWhatResetHides := by
  rintro s t s' ⟨hcmds, hresp, hstatus, hequal⟩ hstep
  cases hinit : s.status.init with
  | true =>
    rw [← hequal hinit]
    exact ⟨s', hstep, sameOnceReset_refl s'⟩
  | false =>
    have hinit' : t.status.init = false := hstatus ▸ hinit
    cases hs : s.cmds with
    | nil =>
      rw [step_of_idle hs] at hstep
      cases hstep
      exact ⟨t, step_of_idle (hcmds ▸ hs), hcmds, hresp, hstatus, hequal⟩
    | cons w rest =>
      have ht : t.cmds = w :: rest := hcmds ▸ hs
      by_cases hw : w = 0x4000
      · have hd : decode w = .ok .reset := hw ▸ decode_reset
        refine ⟨s', ?_, sameOnceReset_refl s'⟩
        rw [step_of_decode_ok ht hd, ← hstep, step_of_decode_ok hs hd]
        rfl
      · rw [step_before_reset hinit hs hw] at hstep
        cases hstep
        refine ⟨_, step_before_reset hinit' ht hw, rfl, ?_, ?_, fun h => ?_⟩
        · exact congrArg (fun st => (answerBeforeReset st w).2) hstatus
        · exact congrArg (fun st => (answerBeforeReset st w).1) hstatus
        · rw [withResp_status, withStatus_status, answerBeforeReset_init, hinit] at h
          cases h

theorem run_keeps_sameOnceReset (n : Nat) {s t : State} (h : SameOnceReset s t) :
    ∃ s' t', core.run n s = .next s' ∧ core.run n t = .next t' ∧ SameOnceReset s' t' := by
  induction n generalizing s t with
  | zero => exact ⟨s, t, rfl, rfl, h⟩
  | succ n ih =>
    obtain ⟨s', hs⟩ := everyStepAnswersNext s
    obtain ⟨t', ht, h'⟩ := stepKeepsWhatResetHides s t s' h hs
    rw [run_succ hs, run_succ ht]
    exact ih h'

theorem sameOnceReset_powerUp {u v : State} (hcmds : u.cmds = v.cmds) (hresp : u.resp = v.resp) :
    SameOnceReset u.powerUp v.powerUp :=
  ⟨hcmds, hresp, rfl, fun h => by cases h⟩

/-- Settles O45: the step form along a run, and O14 at power-up. -/
theorem powerUpContentsNeverShow : Obligations.PowerUpContentsNeverShow := by
  refine ⟨fun u v n hcmds hresp => ?run, fun u i => ?first⟩
  case run =>
    obtain ⟨s, t, hs, ht, -, hresp', hstatus, hequal⟩ :=
      run_keeps_sameOnceReset n (sameOnceReset_powerUp hcmds hresp)
    exact ⟨s, t, hs, ht, hresp', hstatus, hequal⟩
  case first =>
    have hanswers := fun b x => getAndUpdateNeedReset u.powerUp b x rfl rfl
    cases i with
    | get =>
      obtain ⟨h, -⟩ := hanswers 0 0
      exact ⟨_, h, fun _ => ⟨rfl, rfl⟩, by simp⟩
    | update b =>
      obtain ⟨-, h, -⟩ := hanswers b 0
      exact ⟨_, h, fun _ => ⟨rfl, rfl⟩, by simp⟩
    | squash x =>
      obtain ⟨-, -, ⟨t, h, hstatus, hrstat⟩, -⟩ := hanswers 0 x
      exact ⟨t, h, by simp, fun _ => ⟨hstatus, hrstat⟩⟩
    | stretch p =>
      obtain ⟨-, -, -, t, h, hstatus, hrstat⟩ := hanswers 0 p
      exact ⟨t, h, by simp, fun _ => ⟨hstatus, hrstat⟩⟩
    | reset => exact ⟨_, exec_reset _, by simp, by simp⟩

end Sys2Proof.Proofs

/-! The stored inputs of the mixer rows that are not selected never show (10_state.md R48). No step
of UPDATE but Mixer_Get reads the mixer, so beside `MIXER` and `mpr` two such states move alike; and
the row UPDATE selects is filled anew from what they share, so Mixer_Get answers alike. -/

namespace Sys2Proof.Proofs

open Sys2Proof Sys2Proof.Machine Sys2Proof.Safety Sys2Proof.Laws

/-! ## The operations that do not read the mixer -/

/-- The operation does the same whatever `MIXER` holds, beside what it leaves there. -/
def IgnoresMixer (op : State → Option State) : Prop :=
  ∀ (s t : State) (m : List WordCell), op s = some t →
    ∃ n, op (s.withMixer m s.mcur) = some (t.withMixer n t.mcur)

theorem ignoresMixer_bind {f g : State → Option State} (hf : IgnoresMixer f) (hg : IgnoresMixer g) :
    IgnoresMixer fun s => (f s).bind g := by
  intro s u m h
  obtain ⟨t, ht, hu⟩ := Option.bind_eq_some_iff.mp h
  obtain ⟨n, hn⟩ := hf s t m ht
  obtain ⟨n', hn'⟩ := hg t u n hu
  refine ⟨n', ?_⟩
  change (f (s.withMixer m s.mcur)).bind g = _
  rw [hn, Option.bind_some, hn']

theorem ignoresMixer_mixerAddInput (x : W32) : IgnoresMixer (mixerAddInput x) := by
  intro s t m h
  unfold mixerAddInput at h
  split at h
  · next hcur =>
    cases h
    exact ⟨_, mixerAddInput_eq (s := s.withMixer m s.mcur) hcur⟩
  · cases h

theorem ignoresMixer_slotStep (P : Params) (b : Bit) (i : Fin 7) : IgnoresMixer (slotStep P b i) :=
  fun _ _ m h => ignoresMixer_mixerAddInput _ _ _ m h

theorem ignoresMixer_slotSteps (P : Params) (b : Bit) (l : List (Fin 7)) :
    IgnoresMixer (slotSteps P b l) := by
  induction l with
  | nil =>
    intro s t m h
    cases h
    exact ⟨m, rfl⟩
  | cons i l ih => exact ignoresMixer_bind (ignoresMixer_slotStep P b i) ih

theorem ignoresMixer_matchBit (P : Params) : IgnoresMixer (matchBit P) := by
  intro s t m h
  have hsame : matchBit P (s.withMixer m s.mcur) =
      if s.matchLen.toNat > 0 then
        if prefixHolds (predictedByte P s) s.bpos s.c0 then
          mixerAddInput (matchInput s.matchLen (predictedBit (predictedByte P s) s.bpos))
            (s.withMixer m s.mcur)
        else some ((s.withMatch 0 s.matchPos).withMixer m s.mcur)
      else some (s.withMixer m s.mcur) := rfl
  rw [hsame]
  unfold matchBit at h
  split_ifs at h ⊢
  · exact ignoresMixer_mixerAddInput _ s t m h
  · cases h
    exact ⟨m, rfl⟩
  · cases h
    exact ⟨m, rfl⟩

theorem ignoresMixer_feedMixer (P : Params) (b : Bit) : IgnoresMixer (feedMixer P b) :=
  ignoresMixer_bind (ignoresMixer_slotSteps P b slotOrder) (ignoresMixer_matchBit P)

/-! ## The fold of the bit -/

section
variable (P : Params) (s : State) (m : List WordCell) (cur : Fin 9)

theorem scanMatch_withMixer (cand : W32) (fuel r : Nat) :
    scanMatch P (s.withMixer m cur) cand fuel r = scanMatch P s cand fuel r := by
  induction fuel generalizing r with
  | zero => rfl
  | succ fuel ih =>
    rw [scanMatch, ih, scanMatch]
    rfl

theorem matchBoundary_withMixer :
    matchBoundary P (s.withMixer m cur) = (matchBoundary P s).withMixer m cur := by
  have hlength : ∀ cand, measuredLength P (s.withMixer m cur) cand = measuredLength P s cand :=
    fun cand => congrArg (· - 1) (scanMatch_withMixer P s m cur cand _ _)
  have hsearch : matchSearch P (s.withMixer m cur) = (matchSearch P s).withMixer m cur := by
    rw [matchSearch, hlength]
    rfl
  unfold matchBoundary
  rw [withMixer_matchLen, hsearch]
  split_ifs <;> rfl

theorem contextsRebuild_withMixer :
    contextsRebuild P (s.withMixer m cur) = (contextsRebuild P s).withMixer m cur := by
  have hvalue : ∀ i, contextValue P (s.withMixer m cur) i = contextValue P s i :=
    fun i => contextValue_congr P rfl rfl rfl rfl i
  simp only [contextsRebuild, hvalue]
  rfl

theorem byteCommit_withMixer (byte : Byte) :
    byteCommit P byte (s.withMixer m cur) = (byteCommit P byte s).withMixer m cur := by
  have hcount : ∀ t : State,
      countByte byte (bufferWrite P (t.withMixer m cur) (t.withMixer m cur).pos byte) =
        (countByte byte (bufferWrite P t t.pos byte)).withMixer m cur := fun _ => rfl
  have hselect : ∀ (t : State) (c : W32), mixerSetContext c (t.withMixer m cur) =
      (mixerSetContext c t).withMixer m cur := fun _ _ => rfl
  simp only [byteCommit, hcount, contextsRebuild_withMixer, withMixer_c4, hselect,
    matchBoundary_withMixer]
  rfl

theorem foldBit_withMixer (b : Bit) :
    foldBit P b (s.withMixer m cur) = (foldBit P b s).withMixer m cur := by
  have hbyte : foldedByte b (s.withMixer m cur) = foldedByte b s := rfl
  rw [foldBit, hbyte, byteCommit_withMixer, foldBit]
  split_ifs <;> rfl

end

/-! ## UPDATE -/

section
variable (P : Params) (s : State) (m : List WordCell) (cur : Fin 9)

theorem apmRead_withMixer (a : Nat) : apmRead P (s.withMixer m cur) a = apmRead P s a := by
  simp [apmRead]

theorem apmWrite_withMixer (a : Nat) (v : W32) :
    apmWrite P (s.withMixer m cur) a v = (apmWrite P s a v).withMixer m cur := by
  rw [apmWrite, withMixer_apm]
  rfl

theorem apmUpdate_withMixer (b : Bit) :
    apmUpdate P b (s.withMixer m cur) = (apmUpdate P b s).withMixer m cur := by
  simp only [apmUpdate, withMixer_aidx, apmRead_withMixer, apmWrite_withMixer]

theorem apmSelect_withMixer (p : BitVec 12) (cx : BitVec 16) :
    apmSelect P p cx (s.withMixer m cur) = (apmSelect P p cx s).withMixer m cur := rfl

theorem apmResult_withMixer (p : BitVec 12) :
    apmResult P p (s.withMixer m cur) = apmResult P p s := by
  simp only [apmResult, withMixer_aidx, apmRead_withMixer]

end

theorem mixerUpdate_writes (b : Bit) (s : State) : ∃ n, mixerUpdate b s = s.withMixer n 0 := by
  unfold mixerUpdate
  exact ⟨_, rfl⟩

theorem mixerUpdate_withMixer (b : Bit) (s : State) (m : List WordCell) (cur : Fin 9) :
    ∃ n, mixerUpdate b (s.withMixer m cur) = (mixerUpdate b s).withMixer n 0 := by
  obtain ⟨n, hn⟩ := mixerUpdate_writes b (s.withMixer m cur)
  obtain ⟨k, hk⟩ := mixerUpdate_writes b s
  exact ⟨n, by rw [hn, hk]; rfl⟩

theorem mixerGet_writes (P : Params) (s : State) :
    ∃ n q, mixerGet P s = (s.withMixer n 8).withMpr q := by
  unfold mixerGet
  exact ⟨_, _, rfl⟩

theorem mixerGet_withMixer {P : Params} {s : State} {m : List WordCell} {cur : Fin 9}
    (h : (mixerGet P (s.withMixer m cur)).mpr = (mixerGet P s).mpr) :
    ∃ n, mixerGet P (s.withMixer m cur) = (mixerGet P s).withMixer n 8 := by
  obtain ⟨n, q, hn⟩ := mixerGet_writes P (s.withMixer m cur)
  obtain ⟨k, r, hk⟩ := mixerGet_writes P s
  rw [hn, hk, withMpr_mpr, withMpr_mpr] at h
  exact ⟨n, by rw [hn, hk, h]; rfl⟩

/-- With the same output of Mixer_Get the SSE stage and the clamp give the same. -/
theorem predict_withMixer {P : Params} {b : Bit} {s : State} {m : List WordCell}
    (h : (predict P b (s.withMixer m s.mcur)).mpr = (predict P b s).mpr) :
    ∃ n, predict P b (s.withMixer m s.mcur) = (predict P b s).withMixer n (predict P b s).mcur := by
  obtain ⟨n, hn⟩ : ∃ n, mixerGet P (s.withMixer m s.mcur) = (mixerGet P s).withMixer n 8 :=
    mixerGet_withMixer (by simpa [predict] using h)
  refine ⟨n, ?_⟩
  rw [predict_mcur]
  simp only [predict, hn, apmUpdate_withMixer, apmSelect_withMixer, apmResult_withMixer,
    withMixer_mpr, withMixer_c0, withMixer_c4]
  rfl

/-- What the states of R48 share, taken apart. -/
theorem sameButUnusedInputs_iff {s t : State} :
    SameButUnusedInputs s t ↔ ∃ m, t = s.withMixer m s.mcur ∧
      (∀ (c : BitVec 12) (k : Nat), k < 8 → mixerWeight s c k = mixerWeight t c k) ∧
      ∀ k < 8, mixerInput s s.ctxm k = mixerInput t s.ctxm k :=
  ⟨fun ⟨hframe, hrest⟩ => ⟨t.mixer, hframe, hrest⟩,
    fun ⟨m, hframe, hrest⟩ => ⟨by rw [hframe]; rfl, hrest⟩⟩

section
variable {P : Params} {b : Bit} {s u u' f f' : State} {m : List WordCell}

/-- UPDATE fills the row it selects from what the two states share (R141, R157, R173). -/
theorem selectedRow_agrees (d : UpdateDone P b s f u)
    (d' : UpdateDone P b (s.withMixer m s.mcur) f' u') (hcp : u'.cp = u.cp)
    (hlen : u'.matchLen = u.matchLen) (hbyte : predictedByte P u' = predictedByte P u)
    (hbpos : u'.bpos = u.bpos) {k : Nat} (hk : k < 8) :
    mixerInput u u.ctxm k = mixerInput u' u'.ctxm k := by
  by_cases hlast : k = 7
  · rw [hlast, d.lastInput, d'.lastInput, hlen, hbyte, hbpos]
  · have hi := d.input ⟨6 - k, by omega⟩
    have hi' := d'.input ⟨6 - k, by omega⟩
    simp only [show 6 - (6 - k) = k by omega] at hi hi'
    rw [hcp] at hi'
    exact hi.trans hi'.symm

/-- Training reads only the weights and the inputs of the old row, which the two states share. -/
theorem weights_agree (d : UpdateDone P b s f u)
    (d' : UpdateDone P b (s.withMixer m s.mcur) f' u')
    (hweight : ∀ (c : BitVec 12) (k : Nat), k < 8 →
      mixerWeight s c k = mixerWeight (s.withMixer m s.mcur) c k)
    (hinput : ∀ k < 8, mixerInput s s.ctxm k = mixerInput (s.withMixer m s.mcur) s.ctxm k)
    (c : BitVec 12) {k : Nat} (hk : k < 8) : mixerWeight u c k = mixerWeight u' c k := by
  rw [d.weight c k hk, d'.weight c k hk, withMixer_ctxm, withMixer_mpr, ← hweight c k hk]
  by_cases hc : c = s.ctxm
  · rw [if_pos hc, if_pos hc, hc, hinput k hk]
  · rw [if_neg hc, if_neg hc]

end

theorem updateSteps_done {P : Params} {b : Bit} {s u : State} (h : updateSteps P b s = some u) :
    UpdateDone P b s (foldBit P b (mixerUpdate b s)) u := by
  obtain ⟨t, ht, hdone⟩ := updateSteps_spec P b s
  rw [h] at ht
  cases ht
  exact hdone

/-- UPDATE keeps the relation of R48. -/
theorem sameButUnusedInputs_updateSteps {P : Params} {b : Bit} {s t u : State}
    (h : SameButUnusedInputs s t) (hu : updateSteps P b s = some u) :
    ∃ u', updateSteps P b t = some u' ∧ SameButUnusedInputs u u' := by
  obtain ⟨m, rfl, hweight, hinput⟩ := sameButUnusedInputs_iff.mp h
  obtain ⟨v, hv, rfl⟩ := Option.map_eq_some_iff.mp hu
  obtain ⟨k, hk⟩ := mixerUpdate_withMixer b s m s.mcur
  have hfold : foldBit P b (mixerUpdate b (s.withMixer m s.mcur)) =
      (foldBit P b (mixerUpdate b s)).withMixer k (foldBit P b (mixerUpdate b s)).mcur := by
    rw [hk, foldBit_withMixer, foldBit_mcur, mixerUpdate_mcur]
  obtain ⟨n, hn⟩ := ignoresMixer_feedMixer P b _ v _ hv
  have ht : updateSteps P b (s.withMixer m s.mcur) = some (predict P b (v.withMixer n v.mcur)) := by
    rw [updateSteps, hfold, hn, Option.map_some]
  have d := updateSteps_done hu
  have d' := updateSteps_done ht
  have hctxm : (predict P b (v.withMixer n v.mcur)).ctxm = (predict P b v).ctxm := by simp
  have hbyte : predictedByte P (predict P b (v.withMixer n v.mcur)) =
      predictedByte P (predict P b v) := by simp [predictedByte, bufferRead]
  have hrow : ∀ k < 8, mixerInput (predict P b v) (predict P b v).ctxm k =
      mixerInput (predict P b (v.withMixer n v.mcur)) (predict P b v).ctxm k := fun k hk =>
    (selectedRow_agrees d d' (by simp) (by simp) hbyte (by simp) hk).trans (by rw [hctxm])
  have hweights := fun c k (hk : k < 8) => weights_agree d d' hweight hinput c hk
  have hmpr : (predict P b (v.withMixer n v.mcur)).mpr = (predict P b v).mpr := by
    rw [d.mpr, d'.mpr, hctxm, dotRow_congr hrow fun k hk => hweights _ k hk]
  obtain ⟨n', hn'⟩ := predict_withMixer hmpr
  exact ⟨_, ht, sameButUnusedInputs_iff.mpr ⟨n', hn', hweights, hrow⟩⟩

/-! ## Commands and steps -/

/-- What the one answers, the other answers alike. -/
def AnswersAlike (r q : Result) : Prop :=
  ∀ s', r = .next s' → ∃ t', q = .next t' ∧ SameButUnusedInputs s' t'

theorem answersAlike_next {s t : State} (h : SameButUnusedInputs s t) :
    AnswersAlike (.next s) (.next t) := by
  intro s' hs
  cases hs
  exact ⟨t, rfl, h⟩

/-- Equal writes to STATUS and the command port keep the relation. -/
theorem sameButUnusedInputs_port {s t : State} (h : SameButUnusedInputs s t) (l : List Word)
    (st : Status) (r : Response) :
    SameButUnusedInputs (((s.withCmds l).withStatus st).withResp r)
      (((t.withCmds l).withStatus st).withResp r) :=
  ⟨congrArg (fun u => ((u.withCmds l).withStatus st).withResp r) h.1, h.2⟩

section
variable {s : State} {m : List WordCell} (h : SameButUnusedInputs s (s.withMixer m s.mcur))
include h

theorem answersAlike_port (st : Status) (r : Response) :
    AnswersAlike (.next ((s.withStatus st).withResp r))
      (.next (((s.withMixer m s.mcur).withStatus st).withResp r)) :=
  answersAlike_next (sameButUnusedInputs_port h s.cmds st r)

theorem answersAlike_unlessFaulted {k q : Result} (hk : AnswersAlike k q) :
    AnswersAlike (unlessFaulted s k) (unlessFaulted (s.withMixer m s.mcur) q) := by
  unfold unlessFaulted
  rw [withMixer_status]
  split_ifs
  · exact hk
  · exact answersAlike_port h s.status _

theorem answersAlike_ifInitialised {k q : Result} (hk : AnswersAlike k q) :
    AnswersAlike (ifInitialised s k) (ifInitialised (s.withMixer m s.mcur) q) := by
  unfold ifInitialised
  rw [withMixer_status]
  split_ifs
  · exact hk
  · exact answersAlike_port h (s.status.withFault .notInitialised) _

theorem answersAlike_update (P : Params) (b : Bit) :
    AnswersAlike (updateCommand P b s) (updateCommand P b (s.withMixer m s.mcur)) := by
  refine answersAlike_unlessFaulted h (answersAlike_ifInitialised h ?_)
  have hover : posOverflows (s.withMixer m s.mcur) = posOverflows s := rfl
  rw [hover]
  split_ifs
  · exact answersAlike_port h (s.status.withFault .posOverflow) _
  · obtain ⟨u, hu, -⟩ := updateSteps_spec P b s
    obtain ⟨u', hu', hsame⟩ := sameButUnusedInputs_updateSteps h hu
    rw [hu, hu']
    obtain ⟨n, rfl, -⟩ := sameButUnusedInputs_iff.mp hsame
    exact answersAlike_next (sameButUnusedInputs_port hsame u.cmds u.status ⟨0, 0⟩)

theorem answersAlike_exec (i : Instr) :
    AnswersAlike (exec i s) (exec i (s.withMixer m s.mcur)) := by
  cases i with
  | get =>
    exact answersAlike_unlessFaulted h
      (answersAlike_ifInitialised h (answersAlike_port h s.status _))
  | update b => exact answersAlike_update h Config.params b
  | squash x => exact answersAlike_unlessFaulted h (answersAlike_port h s.status _)
  | stretch p => exact answersAlike_unlessFaulted h (answersAlike_port h s.status _)
  | reset => exact answersAlike_next ⟨rfl, fun _ _ _ => rfl, fun _ _ => rfl⟩

theorem answersAlike_illegalCommand :
    AnswersAlike (illegalCommand s) (illegalCommand (s.withMixer m s.mcur)) :=
  answersAlike_unlessFaulted h (answersAlike_port h (s.status.withFault .illegalCommand) _)

theorem answersAlike_step : AnswersAlike (step s) (step (s.withMixer m s.mcur)) := by
  cases hcmds : s.cmds with
  | nil =>
    rw [step_of_idle hcmds, step_of_idle (s := s.withMixer m s.mcur) hcmds]
    exact answersAlike_next h
  | cons w rest =>
    have htaken : SameButUnusedInputs (s.withCmds rest) ((s.withCmds rest).withMixer m s.mcur) :=
      sameButUnusedInputs_port h rest s.status s.resp
    cases hd : decode w with
    | ok i =>
      rw [step_of_decode_ok hcmds hd, step_of_decode_ok (s := s.withMixer m s.mcur) hcmds hd]
      exact answersAlike_exec htaken i
    | error e =>
      rw [step_of_decode_error hcmds hd, step_of_decode_error (s := s.withMixer m s.mcur) hcmds hd]
      exact answersAlike_illegalCommand htaken

end

/-- Settles O46: the relation along a step, of which equal responses and predictions are part. -/
theorem unusedInputsNeverShow : Obligations.UnusedInputsNeverShow := by
  intro s t s' h hstep
  obtain ⟨m, rfl, -⟩ := sameButUnusedInputs_iff.mp h
  obtain ⟨t', ht, hsame⟩ := answersAlike_step h s' hstep
  obtain ⟨n, rfl, -⟩ := sameButUnusedInputs_iff.mp hsame
  exact ⟨_, ht, hsame, rfl, rfl⟩

end Sys2Proof.Proofs

/-! GET, the two LUT reads and RESET (40_commands.md R91, R92, R96, R97), and the first UPDATE after
RESET (46_apm.md R192). -/

namespace Sys2Proof.Proofs

open Sys2Proof Sys2Proof.Machine Sys2Proof.Safety Sys2Proof.Laws

/-! ## GET and the LUT reads -/

theorem zext16_eq {n : Nat} (v : BitVec n) : zext16 v = BitVec.ofNat 16 v.toNat := by
  rw [zext16, BitVec.ofNat_toNat]

theorem sext16_eq {n : Nat} (v : BitVec n) : sext16 v = BitVec.ofInt 16 v.toInt := rfl

/-- Settles O13. -/
theorem getReturnsThePrediction : Obligations.GetReturnsThePrediction := by
  intro s hrun
  rw [exec_get, getCommand_of_running hrun, zext16_eq]
  rfl

theorem exec_squash_of_unfaulted {s : State} (h : s.status.fault = .none) (x : BitVec 12) :
    exec (.squash x) s = .next { s with
      resp := { rstat := 1, rdata := BitVec.ofNat 16 (squash Config.params x.toInt).toNat } } := by
  rw [← zext16_eq]
  exact unlessFaulted_ok h _

/-- Settles O15: the operand -2048 is below the table, every other one is in it. -/
theorem squashReadsItsTable : Obligations.SquashReadsItsTable := by
  intro s x hf
  refine ⟨fun hx => ?below, fun n hx => ?inside⟩
  case below =>
    rw [exec_squash_of_unfaulted hf, squash_of_lt (by omega)]
    rfl
  case inside => rw [exec_squash_of_unfaulted hf, squash_of_index n hx]

/-- Settles O16. -/
theorem stretchReadsItsTable : Obligations.StretchReadsItsTable := by
  intro s p hf
  rw [← sext16_eq]
  exact unlessFaulted_ok hf _

/-! ## RESET -/

/-- RESET is the fixed state with the words still waiting (R92). -/
theorem exec_reset_eq (s : State) :
    exec .reset s = .next { State.reset with cmds := s.cmds } := rfl

/-- Settles O19: what RESET constructs depends on the waiting words only, and it keeps them. -/
theorem resetTwiceIsResetOnce : Obligations.ResetTwiceIsResetOnce := by
  refine ⟨fun s t h => ?_, exec_reset_eq _⟩
  rw [exec_reset_eq] at h
  cases h
  exact exec_reset_eq _

theorem apmRead_reset_row {j : Nat} (r : Nat) (hj : j < 33) :
    (apmRead Config.params State.reset (33 * r + j)).toNat =
      (squash Config.params (((j : Int) - 16) * 128)).toNat * 16 := by
  rw [← knotTemplate_toNat, ← apmTemplate_row Config.params r hj]
  rfl

theorem reset_slots (i : Fin 7) : State.reset.ctx[i] = 0 ∧ State.reset.cp[i] = 0 := by
  revert i
  decide

/-- Settles O18: the registers by their values, every array read by its default. -/
theorem resetConstructsThePredictor : Obligations.ResetConstructsThePredictor := by
  intro s
  have hends : ∀ r, (apmRead Config.params State.reset (33 * r)).toNat = 0 ∧
      (apmRead Config.params State.reset (33 * r + 32)).toNat = 65520 := by
    intro r
    have hfirst := apmRead_reset_row (j := 0) r (by decide)
    have hlast := apmRead_reset_row (j := 32) r (by decide)
    rw [squash_of_lt (by decide)] at hfirst
    rw [squash_of_gt (by decide)] at hlast
    exact ⟨hfirst, hlast⟩
  exact ⟨_, exec_reset_eq s, rfl, rfl, rfl, rfl, rfl, rfl, rfl, rfl, reset_slots,
    fun _ _ => ⟨rfl, rfl⟩, rfl, rfl, rfl, fun r _ _ hj => apmRead_reset_row r hj, fun r _ => hends r,
    resetIndex_val Config.params, fun _ => rfl, fun _ => rfl, fun _ => rfl, rfl, rfl, rfl⟩

/-! ## The first UPDATE (R192) -/

theorem reset_takes : TakesUpdate State.reset := ⟨⟨rfl, rfl⟩, by decide⟩

theorem reset_inside : ¬ CompletesByte State.reset := by
  unfold CompletesByte
  decide

theorem mixerRead_reset (a : Nat) : mixerRead State.reset.mixer a = 0 := rfl

section
variable {b : Bit} {u : State}
  (d : UpdateDone Config.params b State.reset
    (foldBit Config.params b (mixerUpdate b State.reset)) u)
include d

/-- Nothing has been stored, so training moves no weight off 0. -/
theorem mixerWeight_first (c : BitVec 12) {k : Nat} (hk : k < 8) : mixerWeight u c k = 0 := by
  rw [d.weight c k hk, mixerWeight, mixerInput, mixerRead_reset, mixerRead_reset]
  split
  · simp [trainedWeight]
  · rfl

theorem mpr_first : u.mpr = squash Config.params 0 := by
  have hzero : ∀ k ∈ List.range 8, (mixerRead u.mixer (inputIndex u.ctxm k)).toInt *
      (mixerRead u.mixer (weightIndex u.ctxm k)).toInt = 0 := by
    intro k hk
    have hw : mixerRead u.mixer (weightIndex u.ctxm k) = 0 :=
      mixerWeight_first d u.ctxm (List.mem_range.mp hk)
    rw [hw]
    exact Int.mul_zero _
  rw [d.mpr, dotRow_eq, List.map_congr_left hzero]
  rfl

theorem cp_first (i : Fin 7) : u.cp[i].toNat = 2 + b.toNat := by
  have hb := b.isLt
  have hctx : u.ctx[i] = 0 := by
    rw [d.ctx, fold_inside reset_inside, withPartial_ctx, mixerUpdate_ctx]
    exact (reset_slots i).1
  have hc0 : u.c0.toNat = 2 + b.toNat := c0_of_inside reset_inside d
  rw [d.cp, slotPointer_toNat, hctx, hc0]
  change (0 + (2 + b.toNat)) % _ = _
  obtain h | h := ringSize_cases Config.params <;> rw [h] <;> omega

/-- All seven slots point at `states[0]` after RESET. -/
theorem states_first :
    statesRead Config.params u 0 = (fun q => nextState Config.params q b)^[7] 0 := by
  have hall : pointingAt Config.params State.reset slotOrder 0 = slotOrder.length := by
    refine List.countP_eq_length.mpr fun j _ => decide_eq_true ?_
    rw [(reset_slots j).2]
  rw [d.states, hall]
  rfl

/-- The queried cell moves without wrapping, the template being in the cells' range. -/
theorem queriedCell_first :
    (apmRead Config.params u State.reset.aidx.val).toInt =
      (apmRead Config.params State.reset State.reset.aidx.val).toInt +
        ((if b = 1 then 65662 else 0) -
          (apmRead Config.params State.reset State.reset.aidx.val).toInt) / 128 := by
  have h := knotTemplate_bounds Config.params (State.reset.aidx.val % 33)
  rw [← apmRead_reset] at h
  rw [d.apm, if_pos (.inl rfl), adaptedCell_toInt b h.1 (by omega), apmTarget_eq]

end

/-- Settles O36, each clause from what UPDATE leaves of the reset state. -/
theorem firstUpdateAfterReset : Obligations.FirstUpdateAfterReset := by
  intro b
  refine exec_update_answers b reset_takes fun u d => ?_
  have hc0 := c0_of_inside reset_inside d
  have hpos := pos_of_inside reset_inside d
  have hlen : u.matchLen = 0 := (matchLen_of_inside reset_inside d).trans (ite_self _)
  have hbpos : u.bpos = 1 := by
    rw [d.bpos, fold_inside reset_inside, withPartial_bpos]
    rfl
  exact ⟨hc0, hbpos, hpos, hlen, cp_first (u := u) d, states_first (u := u) d,
    fun c _ hk => mixerWeight_first d c hk, mpr_first (u := u) d, queriedCell_first (u := u) d⟩

end Sys2Proof.Proofs

/-! The sub-blocks on their own: reads and writes of the five arrays (20_memory.md R61), the clamp
(40_commands.md R95), the shifts and hashes of the context store (00_scope.md R10,
43_context_store.md R136 to R141). -/

namespace Sys2Proof.Proofs

open Sys2Proof Sys2Proof.Machine Sys2Proof.Laws

/-- Settles O43. -/
theorem readsReturnTheLatestWrite : Obligations.ReadsReturnTheLatestWrite :=
  fun P s => ⟨bufferRead_bufferWrite P s, statesRead_statesWrite P s, hashesRead_hashesWrite s,
    fun _ _ _ => mixerRead_mixerWrite, apmRead_apmWrite P s⟩

/-- Settles O47. -/
theorem clampAddsOneBelowHalf : Obligations.ClampAddsOneBelowHalf :=
  ⟨fun _ => clamp_eq, fun _ => clamp_bounds, by decide, by decide, by decide, by decide⟩

/-! ## The rolling hash (R136) -/

/-- The factor 43707 · 2^4 of R136. -/
def rollFactor : BitVec 23 := 699312

theorem rollHash_eq (h : BitVec 23) (c4 : W32) :
    rollHash h c4 = h * rollFactor + c4.setWidth 23 := by
  apply BitVec.eq_of_toNat_eq
  rw [rollHash_toNat, BitVec.toNat_add, BitVec.toNat_mul, BitVec.toNat_setWidth,
    show rollFactor.toNat = 699312 from rfl]
  omega

/-- Each commit multiplies the difference of two hashes by the factor, of which 2^4 is a part. -/
theorem rollHash_iterate_sub (c4 : W32) (h g : BitVec 23) (n : Nat) :
    (fun x => rollHash x c4)^[n] h - (fun x => rollHash x c4)^[n] g = (h - g) * rollFactor ^ n := by
  induction n with
  | zero => simp
  | succ n ih =>
    rw [Function.iterate_succ_apply', Function.iterate_succ_apply', rollHash_eq, rollHash_eq,
      add_sub_add_right_eq_sub, ← sub_mul, ih, mul_assoc, ← pow_succ]

theorem rollHash_six (c4 : W32) (h g : BitVec 23) :
    (fun x => rollHash x c4)^[6] h = (fun x => rollHash x c4)^[6] g := by
  have hzero : rollFactor ^ 6 = 0 := by decide
  rw [← sub_eq_zero, rollHash_iterate_sub, hzero, mul_zero]

/-- Settles O49: six commits multiply the difference by 2^24, which is 0 modulo 2^23. -/
theorem rollHashForgetsInSixCommits : Obligations.RollHashForgetsInSixCommits :=
  fun c4 h g => ⟨rollHash_six c4 h g,
    (Function.iterate_succ_apply _ 6 h).trans (rollHash_six c4 _ h)⟩

/-! ## Whitening and masking (R138, R141) -/

theorem toNat_contextBase (P : Params) (i : Nat) (cx : W32) :
    (contextBase P i cx).toNat = (whiten i cx).toNat % P.ringSize :=
  contextBase_toNat P _

/-- Settles O50: the sum modulo B does not see that the base has been reduced. -/
theorem maskingAtStorageOrAtUse : Obligations.MaskingAtStorageOrAtUse := by
  intro P i cx c0
  refine ⟨?pointer, BitVec.eq_of_toNat_eq ?zero⟩
  case pointer => rw [slotPointer_toNat, toNat_contextBase, Nat.mod_add_mod]
  case zero =>
    rw [toNat_contextBase, show whiten 0 0 = 0 by decide]
    exact Nat.zero_mod _

/-! ## The shift of context 6 (R140) -/

/-- The bits R140 looks at. -/
def topBits : W32 := 0x80808080

theorem topBits_bits : (∀ k < 4, topBits.getLsbD (8 * k + 7) = true) ∧
    ∀ i < 32, topBits.getLsbD i = true → ∃ k < 4, i = 8 * k + 7 := by
  decide

theorem byte_top_iff (n k : Nat) : 128 ≤ n / 256 ^ k % 256 ↔ n.testBit (8 * k + 7) = true := by
  have hdiv : n / 2 ^ (8 * k + 7) = n / 256 ^ k / 128 := by
    rw [Nat.pow_add, Nat.pow_mul, Nat.div_div_eq_div_mul]
  rw [Nat.testBit_eq_decide_div_mod_eq, decide_eq_true_iff, hdiv]
  omega

theorem and_topBits_eq_zero_iff (c4 : W32) :
    c4 &&& topBits = 0 ↔ ∀ k < 4, c4.toNat / 256 ^ k % 256 < 128 := by
  obtain ⟨hset, honly⟩ := topBits_bits
  have hbyte : ∀ k, c4.toNat / 256 ^ k % 256 < 128 ↔ c4.getLsbD (8 * k + 7) = false := by
    intro k
    rw [← Nat.not_le, byte_top_iff, Bool.not_eq_true]
    rfl
  simp only [hbyte]
  constructor
  · intro h k hk
    have hbit : (c4 &&& topBits).getLsbD (8 * k + 7) = false := by
      rw [h]
      exact BitVec.getLsbD_zero
    rwa [BitVec.getLsbD_and, hset k hk, Bool.and_true] at hbit
  · intro h
    apply BitVec.eq_of_getLsbD_eq
    intro i hi
    rw [show (0 : W32).getLsbD i = false from BitVec.getLsbD_zero, BitVec.getLsbD_and,
      Bool.and_eq_false_iff]
    by_cases htop : topBits.getLsbD i = true
    · obtain ⟨k, hk, rfl⟩ := honly i hi htop
      exact .inl (h k hk)
    · exact .inr (Bool.eq_false_iff.mpr htop)

/-- Settles O51: the mask holds the top bit of each of the four bytes. -/
theorem binShiftSeesTopBits : Obligations.BinShiftSeesTopBits := by
  intro P c4
  refine ⟨fun ⟨k, hk, htop⟩ => ?set, fun h => if_pos ((and_topBits_eq_zero_iff c4).mpr h)⟩
  case set =>
    have hne : ¬ c4 &&& topBits = 0 := fun h =>
      Nat.not_lt.mpr htop ((and_topBits_eq_zero_iff c4).mp h k hk)
    refine (if_neg hne).trans ?_
    cases P.binShift <;> rfl

/-! ## Shifts and hashes on integers (R10, R137, R138) -/

theorem rotl16_toNat (v : W32) :
    (rotl16 v).toNat = v.toNat % 65536 * 65536 + v.toNat / 65536 := by
  have hv := v.isLt
  have hhigh : v.toNat <<< 16 % 2 ^ 32 = 2 ^ 16 * (v.toNat % 65536) := by
    rw [Nat.shiftLeft_eq]
    omega
  rw [rotl16, BitVec.toNat_or, BitVec.toNat_shiftLeft, BitVec.toNat_ushiftRight,
    Nat.shiftRight_eq_div_pow, hhigh, ← Nat.two_pow_add_eq_or_of_lt (by omega)]
  omega

/-- Settles O52. -/
theorem hashingShiftsAreAsNamed : Obligations.HashingShiftsAreAsNamed := by
  intro P v k
  refine ⟨fun h => ?arithmetic, fun h => ?logical, rotl16_toNat v⟩
  case arithmetic =>
    rw [hashShift, h]
    change (v.sshiftRight k).toInt = _
    rw [BitVec.toInt_sshiftRight, Int.shiftRight_eq_div_pow]
    norm_cast
  case logical =>
    rw [hashShift, h]
    change (v >>> k).toNat = _
    rw [BitVec.toNat_ushiftRight, Nat.shiftRight_eq_div_pow]

theorem mul_eq_ofNat (x y : W32) : x * y = BitVec.ofNat 32 (x.toNat * y.toNat) := by
  apply BitVec.eq_of_toNat_eq
  rw [BitVec.toNat_mul, BitVec.toNat_ofNat]

theorem mul_add_ofNat (x y : W32) (i : Nat) :
    x * y + BitVec.ofNat 32 i = BitVec.ofNat 32 (x.toNat * y.toNat + i) := by
  rw [mul_eq_ofNat, BitVec.ofNat_add]

/-- Settles O53: each product and sum of the definitions as the reduced one of integers. -/
theorem contextHashesAsWritten : Obligations.ContextHashesAsWritten := by
  intro P x y i
  refine ⟨⟨_, rfl, ?hash⟩, _, rfl, ?base⟩
  case hash =>
    rw [← mul_eq_ofNat, ← mul_eq_ofNat]
    rfl
  case base =>
    rw [toNat_contextBase, whiten, mul_add_ofNat, mul_add_ofNat, BitVec.toNat_ofNat]
    rfl

end Sys2Proof.Proofs

/-! The loading of the parameters (R6, R114, R127): what is accepted is read entry by entry as
written. And the reference candidate of the stretch table (41_squash_stretch.md R118): the least
inverse. -/

namespace Sys2Proof.Proofs

open Sys2Proof Sys2Proof.Machine Sys2Proof.Laws

/-! ## What accepted parameters have passed -/

theorem tablesShaped_iff {q : ParamInstance} :
    tablesShaped q = true ↔
      q.squashTable.length = 4095 ∧ q.stretchTable.length = 4096 ∧ q.stateTable.length = 256 ∧
      (∀ r ∈ q.stateTable, r.1 < 256 ∧ r.2 < 256) ∧ 8 ≤ q.stateMapRows ∧
      q.stateMap.length = q.stateMapRows ∧
      (∀ r ∈ q.stateMap, r.length = 256 ∧ ∀ v ∈ r, -2147483648 ≤ v ∧ v ≤ 2147483647) ∧
      q.salts.length = 5 ∧ q.hashSalts.length = 3 ∧
      (q.ctx6BinShift = 4 ∨ q.ctx6BinShift = 16) ∧ (q.bufBits = 25 ∨ q.bufBits = 28) := by
  simp only [tablesShaped, Bool.and_eq_true, Bool.or_eq_true, beq_iff_eq, decide_eq_true_eq,
    List.all_eq_true, allWithin_eq_true_iff, and_assoc]

theorem checks_of_loadParams {q : ParamInstance} {P : Params} (h : loadParams q = .ok P) :
    tablesShaped q = true ∧ allWithin 0 4095 q.squashTable = true ∧
      allWithin (-2048) 2047 q.stretchTable = true ∧ paddingZero q = true ∧ P = paramsOf q := by
  obtain ⟨e, he⟩ | ⟨hshape, hsquash, hstretch, hpad, hok⟩ := loadParams_cases q
  · rw [he] at h
    cases h
  · rw [hok] at h
    cases h
    exact ⟨hshape, hsquash, hstretch, hpad, rfl⟩

/-! ## The entries -/

theorem getElem?_eq_some_getD {α : Type} {l : List α} {n size : Nat} (d : α)
    (hlen : l.length = size) (hn : n < size) :
    l[n]? = some (l.getD n d) ∧ l.getD n d ∈ l := by
  have h : n < l.length := hlen ▸ hn
  rw [List.getD_eq_getElem _ _ h]
  exact ⟨List.getElem?_eq_getElem h, List.getElem_mem h⟩

theorem squashEntry_read {q : ParamInstance} (hlen : q.squashTable.length = 4095)
    (hrange : allWithin 0 4095 q.squashTable = true) (n : Fin 4095) :
    q.squashTable[n.val]? = some (((paramsOf q).squashTable n).toNat : Int) := by
  obtain ⟨hget, hmem⟩ := getElem?_eq_some_getD 0 hlen n.isLt
  obtain ⟨hlo, hhi⟩ := allWithin_eq_true_iff.mp hrange _ hmem
  have hval : (((paramsOf q).squashTable n).toNat : Int) = q.squashTable.getD n.val 0 := by
    simp only [paramsOf, BitVec.toNat_ofInt]
    omega
  rw [hget, hval]

theorem toInt_ofInt12 {v : Int} (h0 : -2048 ≤ v) (h1 : v ≤ 2047) :
    (BitVec.ofInt 12 v).toInt = v := by
  rw [BitVec.toInt_ofInt]
  exact Int.bmod_eq_of_le (by norm_num; omega) (by norm_num; omega)

theorem stretchEntry_read {q : ParamInstance} (hlen : q.stretchTable.length = 4096)
    (hrange : allWithin (-2048) 2047 q.stretchTable = true) (p : BitVec 12) :
    q.stretchTable[p.toNat]? = some ((paramsOf q).stretchTable p).toInt := by
  obtain ⟨hget, hmem⟩ := getElem?_eq_some_getD 0 hlen p.isLt
  obtain ⟨hlo, hhi⟩ := allWithin_eq_true_iff.mp hrange _ hmem
  rw [hget, ← toInt_ofInt12 hlo hhi]
  rfl

theorem stateRow_read {q : ParamInstance} (hlen : q.stateTable.length = 256)
    (hbytes : ∀ r ∈ q.stateTable, r.1 < 256 ∧ r.2 < 256) (hpad : paddingZero q = true) (s : Byte) :
    q.stateTable[s.toNat]? =
      some ((nextState (paramsOf q) s 0).toNat, (nextState (paramsOf q) s 1).toNat) := by
  obtain ⟨hget, hmem⟩ := getElem?_eq_some_getD (0, 0) hlen s.isLt
  rw [hget]
  by_cases hs : s.toNat < 253
  · obtain ⟨h0, h1⟩ := hbytes _ hmem
    have hzero : (nextState (paramsOf q) s 0).toNat = (q.stateTable.getD s.toNat (0, 0)).1 := by
      rw [nextState, dif_pos hs]
      exact (BitVec.toNat_ofNat ..).trans (Nat.mod_eq_of_lt h0)
    have hone : (nextState (paramsOf q) s 1).toNat = (q.stateTable.getD s.toNat (0, 0)).2 := by
      rw [nextState, dif_pos hs]
      exact (BitVec.toNat_ofNat ..).trans (Nat.mod_eq_of_lt h1)
    rw [hzero, hone]
  · have hdrop : (q.stateTable.drop 253)[s.toNat - 253]? =
        some (q.stateTable.getD s.toNat (0, 0)) := by
      rw [List.getElem?_drop, show 253 + (s.toNat - 253) = s.toNat by omega, hget]
    rw [paddingZero_eq_true_iff.mp hpad _ (List.mem_of_getElem? hdrop),
      nextState_padding (by omega), nextState_padding (by omega)]
    rfl

theorem stateMapEntry_read {q : ParamInstance} (hlen : 7 ≤ q.stateMap.length)
    (hrows : ∀ r ∈ q.stateMap, r.length = 256 ∧ ∀ v ∈ r, -2147483648 ≤ v ∧ v ≤ 2147483647)
    (i : Fin 7) (s : Byte) :
    ∃ row, q.stateMap[i.val]? = some row ∧
      row[s.toNat]? = some (stateMap (paramsOf q) i s).toInt := by
  obtain ⟨hget, hmem⟩ := getElem?_eq_some_getD [] rfl (i.isLt.trans_le hlen)
  obtain ⟨hrow, hrange⟩ := hrows _ hmem
  obtain ⟨hget', hmem'⟩ := getElem?_eq_some_getD 0 hrow s.isLt
  obtain ⟨hlo, hhi⟩ := hrange _ hmem'
  refine ⟨_, hget, hget'.trans ?_⟩
  rw [← toInt_ofInt32 hlo hhi]
  rfl

theorem eq_of_length_five {l : List W32} (h : l.length = 5) :
    l = [l.getD 0 0, l.getD 1 0, l.getD 2 0, l.getD 3 0, l.getD 4 0] := by
  match l, h with
  | [_, _, _, _, _], _ => rfl

theorem eq_of_length_three {l : List W32} (h : l.length = 3) :
    l = [l.getD 0 0, l.getD 1 0, l.getD 2 0] := by
  match l, h with
  | [_, _, _], _ => rfl

/-- Settles O58: the checks are what makes each entry fit its type. -/
theorem acceptedInstanceIsReadAsWritten : Obligations.AcceptedInstanceIsReadAsWritten := by
  intro q P hload
  obtain ⟨hshape, hsquash, hstretch, hpad, rfl⟩ := checks_of_loadParams hload
  obtain ⟨hsq, hst, hstate, hbytes, hrows, hmap, hmapRows, hsalts, hhash, hbin, hbuf⟩ :=
    tablesShaped_iff.mp hshape
  refine ⟨squashEntry_read hsq hsquash, stretchEntry_read hst hstretch,
    stateRow_read hstate hbytes hpad, stateMapEntry_read (by omega) hmapRows,
    eq_of_length_five hsalts, eq_of_length_three hhash, ?bin, rfl, ?ring⟩
  case bin => obtain h | h := hbin <;> simp [paramsOf, h, BinShiftAmount.amount]
  case ring => obtain h | h := hbuf <;> simp [paramsOf, h, Params.ringSize, BufBits.bits]

/-! ## The reference candidate (R117, R118) -/

theorem refStretch_least (p : Nat) : LeastReaching (-2047) p (refStretch p) :=
  refStretchLoop_least 4095 (-2047) 0 p (by decide) (by decide) (by decide) (Nat.zero_le p)

theorem refSquash_last : refSquash 2047 = 4094 := by decide

/-- Up to 4094 some value of the domain reaches `p`, and the entry is the least. -/
theorem refStretch_of_le {p : Nat} (hp : p ≤ 4094) :
    -2047 ≤ refStretch p ∧ refStretch p ≤ 2047 ∧ (p : Int) ≤ refSquash (refStretch p) ∧
      ∀ x : Int, -2047 ≤ x → x < refStretch p → refSquash x < p := by
  obtain hleast | ⟨-, hnone⟩ := refStretch_least p
  · exact hleast
  · have hlast := hnone 2047 (by decide) le_rfl
    rw [refSquash_last] at hlast
    omega

theorem refStretch_last : refStretch 4095 = 2047 := by
  obtain ⟨hlo, hhi, hreach, -⟩ | ⟨htail, -⟩ := refStretch_least 4095
  · have hbound := (refSquash_bounds hlo hhi).2
    omega
  · exact htail

theorem refSquash_mono {x y : Int} (h0 : -2047 ≤ x) (hxy : x ≤ y) (h1 : y ≤ 2047) :
    refSquash x ≤ refSquash y := by
  induction y, hxy using Int.leInduction with
  | base => exact le_rfl
  | succ y hxy ih => exact (ih (by omega)).trans (refSquash_step (by omega) (by omega))

/-- The squash never falls, so its value at `x` and the one before it place an entry. -/
theorem refStretch_eq {p : Nat} {x : Int} (hx : -2047 ≤ x ∧ x ≤ 2047)
    (hreach : (p : Int) ≤ refSquash x) (hbelow : x = -2047 ∨ refSquash (x - 1) < p) :
    refStretch p = x := by
  have hbound := (refSquash_bounds hx.1 hx.2).2
  obtain ⟨hlo, hhi, hreach', hleast⟩ := refStretch_of_le (p := p) (by omega)
  have hle : refStretch p ≤ x := by
    by_contra hgt
    exact absurd (hleast x hx.1 (by omega)) (by omega)
  obtain rfl | hlt := hbelow
  · omega
  · by_contra hne
    have hmono := refSquash_mono hlo (y := x - 1) (by omega) (by omega)
    omega

theorem refSquash_around_zero :
    refSquash (-1) = 2043 ∧ refSquash 0 = 2047 ∧ refSquash 1 = 2051 := by decide

/-- Settles O59: the loop's law for every entry up to 4094 and the tail value; the listed values
follow from the squash at their entries. -/
theorem referenceStretchIsTheLeastInverse : Obligations.ReferenceStretchIsTheLeastInverse := by
  obtain ⟨hminus, hzero, hplus⟩ := refSquash_around_zero
  refine ⟨?length, fun p hp => ?entry, fun x => refSquash_bounds,
    refStretch_eq (by decide) (by decide) (by decide),
    refStretch_eq (by decide) (by decide) (by decide),
    refStretch_eq (by decide) (by decide) (by decide), fun p hp => ?zero, fun p hp => ?one,
    refStretch_eq (by decide) (by decide) (by decide), refStretch_last⟩
  case length =>
    exact refStretchLoop_length 4095 (-2047) 0 (by decide) (by decide) (by decide) (by decide)
  case entry =>
    by_cases hlt : p ≤ 4094
    · obtain ⟨hlo, hhi, hreach, hleast⟩ := refStretch_of_le hlt
      exact ⟨hlo, hhi, fun _ => hreach, hleast⟩
    · obtain rfl : p = 4095 := by omega
      rw [refStretch_last]
      refine ⟨by decide, le_rfl, fun h => absurd h hlt, fun x hlo hhi => ?_⟩
      have hbound := (refSquash_bounds hlo hhi.le).2
      omega
  case zero =>
    have hrange : 2044 ≤ p ∧ p ≤ 2047 := by
      revert p
      decide
    exact refStretch_eq (by decide) (by omega) (.inr (by norm_num; omega))
  case one =>
    have hrange : 2048 ≤ p ∧ p ≤ 2051 := by
      revert p
      decide
    exact refStretch_eq (by decide) (by omega) (.inr (by norm_num; omega))

end Sys2Proof.Proofs
